-- ==== Sys2Proof/Word.lean ====
section
/-! DEFINITION. Bytes and byte strings (00_scope.md R8, R10). -/

namespace Sys2Proof

/-- A byte, bits 7 down to 0 (R8). -/
abbrev Byte := BitVec 8

/-- A finite byte string, first byte on the wire first (R8, R10). -/
abbrev Bytes := List Byte

/-- `zeros(n)` of R10: `n` zero bytes. -/
def zeros (n : Nat) : Bytes := List.replicate n 0#8

end Sys2Proof
end

