-- ==== Sys2Proof/Config.lean ====
section
/-! DEFINITION. The parameters of 00_scope.md R5 and the free values: what the spec leaves open and no
proof may know. -/

namespace Sys2Proof

/-- The transport's answer to an emission or to an open (44_dma_session.md R112). -/
inductive TxAnswer where
  | ok
  | ioError
deriving DecidableEq, Repr, Inhabited

/-- The three receive events that a receive can be answered with (00_scope.md R6, 60_exceptions.md R139). -/
inductive RxEvent where
  /-- `RX_DATAGRAM(d)`. -/
  | datagram (d : Bytes)
  /-- `RX_TIMEOUT`. -/
  | timeout
  /-- `RX_IOERROR`. -/
  | ioError
deriving DecidableEq, Repr, Inhabited

namespace Config

/-- `PAGE`: the boundary no request may cross, in bytes (R5). -/
abbrev page : Nat := 4096
/-- `NETTLP_LEN`: bytes of the transport header (R5). -/
abbrev nettlpLen : Nat := 6
/-- `REQ3DW_LEN`: bytes of a request header with a 32-bit address (R5). -/
abbrev req3dwLen : Nat := 12
/-- `REQ4DW_LEN`: bytes of a request header with a 64-bit address (R5). -/
abbrev req4dwLen : Nat := 16
/-- `CPL_LEN`: bytes of a completion header (R5). -/
abbrev cplLen : Nat := 12
/-- `RX_MIN`: the shortest acceptable completion datagram, in bytes (R5). -/
abbrev rxMin : Nat := 18
/-- `MAX_DW`: the largest DW length an encode command accepts (R5). -/
abbrev maxDw : Nat := 1024
/-- `PORT_BASE_CORE`: first UDP port of direction IssuedByCore (R5). -/
abbrev portBaseCore : Nat := 0x3000
/-- `PORT_BASE_ADAPTER`: first UDP port of direction IssuedByAdapter (R5). -/
abbrev portBaseAdapter : Nat := 0x4000
/-- `2^AW`, one past the highest remote address (R5, 20_memory.md R31). -/
abbrev addressTop : Nat := 18446744073709551616

/-- Free value: byte `index` of draw number `draw`. It stands for the unspecified bytes of DST and SRC
after reset (10_state.md R28) and of DST after a failed read (45_completion_reassembly.md R118). Log 7, 8. -/
opaque drawnByte (draw index : Nat) : Byte

/-- Free value: the transport's answer where no input gives one (44_dma_session.md R112). Log 6. -/
opaque txAnswer (draw : Nat) : TxAnswer

/-- Free value: the event that answers a receive where no input gives one: every receive is answered by
exactly one of the three events (60_exceptions.md R139, decision D34), and no law says which. Log 24. -/
opaque rxEvent (draw : Nat) : RxEvent

/-- Free value: SEQ.p after a read that ends at the top of the address space, where the sum has no
64-bit value (10_state.md R20, R25). Log 11. -/
opaque pastTop (draw : Nat) : BitVec 64

end Config
end Sys2Proof
end

