-- ==== Sys2Proof/Syntax.lean ====
section
/-! DEFINITION. The instructions: one constructor for each row of opcode_table.json. The twenty commands
carry the operands of 30_encoding.md R69 at their widths; the seven wire forms carry every bit of the
datagram that holds them (30_encoding.md R50 to R60). -/

namespace Sys2Proof

/-- The NetTLP transport header (30_encoding.md R50). -/
structure NettlpHdr where
  seq : BitVec 16
  timestamp : BitVec 32
deriving DecidableEq, Repr

/-- Bytes 1 to 7 of a Memory Request header (30_encoding.md R51). -/
structure ReqHead where
  tc : BitVec 8
  flags : BitVec 6
  length : BitVec 10
  reqid : BitVec 16
  tag : BitVec 8
  lastbe : BitVec 4
  firstbe : BitVec 4
deriving DecidableEq, Repr

/-- Bytes 1 to 11 of a Completion header, unnamed and reserved bits included (30_encoding.md R60). -/
structure CplHdr where
  tc : BitVec 8
  unnamed2 : BitVec 6
  length : BitVec 10
  cplid : BitVec 16
  status : BitVec 3
  unnamed6 : BitVec 1
  count : BitVec 12
  reqid : BitVec 16
  tag : BitVec 8
  reserved11 : BitVec 1
  lowaddr : BitVec 7
deriving DecidableEq, Repr

/-- An instruction: a command the host issues, or a datagram the transport delivers (log 1).
In a wire form, `rest` is what follows the header in the datagram. -/
inductive Instr where
  /-- `REQID_PACK`, R72. -/
  | reqidPack (bus dev fn : BitVec 64)
  /-- `CALC_LENGTH`, R73. -/
  | calcLength (addr count : BitVec 64)
  /-- `CALC_FIRSTBE`, R74. -/
  | calcFirstbe (addr count : BitVec 64)
  /-- `CALC_LASTBE`, R75. -/
  | calcLastbe (addr count : BitVec 64)
  /-- `CHUNK_LEN`, R100. -/
  | chunkLen (addr remaining mrrs : BitVec 64)
  /-- `PORT_SEL`, R103. -/
  | portSel (dir : BitVec 1) (tag : BitVec 8)
  /-- `ENC_NETTLP`, R78. -/
  | encNettlp
  /-- `ENC_MRD`, R79. -/
  | encMrd (reqid : BitVec 16) (tag : BitVec 8) (addr count : BitVec 64)
  /-- `ENC_MWR`, R80. -/
  | encMwr (reqid : BitVec 16) (tag : BitVec 8) (addr count : BitVec 64)
  /-- `DEC_CPL`, R89. -/
  | decCpl (buf : Bytes)
  /-- `CPL_LENGTH`, R90. -/
  | cplLength (buf : Bytes)
  /-- `CPL_COUNT`, R91. -/
  | cplCount (buf : Bytes)
  /-- `CPL_IS_LAST`, R92. -/
  | cplIsLast (buf : Bytes)
  /-- `CPL_SPAN`, R93. -/
  | cplSpan (buf : Bytes) (dgramLen space : BitVec 64)
  /-- `DEC_REQ`, R96. -/
  | decReq (buf : Bytes)
  /-- `REQ_SPAN`, R97. -/
  | reqSpan (buf : Bytes)
  /-- `OPEN`, R104. -/
  | openSession (reqid tag mrrs dir : BitVec 64)
  /-- `CLOSE`, R105. -/
  | closeSession
  /-- `DMA_READ`, R106. -/
  | dmaRead (addr len : BitVec 64)
  /-- `DMA_WRITE`, R108. -/
  | dmaWrite (addr len : BitVec 64)
  /-- `MRD32`, R82. -/
  | mrd32 (nt : NettlpHdr) (head : ReqHead) (address : BitVec 32) (rest : Bytes)
  /-- `MRD64`, R83. -/
  | mrd64 (nt : NettlpHdr) (head : ReqHead) (address : BitVec 64) (rest : Bytes)
  /-- `MWR32`, R84. -/
  | mwr32 (nt : NettlpHdr) (head : ReqHead) (address : BitVec 32) (rest : Bytes)
  /-- `MWR64`, R85. -/
  | mwr64 (nt : NettlpHdr) (head : ReqHead) (address : BitVec 64) (rest : Bytes)
  /-- `CPLD`, R94. -/
  | cpld (nt : NettlpHdr) (hdr : CplHdr) (rest : Bytes)
  /-- `CPL`, R95. -/
  | cpl (nt : NettlpHdr) (hdr : CplHdr) (rest : Bytes)
  /-- `NETTLP`, R50, R78: a transport header after which no whole completion header follows. -/
  | nettlp (nt : NettlpHdr) (rest : Bytes)
deriving DecidableEq, Repr

end Sys2Proof
end

