-- ==== Sys2Proof/WellFormed.lean ====
section
/-! DEFINITION. Which terms of `Instr` are instructions. Every operand of a command has its width in its
type (30_encoding.md R70: "An operand outside its stated width cannot be expressed"), so only the datagram
that is a bare transport header needs a check. -/

namespace Sys2Proof

/-- A `NETTLP` datagram holds fewer bytes after the transport header than a completion header has: with
12 or more the header's own form is the instruction (R65). -/
def Instr.wellFormed (i : Instr) : Bool :=
  match i with
  | .nettlp _ rest => decide (rest.length < Config.cplLen)
  | .reqidPack .. | .calcLength .. | .calcFirstbe .. | .calcLastbe .. | .chunkLen .. | .portSel ..
  | .encNettlp | .encMrd .. | .encMwr .. | .decCpl .. | .cplLength .. | .cplCount .. | .cplIsLast ..
  | .cplSpan .. | .decReq .. | .reqSpan .. | .openSession .. | .closeSession | .dmaRead .. | .dmaWrite ..
  | .mrd32 .. | .mrd64 .. | .mwr32 .. | .mwr64 .. | .cpld .. | .cpl .. => true

end Sys2Proof
end

