-- ==== Sys2Proof/Decode.lean ====
section
/-! DEFINITION. Byte order (00_scope.md R10, 20_memory.md R32), the decoder of the command port and of the
RX port, total on every byte string and refusing by name, and the encoder, written from the tables of
30_encoding.md. -/

namespace Sys2Proof

/-! ### Byte order -/

/-- `be16` of R10. -/
def be16 (v : BitVec 16) : Bytes := [v.extractLsb' 8 8, v.extractLsb' 0 8]

/-- `be32` of R10. -/
def be32 (v : BitVec 32) : Bytes :=
  [v.extractLsb' 24 8, v.extractLsb' 16 8, v.extractLsb' 8 8, v.extractLsb' 0 8]

/-- `be64` of R10. -/
def be64 (v : BitVec 64) : Bytes := be32 (v.extractLsb' 32 32) ++ be32 (v.extractLsb' 0 32)

/-- `s[i]` of R10; every use stands behind a length check. -/
def byteAt (s : Bytes) (i : Nat) : Byte := s.getD i 0#8

/-- `u16be(s, i)` of R10. -/
def u16be (s : Bytes) (i : Nat) : Nat := (byteAt s i).toNat * 256 + (byteAt s (i + 1)).toNat

/-- `u32be(s, i)` of R10. -/
def u32be (s : Bytes) (i : Nat) : Nat := u16be s i * 65536 + u16be s (i + 2)

/-- `u64be(s, i)` of R10. -/
def u64be (s : Bytes) (i : Nat) : Nat := u32be s i * 4294967296 + u32be s (i + 4)

/-! ### What the decoder answers -/

/-- The port an instruction arrives on (00_scope.md R6). -/
inductive Port where
  /-- The command port. -/
  | command
  /-- The RX port. -/
  | rx
deriving DecidableEq, Repr

/-- Why the decoder refuses a byte string. -/
inductive DecodeError where
  /-- No op byte at all. -/
  | noOpcode
  /-- An op byte outside the map of R69 (R70). -/
  | badOpcode (op : Byte)
  /-- The bytes after the op byte are not the operands of this command (log 2, log 4). -/
  | badOperands (op : Byte)
  /-- A datagram shorter than the transport header. -/
  | noTransportHeader
  /-- Byte 0 of the header names no wire form (R67). -/
  | badFmtType (fmtType : Byte)
  /-- A 64-bit request header cut short (R66). -/
  | cutRequest (fmtType : Byte)
deriving DecidableEq, Repr

/-! ### The command port (30_encoding.md R69)

A command is presented as its op byte and then its operands in the order of R69, each big-endian in whole
bytes, a byte string last and taking all that is left (log 2). -/

/-- The bytes of fixed width after each op byte: the operand widths of R69 in whole bytes. -/
def operandBytes (op : Byte) : Nat :=
  match op.toNat with
  | 0x01 => 24
  | 0x02 => 16
  | 0x03 => 16
  | 0x04 => 16
  | 0x05 => 24
  | 0x06 => 2
  | 0x11 => 19
  | 0x12 => 19
  | 0x24 => 16
  | 0x30 => 32
  | 0x32 => 16
  | 0x33 => 16
  | _ => 0

/-- The 16-bit operand at byte `i`. -/
def operand16 (a : Bytes) (i : Nat) : BitVec 16 := BitVec.ofNat 16 (u16be a i)

/-- The 64-bit operand at byte `i`. -/
def operand64 (a : Bytes) (i : Nat) : BitVec 64 := BitVec.ofNat 64 (u64be a i)

/-- `i` if the operand bytes `a` are as many as R69 gives command `op`, a refusal otherwise. -/
def withExactly (op : Byte) (a : Bytes) (i : Instr) : Except DecodeError Instr :=
  if a.length = operandBytes op then .ok i else .error (.badOperands op)

/-- The command with op byte `op` and operand bytes `a`, by the opcode map of R69. -/
def decodeOperands (op : Byte) (a : Bytes) : Except DecodeError Instr :=
  match op.toNat with
  | 0x01 => withExactly op a (.reqidPack (operand64 a 0) (operand64 a 8) (operand64 a 16))
  | 0x02 => withExactly op a (.calcLength (operand64 a 0) (operand64 a 8))
  | 0x03 => withExactly op a (.calcFirstbe (operand64 a 0) (operand64 a 8))
  | 0x04 => withExactly op a (.calcLastbe (operand64 a 0) (operand64 a 8))
  | 0x05 => withExactly op a (.chunkLen (operand64 a 0) (operand64 a 8) (operand64 a 16))
  | 0x06 =>
    if (byteAt a 0).toNat < 2 then withExactly op a (.portSel ((byteAt a 0).extractLsb' 0 1) (byteAt a 1))
    else .error (.badOperands op)
  | 0x10 => withExactly op a .encNettlp
  | 0x11 => withExactly op a (.encMrd (operand16 a 0) (byteAt a 2) (operand64 a 3) (operand64 a 11))
  | 0x12 => withExactly op a (.encMwr (operand16 a 0) (byteAt a 2) (operand64 a 3) (operand64 a 11))
  | 0x20 => .ok (.decCpl a)
  | 0x21 => .ok (.cplLength a)
  | 0x22 => .ok (.cplCount a)
  | 0x23 => .ok (.cplIsLast a)
  | 0x24 =>
    if a.length < 16 then .error (.badOperands op)
    else .ok (.cplSpan (a.drop 16) (operand64 a 0) (operand64 a 8))
  | 0x28 => .ok (.decReq a)
  | 0x29 => .ok (.reqSpan a)
  | 0x30 =>
    withExactly op a (.openSession (operand64 a 0) (operand64 a 8) (operand64 a 16) (operand64 a 24))
  | 0x31 => withExactly op a .closeSession
  | 0x32 => withExactly op a (.dmaRead (operand64 a 0) (operand64 a 8))
  | 0x33 => withExactly op a (.dmaWrite (operand64 a 0) (operand64 a 8))
  | _ => .error (.badOpcode op)

/-- The command that the byte string presents. -/
def decodeCommand (image : Bytes) : Except DecodeError Instr :=
  match image with
  | [] => .error .noOpcode
  | op :: a => decodeOperands op a

/-! ### The RX port (30_encoding.md R49 to R67) -/

/-- The transport header at the start of a datagram (R50). -/
def decodeNettlp (d : Bytes) : NettlpHdr where
  seq := byteAt d 0 ++ byteAt d 1
  timestamp := byteAt d 2 ++ byteAt d 3 ++ byteAt d 4 ++ byteAt d 5

/-- Bytes 1 to 7 of a request header `h` (R51). -/
def decodeReqHead (h : Bytes) : ReqHead where
  tc := byteAt h 1
  flags := (byteAt h 2).extractLsb' 2 6
  length := (byteAt h 2).extractLsb' 0 2 ++ byteAt h 3
  reqid := byteAt h 4 ++ byteAt h 5
  tag := byteAt h 6
  lastbe := (byteAt h 7).extractLsb' 4 4
  firstbe := (byteAt h 7).extractLsb' 0 4

/-- Bytes 8 to 11 of a `REQ3DW` header (R51). -/
def decodeAddress32 (h : Bytes) : BitVec 32 := byteAt h 8 ++ byteAt h 9 ++ byteAt h 10 ++ byteAt h 11

/-- Bytes 8 to 15 of a `REQ4DW` header (R52). -/
def decodeAddress64 (h : Bytes) : BitVec 64 :=
  byteAt h 8 ++ byteAt h 9 ++ byteAt h 10 ++ byteAt h 11 ++
    byteAt h 12 ++ byteAt h 13 ++ byteAt h 14 ++ byteAt h 15

/-- Bytes 1 to 11 of a completion header `h` (R60). -/
def decodeCplHdr (h : Bytes) : CplHdr where
  tc := byteAt h 1
  unnamed2 := (byteAt h 2).extractLsb' 2 6
  length := (byteAt h 2).extractLsb' 0 2 ++ byteAt h 3
  cplid := byteAt h 4 ++ byteAt h 5
  status := (byteAt h 6).extractLsb' 5 3
  unnamed6 := (byteAt h 6).extractLsb' 4 1
  count := (byteAt h 6).extractLsb' 0 4 ++ byteAt h 7
  reqid := byteAt h 8 ++ byteAt h 9
  tag := byteAt h 10
  reserved11 := (byteAt h 11).extractLsb' 7 1
  lowaddr := (byteAt h 11).extractLsb' 0 7

/-- The wire form of the header `h` of at least 12 bytes that follows transport header `nt`, by its
byte 0 (R53, R61, R66, R67). -/
def decodeHeader (nt : NettlpHdr) (h : Bytes) : Except DecodeError Instr :=
  match (byteAt h 0).toNat with
  | 0x4A => .ok (.cpld nt (decodeCplHdr h) (h.drop 12))
  | 0x0A => .ok (.cpl nt (decodeCplHdr h) (h.drop 12))
  | 0x00 => .ok (.mrd32 nt (decodeReqHead h) (decodeAddress32 h) (h.drop 12))
  | 0x40 => .ok (.mwr32 nt (decodeReqHead h) (decodeAddress32 h) (h.drop 12))
  | 0x20 =>
    if h.length < 16 then .error (.cutRequest (byteAt h 0))
    else .ok (.mrd64 nt (decodeReqHead h) (decodeAddress64 h) (h.drop 16))
  | 0x60 =>
    if h.length < 16 then .error (.cutRequest (byteAt h 0))
    else .ok (.mwr64 nt (decodeReqHead h) (decodeAddress64 h) (h.drop 16))
  | _ => .error (.badFmtType (byteAt h 0))

/-- The wire form that the datagram holds (R65). -/
def decodeDatagram (d : Bytes) : Except DecodeError Instr :=
  if d.length < Config.nettlpLen then .error .noTransportHeader
  else if d.length < Config.rxMin then .ok (.nettlp (decodeNettlp d) (d.drop Config.nettlpLen))
  else decodeHeader (decodeNettlp d) (d.drop Config.nettlpLen)

/-- The decoder of both ports. -/
def decode (port : Port) (bytes : Bytes) : Except DecodeError Instr :=
  match port with
  | .command => decodeCommand bytes
  | .rx => decodeDatagram bytes

/-! ### The encoder -/

/-- The six bytes of a transport header, R50. -/
def encodeNettlp (nt : NettlpHdr) : Bytes := be16 nt.seq ++ be32 nt.timestamp

/-- Bytes 0 to 7 of a request header, R51. -/
def encodeReqHead (fmtType : Byte) (h : ReqHead) : Bytes :=
  [fmtType, h.tc, h.flags ++ h.length.extractLsb' 8 2, h.length.extractLsb' 0 8] ++ be16 h.reqid ++
    [h.tag, h.lastbe ++ h.firstbe]

/-- The twelve bytes of a completion header, R60. -/
def encodeCplHdr (fmtType : Byte) (h : CplHdr) : Bytes :=
  [fmtType, h.tc, h.unnamed2 ++ h.length.extractLsb' 8 2, h.length.extractLsb' 0 8] ++ be16 h.cplid ++
    [h.status ++ h.unnamed6 ++ h.count.extractLsb' 8 4, h.count.extractLsb' 0 8] ++ be16 h.reqid ++
    [h.tag, h.reserved11 ++ h.lowaddr]

/-- The port on which the instruction arrives. -/
def Instr.port (i : Instr) : Port :=
  match i with
  | .reqidPack .. | .calcLength .. | .calcFirstbe .. | .calcLastbe .. | .chunkLen .. | .portSel ..
  | .encNettlp | .encMrd .. | .encMwr .. | .decCpl .. | .cplLength .. | .cplCount .. | .cplIsLast ..
  | .cplSpan .. | .decReq .. | .reqSpan .. | .openSession .. | .closeSession | .dmaRead ..
  | .dmaWrite .. => .command
  | .mrd32 .. | .mrd64 .. | .mwr32 .. | .mwr64 .. | .cpld .. | .cpl .. | .nettlp .. => .rx

/-- The byte string that presents the instruction on its port: R69 for a command (log 2), R50 to R61 and
R65 for a datagram. -/
def encode (i : Instr) : Bytes :=
  match i with
  | .reqidPack bus dev fn => 0x01#8 :: (be64 bus ++ be64 dev ++ be64 fn)
  | .calcLength addr count => 0x02#8 :: (be64 addr ++ be64 count)
  | .calcFirstbe addr count => 0x03#8 :: (be64 addr ++ be64 count)
  | .calcLastbe addr count => 0x04#8 :: (be64 addr ++ be64 count)
  | .chunkLen addr remaining mrrs => 0x05#8 :: (be64 addr ++ be64 remaining ++ be64 mrrs)
  | .portSel dir tag => [0x06#8, dir.setWidth 8, tag]
  | .encNettlp => [0x10#8]
  | .encMrd reqid tag addr count => 0x11#8 :: (be16 reqid ++ [tag] ++ be64 addr ++ be64 count)
  | .encMwr reqid tag addr count => 0x12#8 :: (be16 reqid ++ [tag] ++ be64 addr ++ be64 count)
  | .decCpl buf => 0x20#8 :: buf
  | .cplLength buf => 0x21#8 :: buf
  | .cplCount buf => 0x22#8 :: buf
  | .cplIsLast buf => 0x23#8 :: buf
  | .cplSpan buf dgramLen space => 0x24#8 :: (be64 dgramLen ++ be64 space ++ buf)
  | .decReq buf => 0x28#8 :: buf
  | .reqSpan buf => 0x29#8 :: buf
  | .openSession reqid tag mrrs dir => 0x30#8 :: (be64 reqid ++ be64 tag ++ be64 mrrs ++ be64 dir)
  | .closeSession => [0x31#8]
  | .dmaRead addr len => 0x32#8 :: (be64 addr ++ be64 len)
  | .dmaWrite addr len => 0x33#8 :: (be64 addr ++ be64 len)
  | .mrd32 nt head address rest => encodeNettlp nt ++ encodeReqHead 0x00#8 head ++ be32 address ++ rest
  | .mrd64 nt head address rest => encodeNettlp nt ++ encodeReqHead 0x20#8 head ++ be64 address ++ rest
  | .mwr32 nt head address rest => encodeNettlp nt ++ encodeReqHead 0x40#8 head ++ be32 address ++ rest
  | .mwr64 nt head address rest => encodeNettlp nt ++ encodeReqHead 0x60#8 head ++ be64 address ++ rest
  | .cpld nt hdr rest => encodeNettlp nt ++ encodeCplHdr 0x4A#8 hdr ++ rest
  | .cpl nt hdr rest => encodeNettlp nt ++ encodeCplHdr 0x0A#8 hdr ++ rest
  | .nettlp nt rest => encodeNettlp nt ++ rest

/-! ### Words of opcode_table.json -/

/-- The `n` bytes of the number `w`, the first byte the most significant, as the table numbers the bits of
a header (the table's note: "read as one big-endian number, byte 0 most significant"). Log 3. -/
def tableBytes (n w : Nat) : Bytes :=
  (List.range n).map fun i => BitVec.ofNat 8 (w >>> (8 * (n - 1 - i)))

/-- The command with op byte `w` whose operands are all zero. -/
def tableCommand (w : Nat) : Bytes := BitVec.ofNat 8 w :: zeros (operandBytes (BitVec.ofNat 8 w))

/-- The datagram that a wire form of `nbits` bits stands for: the transport header by itself when the row
is the six bytes of `NETTLP`, a header behind six zero bytes otherwise (R65). Log 3. -/
def tableDatagram (nbits w : Nat) : Bytes :=
  if nbits = 48 then tableBytes 6 w else zeros Config.nettlpLen ++ tableBytes (nbits / 8) w

/-- The instruction the decoder reads from a row's word: rows of 8 bits are commands, longer rows are wire
forms. -/
def decodeTableWord (nbits w : Nat) : Option Instr :=
  (if nbits ≤ 8 then decodeCommand (tableCommand w) else decodeDatagram (tableDatagram nbits w)).toOption

end Sys2Proof
end

