-- ==== Sys2Proof/Machine/State.lean ====
section
/-! DEFINITION. The state of one block instance (10_state.md), what passes over its ports, and the state
after reset. -/

namespace Sys2Proof.Machine

/-! ### Responses (30_encoding.md R69, 60_exceptions.md R124) -/

/-- The nine errors of R124, in its order. -/
inductive ErrKind where
  /-- `ErrIo`, R125. -/
  | io
  /-- `ErrTimeout`, R126. -/
  | timeout
  /-- `ErrInvalidAddress`, R127. -/
  | invalidAddress
  /-- `ErrInvalidData`, R128. -/
  | invalidData
  /-- `ErrInvalidBdf`, R129: reserved, nothing raises it. -/
  | invalidBdf
  /-- `ErrPrecondition`, R130. -/
  | precondition
  /-- `ErrRange`, R131. -/
  | range
  /-- `ErrState`, R132. -/
  | state
  /-- `ErrIllegalOp`, R133. -/
  | illegalOp
deriving DecidableEq, Repr

/-- The fifteen causes of R124, in its order. -/
inductive Cause where
  | none
  | tooShort
  | badFmtType
  | badStatus
  | spanExceedsDatagram
  | spanExceedsDest
  | lengthUnderflow
  | badByteEnable
  | badOperand
  | addrOverflow
  | lengthOverflow
  | badAlignment
  | badState
  | badOpcode
  | bufferTooSmall
deriving DecidableEq, Repr

/-- The content of an error response (60_exceptions.md R123). -/
structure Err where
  kind : ErrKind
  cause : Cause
  raw0 : BitVec 64
  raw1 : BitVec 64
deriving DecidableEq, Repr

/-- The nine fields `DEC_CPL` answers (42_header_decoder.md R88). -/
structure CplFields where
  fmtType : BitVec 8
  tc : BitVec 8
  length : BitVec 10
  cplid : BitVec 16
  status : BitVec 3
  count : BitVec 12
  reqid : BitVec 16
  tag : BitVec 8
  lowaddr : BitVec 7
deriving DecidableEq, Repr

/-- The eleven fields `DEC_REQ` answers (42_header_decoder.md R96). -/
structure ReqFields where
  fmtType : BitVec 8
  write : Bool
  is64 : Bool
  tc : BitVec 8
  flags : BitVec 6
  length : BitVec 10
  reqid : BitVec 16
  tag : BitVec 8
  lastbe : BitVec 4
  firstbe : BitVec 4
  address : BitVec 64
deriving DecidableEq, Repr

/-- The record of results of each command, at the widths of 30_encoding.md R69. -/
inductive Result where
  /-- No result: `CLOSE`, `DMA_READ`, `DMA_WRITE`. -/
  | done
  | reqid (reqid : BitVec 16)
  | len (len : BitVec 63)
  | be (be : BitVec 4)
  | chunk (n : BitVec 13)
  | port (port : BitVec 16)
  | hdr (hdr : Bytes)
  | cplFields (f : CplFields)
  | length (length : BitVec 10)
  | count (count : BitVec 12)
  | last (last : Bool)
  | span (start : BitVec 64) (size : BitVec 13)
  | reqFields (f : ReqFields)
  | range (first : BitVec 64) (count : BitVec 13)
deriving DecidableEq, Repr

/-- A response: `status = OK` and the results, or an error (00_scope.md R7, 60_exceptions.md R123). The
fields R69 calls meaningless in each case are left out. -/
inductive Response where
  | ok (r : Result)
  | error (e : Err)
deriving DecidableEq, Repr

/-! ### What passes over the other ports -/

/-- A step of the host (00_scope.md R6, 10_state.md R23). -/
inductive HostAct where
  /-- A command, as its bytes on the command port. -/
  | command (image : Bytes)
  /-- The host writes `bytes` into DST at `offset`. -/
  | writeDst (offset : Nat) (bytes : Bytes)
  /-- The host writes `bytes` into SRC at `offset`. -/
  | writeSrc (offset : Nat) (bytes : Bytes)
deriving DecidableEq, Repr

/-- What the block asks of the transport, with the answer (44_dma_session.md R104, R105, R112). -/
inductive TransportAct where
  /-- `transport_open(port)`. -/
  | opened (port : Nat) (answer : TxAnswer)
  /-- `transport_close()`. -/
  | closed
  /-- `emit TX(d)`: the attempt, whatever the answer. -/
  | sent (d : Bytes) (answer : TxAnswer)
deriving DecidableEq, Repr

/-- The model's own record of the ports: inputs still to come and outputs already made (log 5, 6, 16, 20, 24). -/
structure Ports where
  /-- What the host will do next, in order. -/
  host : List HostAct
  /-- What the transport will deliver next, in order (10_state.md R26); free values after that. CLOSE, OPEN
  and the reset step leave it as it is (DESIGN CHOICE, log 16, log 25). -/
  rx : List RxEvent
  /-- What the transport will answer next, in order; free values after that. -/
  txAnswers : List TxAnswer
  /-- The reset input (70_reset_and_hazards.md R142). Who asserts it, and when, the spec leaves open: it is set
  from outside the machine and no step asserts it (DESIGN CHOICE, log 26). -/
  resetPin : Bool
  /-- The responses given, oldest first. -/
  responses : List Response
  /-- What was asked of the transport, oldest first. -/
  transport : List TransportAct
deriving DecidableEq, Repr

/-! ### Registers and buffers -/

/-- `DmaDirection`, 10_state.md R18. -/
inductive DmaDirection where
  /-- Encoded 0. -/
  | issuedByCore
  /-- Encoded 1. -/
  | issuedByAdapter
deriving DecidableEq, Repr

/-- The session registers `SESS.*` (10_state.md R14 to R18). -/
structure Session where
  isOpen : Bool
  reqid : BitVec 16
  tag : BitVec 8
  mrrs : BitVec 64
  dir : DmaDirection
deriving DecidableEq, Repr

/-- `SEQ.state`, 10_state.md R19. -/
inductive SeqState where
  /-- Encoded 0. -/
  | idle
  /-- Encoded 1. -/
  | rdRecv
deriving DecidableEq, Repr

/-- The sequencer registers `SEQ.*` (10_state.md R19 to R22). -/
structure Sequencer where
  state : SeqState
  p : BitVec 64
  len : BitVec 64
  received : BitVec 64
  chunk : BitVec 13
  cursor : BitVec 13
deriving DecidableEq, Repr

/-- The bytes that have been written, by offset, offsets strictly rising. A byte that nothing has
written is not listed; it reads as a free byte (log 7). -/
abbrev Memory := List Host.Cell

/-- A local buffer (10_state.md R23): its capacity, the draw its unwritten bytes come from, and the bytes
written. -/
structure Buffer where
  size : Nat
  epoch : Nat
  mem : Memory
deriving DecidableEq, Repr

/-- The state of one block instance (10_state.md R13), with the number of free values drawn so far and the
ports. -/
structure State where
  sess : Session
  seq : Sequencer
  dst : Buffer
  src : Buffer
  draws : Nat
  ports : Ports
deriving DecidableEq, Repr

/-! ### Reset -/

/-- The session registers after reset and after `CLOSE` (10_state.md R28, 44_dma_session.md R105). -/
def Session.reset : Session where
  isOpen := false
  reqid := 0#16
  tag := 0#8
  mrrs := 0#64
  dir := .issuedByCore

/-- The sequencer registers after reset (10_state.md R28). -/
def Sequencer.reset : Sequencer where
  state := .idle
  p := 0#64
  len := 0#64
  received := 0#64
  chunk := 0#13
  cursor := 0#13

/-- Ports on which nothing has been presented and nothing has left. -/
def Ports.silent : Ports where
  host := []
  rx := []
  txAnswers := []
  resetPin := false
  responses := []
  transport := []

/-- The state after reset (10_state.md R28) of a block with the given capacities: every byte of DST is a
byte of draw 0 and every byte of SRC one of draw 1. -/
def State.resetSized (dstSize srcSize : Nat) : State where
  sess := .reset
  seq := .reset
  dst := { size := dstSize, epoch := 0, mem := [] }
  src := { size := srcSize, epoch := 1, mem := [] }
  draws := 2
  ports := .silent

/-- The state after reset of the block of 95_test_vectors.md section 3, `DST_SIZE = SRC_SIZE = 4096`
(DESIGN CHOICE, log 9: the spec leaves the sizes open). -/
def State.reset : State := .resetSized 4096 4096

/-! ### How a step can stop -/

/-- Why a step stops with a fault. -/
inductive Fault where
  /-- Raised by `step` when the host writes a byte past the end of DST or SRC, an offset 10_state.md R23
  says the buffer does not have. Safe: the machine stops. -/
  | hostOutsideBuffer
  /-- Raised by a receive step or by `fail` when it would write DST past its end. No run from reset reaches
  it (the invariant of Sys2Proof/Safety.lean excludes it). Safe: the machine stops. -/
  | blockOutsideBuffer
  /-- Raised by `DMA_WRITE` when a session is open with `SESS.mrrs = 0`, where the loop of
  44_dma_session.md R108 never ends. `OPEN` refuses that value, so no run from reset reaches it. Safe: the
  machine stops. -/
  | endlessWrite
deriving DecidableEq, Repr

/-- Why a step is refused. -/
inductive Refusal where
  /-- Raised by an arm of `exec` whose instruction has no meaning yet; no arm uses it. Safe. -/
  | notModelled (mnemonic : String)
  /-- Raised by `step` when the host presents a byte string that is no command: no op byte, or operand
  bytes that are not those of its command (30_encoding.md R70: such an operand cannot be expressed). Safe:
  the machine stops. -/
  | notACommand
deriving DecidableEq, Repr

end Sys2Proof.Machine
end

