-- ==== Sys2Proof/Machine/Ops.lean ====
section
/-! DEFINITION. The shared operations: buffer memory, free values, the transport's answers, responses and
the error response, which is this machine's exception (60_exceptions.md R123, R135). -/

namespace Sys2Proof.Machine

/-- What a step or a meaning answers. -/
abbrev Outcome := Host.Outcome State Fault Refusal

/-- `k` on the next state, a stop otherwise. -/
def andThen (o : Outcome) (k : State → Outcome) : Outcome :=
  match o with
  | .next s => k s
  | .fault f => .fault f
  | .refused r => .refused r

/-! ### Buffer memory (10_state.md R23, 00_scope.md R11) -/

/-- The byte written at `a`, if one was. -/
def Memory.read? (m : Memory) (a : Nat) : Option Byte :=
  match m with
  | [] => none
  | (k, b) :: rest => if k = a then some b else Memory.read? rest a

/-- The cells of the byte string `bs` from address `a` on. -/
def Memory.cells (a : Nat) (bs : Bytes) : Memory :=
  match bs with
  | [] => []
  | b :: rest => (a, b) :: Memory.cells (a + 1) rest

/-- `m` with the byte string `bs` written from address `a` on. -/
def Memory.write (m : Memory) (a : Nat) (bs : Bytes) : Memory :=
  m.filter (fun c => decide (c.1 < a)) ++ Memory.cells a bs ++
    m.filter (fun c => decide (a + bs.length ≤ c.1))

/-- Whether the addresses rise strictly, none below `low`. -/
def Memory.risingFrom (low : Nat) (m : Memory) : Bool :=
  match m with
  | [] => true
  | (k, _) :: rest => decide (low ≤ k) && Memory.risingFrom (k + 1) rest

/-- The canonical form: addresses strictly rising. An unlisted address has no value of its own, so no
entry can equal it. -/
def Memory.wf (m : Memory) : Bool := Memory.risingFrom 0 m

/-- Canonical, with every address inside the buffer. -/
def Buffer.wf (b : Buffer) : Bool := Memory.wf b.mem && b.mem.all (fun c => decide (c.1 < b.size))

/-- The byte at offset `a`: the byte written there, a free byte if none was (log 7). -/
def Buffer.byte (b : Buffer) (a : Nat) : Byte :=
  (Memory.read? b.mem a).getD (Config.drawnByte b.epoch a)

/-- `MemRead(S, a, n)` of R11. -/
def Buffer.read (b : Buffer) (a n : Nat) : Bytes := (List.range n).map fun i => b.byte (a + i)

/-- Whether the `n` bytes from offset `a` on exist; no byte is asked for when `n = 0`. -/
def Buffer.holds (b : Buffer) (a n : Nat) : Bool := n == 0 || decide (a + n ≤ b.size)

/-- `MemWrite(S, a, n, v)` of R11. -/
def Buffer.write (b : Buffer) (a : Nat) (bs : Bytes) : Buffer := { b with mem := Memory.write b.mem a bs }

/-- The block writes `bs` into DST at offset `a`. -/
def storeDst (a : Nat) (bs : Bytes) (s : State) : Outcome :=
  if s.dst.holds a bs.length then .next { s with dst := s.dst.write a bs } else .fault .blockOutsideBuffer

/-! ### Free values -/

/-- `DST[0 .. n) <- draw`: a fresh draw of `n` bytes (00_scope.md R11, log 8). -/
def drawDst (n : Nat) (s : State) : Outcome :=
  if s.dst.holds 0 n then
    .next { s with
      dst := s.dst.write 0 ((List.range n).map (Config.drawnByte s.draws))
      draws := s.draws + 1 }
  else .fault .blockOutsideBuffer

/-- The transport's next answer, and the state after it: the next of the inputs, a free value if there is
none (44_dma_session.md R112, log 6). -/
def transportAnswer (s : State) : TxAnswer × State :=
  match s.ports.txAnswers with
  | a :: rest => (a, { s with ports.txAnswers := rest })
  | [] => (Config.txAnswer s.draws, { s with draws := s.draws + 1 })

/-- One receive: the event that answers it, and the state after it, with the event taken from the transport.
The next of the inputs, a free value if there is none, so that every receive is answered by exactly one event
(60_exceptions.md R139, log 24). -/
def receive (s : State) : RxEvent × State :=
  match s.ports.rx with
  | event :: rest => (event, { s with ports.rx := rest })
  | [] => (Config.rxEvent s.draws, { s with draws := s.draws + 1 })

/-- Add to the record of what was asked of the transport. -/
def record (t : TransportAct) (s : State) : State :=
  { s with ports.transport := s.ports.transport ++ [t] }

/-- `emit TX(d)` of R11: the attempt is recorded whatever the answer (R112). -/
def emit (d : Bytes) (s : State) : TxAnswer × State :=
  ((transportAnswer s).1, record (.sent d (transportAnswer s).1) (transportAnswer s).2)

/-- `transport_open(port)` of R104. -/
def transportOpen (port : Nat) (s : State) : TxAnswer × State :=
  ((transportAnswer s).1, record (.opened port (transportAnswer s).1) (transportAnswer s).2)

/-! ### Responses and the exception -/

/-- Put a response on the response port. -/
def respond (r : Response) (s : State) : State :=
  { s with ports.responses := s.ports.responses ++ [r] }

/-- The error with these raw values, reduced mod `2^64` (60_exceptions.md R123). -/
def mkErr (kind : ErrKind) (cause : Cause) (raw0 raw1 : Nat) : Err where
  kind := kind
  cause := cause
  raw0 := BitVec.ofNat 64 raw0
  raw1 := BitVec.ofNat 64 raw1

/-- `raise E`, the machine's exception: the step ends with the error response and nothing else changes.
There is no saved address, no cause register and no mode (60_exceptions.md R123, R135), and so no return
from it (R136). -/
def raise (e : Err) (s : State) : State := respond (.error e) s

/-- `fail(E)`, the exception inside a read: IDLE, DST[0 .. SEQ.len) drawn afresh, the error response; the
other registers keep their values (45_completion_reassembly.md R118, 60_exceptions.md R135 (e)). -/
def fail (e : Err) (s : State) : Outcome :=
  andThen (drawDst s.seq.len.toNat s) fun t => .next (raise e { t with seq.state := .idle })

/-- A command's answer: its results, or the error it raises. -/
def answer (a : Except Err Result) (s : State) : Outcome :=
  match a with
  | .ok r => .next (respond (.ok r) s)
  | .error e => .next (raise e s)

/-! ### Which port is ready -/

/-- The command port is ready only in IDLE; in RD_RECV the command is held and nothing happens
(44_dma_session.md R110, log 17). -/
def onCommand (s : State) (o : Outcome) : Outcome :=
  match s.seq.state with
  | .idle => o
  | .rdRecv => .next s

/-- An event is accepted only in RD_RECV; in IDLE it stays with the transport and nothing happens
(45_completion_reassembly.md R113, R121, log 17). -/
def onReceive (s : State) (o : Outcome) : Outcome :=
  match s.seq.state with
  | .rdRecv => o
  | .idle => .next s

/-! ### The other inputs -/

/-- The op byte is not in the opcode map (30_encoding.md R70, 60_exceptions.md R133). -/
def illegalOp (op : Byte) (s : State) : State := raise (mkErr .illegalOp .badOpcode op.toNat 0) s

/-- The host writes DST (10_state.md R23, log 15). -/
def hostWriteDst (a : Nat) (bs : Bytes) (s : State) : Outcome :=
  if s.dst.holds a bs.length then .next { s with dst := s.dst.write a bs } else .fault .hostOutsideBuffer

/-- The host writes SRC (10_state.md R23, log 15). -/
def hostWriteSrc (a : Nat) (bs : Bytes) (s : State) : Outcome :=
  if s.src.holds a bs.length then .next { s with src := s.src.write a bs } else .fault .hostOutsideBuffer

/-- The reset step (70_reset_and_hazards.md R142, R143): the registers of R28, both buffers unspecified
afresh, no response, nothing asked of the transport. The inputs still to come stay (log 16); the reset input is
taken away until the outside asserts it again (log 26). -/
def resetStep (s : State) : State :=
  { sess := .reset
    seq := .reset
    dst := { size := s.dst.size, epoch := s.draws, mem := [] }
    src := { size := s.src.size, epoch := s.draws + 1, mem := [] }
    draws := s.draws + 2
    ports := { s.ports with resetPin := false } }

end Sys2Proof.Machine
end

