-- ==== Sys2Proof/Machine/Flags.lean ====
section
/-! DEFINITION. The block has no status flags (40_byte_enable_alignment.md R77); what a response carries in
their place is a status code and a cause code, here with their numbers (60_exceptions.md R124), and the
encodings of the two one-bit registers (10_state.md R18, R19). -/

namespace Sys2Proof.Machine

/-- The status code of an error, R124. -/
def ErrKind.code (k : ErrKind) : BitVec 4 :=
  match k with
  | .io => 1
  | .timeout => 2
  | .invalidAddress => 3
  | .invalidData => 4
  | .invalidBdf => 5
  | .precondition => 6
  | .range => 7
  | .state => 8
  | .illegalOp => 9

/-- The cause code, R124. -/
def Cause.code (c : Cause) : BitVec 4 :=
  match c with
  | .none => 0
  | .tooShort => 1
  | .badFmtType => 2
  | .badStatus => 3
  | .spanExceedsDatagram => 4
  | .spanExceedsDest => 5
  | .lengthUnderflow => 6
  | .badByteEnable => 7
  | .badOperand => 8
  | .addrOverflow => 9
  | .lengthOverflow => 10
  | .badAlignment => 11
  | .badState => 12
  | .badOpcode => 13
  | .bufferTooSmall => 14

/-- The `status` field of a response, 0 for `OK` (R124). -/
def Response.status (r : Response) : BitVec 4 :=
  match r with
  | .ok _ => 0
  | .error e => e.kind.code

/-- The `cause` field of a response that has one (R69: meaningful only when `status ≠ 0`). -/
def Response.cause? (r : Response) : Option (BitVec 4) :=
  match r with
  | .ok _ => none
  | .error e => some e.cause.code

/-- `SESS.dir` as its bit, R18. -/
def DmaDirection.bit (d : DmaDirection) : BitVec 1 :=
  match d with
  | .issuedByCore => 0
  | .issuedByAdapter => 1

/-- The direction with this bit, R18. -/
def directionOf (b : BitVec 1) : DmaDirection := if b = 0#1 then .issuedByCore else .issuedByAdapter

/-- `SEQ.state` as its bit, R19. -/
def SeqState.bit (q : SeqState) : BitVec 1 :=
  match q with
  | .idle => 0
  | .rdRecv => 1

/-- `SESS.open` as the number an error reports, 1 or 0 (R14, R132). -/
def Session.openBit (q : Session) : Nat := if q.isOpen then 1 else 0

end Sys2Proof.Machine
end

