-- ==== Sys2Proof/Machine/Operands.lean ====
section
/-! DEFINITION. The arithmetic on operands that the commands and the sequencers share: alignment,
byte enables, chunk length, port number (00_scope.md R9, 40_byte_enable_alignment.md, 43_chunking.md). Values
are natural numbers and nothing wraps (R9, R77). -/

namespace Sys2Proof.Machine

/-- `x & 3` of R9. -/
def lowTwo (x : Nat) : Nat := x % 4

/-- `align4(a) = a - (a & 3)`, R9. -/
def align4 (a : Nat) : Nat := a - lowTwo a

/-- `ceil4(x) = (x + 3) >> 2`, R9. -/
def ceil4 (x : Nat) : Nat := (x + 3) >>> 2

/-- `lowmask(k)`: the nibble with its low `k` bits set, R9. -/
def lowmask (k : Nat) : BitVec 4 := BitVec.ofNat 4 (2 ^ k - 1)

/-- The DW length of the transfer `[addr, addr + count)`, the formula of R73. -/
def dwLength (addr count : Nat) : Nat := ceil4 (addr + count - align4 addr)

/-- The first byte-enable nibble, the formula of R74. -/
def firstbe (addr count : Nat) : BitVec 4 :=
  (if count < 4 then lowmask count else 0xF#4) <<< lowTwo addr

/-- The last byte-enable nibble, the formula of R75. -/
def lastbe (addr count : Nat) : BitVec 4 :=
  if dwLength addr count ≤ 1 then 0#4
  else if lowTwo (addr + count) = 0 then 0xF#4
  else lowmask (lowTwo (addr + count))

/-- The largest legal byte length of the next request, the formula of R100. -/
def chunkLength (addr remaining mrrs : Nat) : Nat :=
  min remaining (min mrrs (Config.page - addr % Config.page))

/-- The UDP port of a direction and a tag, the formula of R103. -/
def portNumber (dir : DmaDirection) (tag : Nat) : Nat :=
  match dir with
  | .issuedByCore => Config.portBaseCore + tag
  | .issuedByAdapter => Config.portBaseAdapter + tag % 16

/-- `ctz(x)` of R97: the index of the lowest set bit of a non-zero nibble. -/
def ctz4 (x : BitVec 4) : Nat :=
  if x.getLsbD 0 then 0 else if x.getLsbD 1 then 1 else if x.getLsbD 2 then 2 else 3

/-- `popcount(x)` of R97. -/
def popcount4 (x : BitVec 4) : Nat :=
  (x.getLsbD 0).toNat + (x.getLsbD 1).toNat + (x.getLsbD 2).toNat + (x.getLsbD 3).toNat

/-- `s[a .. a + n)` of R10. -/
def slice (s : Bytes) (a n : Nat) : Bytes := (s.drop a).take n

/-- The refusal `AddrOverflow` of a range that ends past `2^64` (R73, R81, R106, R108). -/
def addrOverflow (addr count : Nat) : Err := mkErr .range .addrOverflow addr count

/-- The refusal `TooShort` (60_exceptions.md R124): the length found, the length needed. -/
def tooShort (found needed : Nat) : Err := mkErr .invalidData .tooShort found needed

/-- The refusal `BadState`, with `SESS.open` as found (R132). -/
def badState (s : State) : Err := mkErr .state .badState s.sess.openBit 0

end Sys2Proof.Machine
end

