-- ==== Sys2Proof/Machine/HeaderEncoder.lean ====
section
/-! DEFINITION. ENC_NETTLP, ENC_MRD, ENC_MWR and the request datagram (41_header_encoder.md). -/

namespace Sys2Proof.Machine

/-- The transport header the block sends: sequence and timestamp 0 (R78). -/
def nettlpHeader : Bytes := be16 0#16 ++ be32 0#32

/-- `ENC_NETTLP`, R78. -/
def execEncNettlp (s : State) : Outcome := onCommand s (answer (.ok (.hdr nettlpHeader)) s)

/-- Byte 0 of a request header: bit 6 for a write, bit 5 for a 64-bit address (R53, R81). -/
def requestFmtType (write is64 : Bool) : Byte :=
  (if write then 0x40#8 else 0x00#8) ||| (if is64 then 0x20#8 else 0x00#8)

/-- The header `enc_req` builds once both its requirements hold (R81). -/
def requestHeader (write : Bool) (reqid : BitVec 16) (tag : BitVec 8) (addr count : Nat) : Bytes :=
  [requestFmtType write (decide (0xFFFFFFFF < addr)), 0x00#8] ++
    be16 (BitVec.ofNat 16 (dwLength addr count % 1024)) ++ be16 reqid ++ [tag] ++
    [lastbe addr count ++ firstbe addr count] ++
    (if 0xFFFFFFFF < addr then be64 (BitVec.ofNat 64 (align4 addr))
      else be32 (BitVec.ofNat 32 (align4 addr)))

/-- `enc_req`, R81. -/
def encReq (write : Bool) (reqid : BitVec 16) (tag : BitVec 8) (addr count : Nat) : Except Err Bytes :=
  if Config.addressTop < addr + count then .error (addrOverflow addr count)
  else if Config.maxDw < dwLength addr count then
    .error (mkErr .range .lengthOverflow (dwLength addr count) count)
  else .ok (requestHeader write reqid tag addr count)

/-- The answer of R79 and R80. -/
def encodedHeader (write : Bool) (reqid : BitVec 16) (tag : BitVec 8) (addr count : Nat) :
    Except Err Result :=
  match encReq write reqid tag addr count with
  | .ok h => .ok (.hdr h)
  | .error e => .error e

/-- `ENC_MRD`, R79. -/
def execEncMrd (reqid : BitVec 16) (tag : BitVec 8) (addr count : BitVec 64) (s : State) : Outcome :=
  onCommand s (answer (encodedHeader false reqid tag addr.toNat count.toNat) s)

/-- `ENC_MWR`, R80. -/
def execEncMwr (reqid : BitVec 16) (tag : BitVec 8) (addr count : BitVec 64) (s : State) : Outcome :=
  onCommand s (answer (encodedHeader true reqid tag addr.toNat count.toNat) s)

/-- `req_datagram`, R86. -/
def reqDatagram (write : Bool) (sess : Session) (p n : Nat) (payload : Bytes) : Except Err Bytes :=
  match encReq write sess.reqid sess.tag p n with
  | .ok h => .ok (nettlpHeader ++ h ++ if write then payload else [])
  | .error e => .error e

end Sys2Proof.Machine
end

