-- ==== Sys2Proof/Machine/DmaSession.lean ====
section
/-! DEFINITION. OPEN, CLOSE, DMA_READ, DMA_WRITE and the typed wrappers (44_dma_session.md). -/

namespace Sys2Proof.Machine

/-! ### OPEN and CLOSE -/

/-- The first operand of `OPEN` out of its range, as an error: index and value (R104, 60_exceptions.md
R130). -/
def openOperandError (reqid tag mrrs dir : Nat) : Option Err :=
  if 0xFFFF < reqid then some (mkErr .precondition .badOperand 0 reqid)
  else if 0xFF < tag then some (mkErr .precondition .badOperand 1 tag)
  else if mrrs < 1 then some (mkErr .precondition .badOperand 2 mrrs)
  else if 1 < dir then some (mkErr .precondition .badOperand 3 dir)
  else none

/-- The session that `OPEN` creates (R104). -/
def sessionOf (reqid tag mrrs dir : BitVec 64) : Session where
  isOpen := true
  reqid := reqid.setWidth 16
  tag := tag.setWidth 8
  mrrs := mrrs
  dir := directionOf (dir.setWidth 1)

/-- `OPEN` with operands in range: ask the transport for the port, create the session if it answers `TxOk`
(R104). -/
def openPort (q : Session) (s : State) : Outcome :=
  let port := portNumber q.dir q.tag.toNat
  match transportOpen port s with
  | (.ioError, t) => .next (raise (mkErr .io .none 0 port) t)
  | (.ok, t) => .next (respond (.ok (.port (BitVec.ofNat 16 port))) { t with sess := q })

/-- `OPEN`, R104. -/
def execOpenSession (reqid tag mrrs dir : BitVec 64) (s : State) : Outcome :=
  onCommand s <|
    if s.sess.isOpen then .next (raise (badState s) s)
    else
      match openOperandError reqid.toNat tag.toNat mrrs.toNat dir.toNat with
      | some e => .next (raise e s)
      | none => openPort (sessionOf reqid tag mrrs dir) s

/-- `CLOSE`, R105. What it does to datagrams still queued in the transport is the transport's affair and the
spec leaves it open (91_not_in_source.md N10); that `ports.rx` stays as it is, is DESIGN CHOICE, log 25. -/
def execCloseSession (s : State) : Outcome :=
  onCommand s <|
    if s.sess.isOpen then .next (respond (.ok .done) { record .closed s with sess := .reset })
    else .next (raise (badState s) s)

/-! ### DMA_READ -/

/-- `send_read_request()`, R107. -/
def sendReadRequest (s : State) : Outcome :=
  let n := chunkLength s.seq.p.toNat (s.seq.len.toNat - s.seq.received.toNat) s.sess.mrrs.toNat
  let t : State := { s with seq.chunk := BitVec.ofNat 13 n, seq.cursor := 0#13 }
  match reqDatagram false s.sess s.seq.p.toNat n [] with
  | .error e => fail e t
  | .ok d =>
    match emit d t with
    | (.ioError, u) => fail (mkErr .io .none 1 s.seq.received.toNat) u
    | (.ok, u) => .next { u with seq.state := .rdRecv }

/-- `DMA_READ`, R106. -/
def execDmaRead (addr len : BitVec 64) (s : State) : Outcome :=
  onCommand s <|
    if s.sess.isOpen = false then .next (raise (badState s) s)
    else if len = 0#64 then .next (respond (.ok .done) s)
    else if Config.addressTop < addr.toNat + len.toNat then
      .next (raise (addrOverflow addr.toNat len.toNat) s)
    else if s.dst.size < len.toNat then
      .next (raise (mkErr .range .bufferTooSmall len.toNat s.dst.size) s)
    else sendReadRequest { s with seq.p := addr, seq.len := len, seq.received := 0#64 }

/-! ### DMA_WRITE -/

/-- The loop of R108 with `sent` of `len` bytes already handed over and `p` the remote address of the next.
Each round sends at least one byte when `SESS.mrrs ≥ 1`, so that `fuel = len - sent` rounds are enough. -/
def writeLoop (fuel p sent len : Nat) (s : State) : Outcome :=
  if len ≤ sent then .next (respond (.ok .done) s)
  else
    match fuel with
    | 0 => .fault .endlessWrite
    | fuel + 1 =>
      let n := chunkLength p (len - sent) s.sess.mrrs.toNat
      match reqDatagram true s.sess p n (s.src.read sent n) with
      | .error e => .next (raise e s)
      | .ok d =>
        match emit d s with
        | (.ioError, t) => .next (raise (mkErr .io .none 1 sent) t)
        | (.ok, t) => writeLoop fuel (p + n) (sent + n) len t

/-- `DMA_WRITE`, R108. -/
def execDmaWrite (addr len : BitVec 64) (s : State) : Outcome :=
  onCommand s <|
    if s.sess.isOpen = false then .next (raise (badState s) s)
    else if lowTwo addr.toNat ≠ 0 ∨ lowTwo len.toNat ≠ 0 then
      .next (raise (mkErr .precondition .badAlignment addr.toNat len.toNat) s)
    else if lowTwo s.sess.mrrs.toNat ≠ 0 then
      .next (raise (mkErr .precondition .badOperand 2 s.sess.mrrs.toNat) s)
    else if Config.addressTop < addr.toNat + len.toNat then
      .next (raise (addrOverflow addr.toNat len.toNat) s)
    else if s.src.size < len.toNat then
      .next (raise (mkErr .range .bufferTooSmall len.toNat s.src.size) s)
    else writeLoop len.toNat addr.toNat 0 len.toNat s

/-! ### Typed wrappers (R109, 30_encoding.md R71) -/

/-- `READ_T addr=a, size=s`: the acts it expands to. The value is then DST[0 .. s). -/
def readT (a size : BitVec 64) : List HostAct := [.command (encode (.dmaRead a size))]

/-- `WRITE_T addr=a, size=s`, for the value whose byte representation is `value`: the acts it expands to. -/
def writeT (a : BitVec 64) (value : Bytes) : List HostAct :=
  [.writeSrc 0 value, .command (encode (.dmaWrite a (BitVec.ofNat 64 value.length)))]

end Sys2Proof.Machine
end

