-- ==== Sys2Proof/Machine/HeaderDecoder.lean ====
section
/-! DEFINITION. DEC_CPL, CPL_LENGTH, CPL_COUNT, CPL_IS_LAST, CPL_SPAN, DEC_REQ, REQ_SPAN
(42_header_decoder.md). -/

namespace Sys2Proof.Machine

/-! ### Completions -/

/-- `cpl_fields(buf)`, R88. -/
def cplFields (buf : Bytes) : CplFields where
  fmtType := byteAt buf 0
  tc := byteAt buf 1
  length := BitVec.ofNat 10 (u16be buf 2)
  cplid := BitVec.ofNat 16 (u16be buf 4)
  status := BitVec.ofNat 3 (u16be buf 6 >>> 13)
  count := BitVec.ofNat 12 (u16be buf 6)
  reqid := BitVec.ofNat 16 (u16be buf 8)
  tag := byteAt buf 10
  lowaddr := BitVec.ofNat 7 (byteAt buf 11).toNat

/-- The answer of a command that needs a whole completion header in `buf` (R89 to R93). -/
def withCplFields (buf : Bytes) (k : CplFields → Except Err Result) : Except Err Result :=
  if buf.length < Config.cplLen then .error (tooShort buf.length Config.cplLen) else k (cplFields buf)

/-- `cpl_validate(f)`, R89: what it raises, if anything. -/
def cplValidate (f : CplFields) : Option Err :=
  if f.fmtType ≠ 0x4A#8 then
    if f.fmtType = 0x0A#8 then some (mkErr .invalidAddress .none 0x0A 0)
    else some (mkErr .invalidData .badFmtType f.fmtType.toNat 0)
  else if f.status ≠ 0#3 then some (mkErr .invalidData .badStatus f.status.toNat 0)
  else none

/-- `DEC_CPL`, R89. -/
def execDecCpl (buf : Bytes) (s : State) : Outcome :=
  onCommand s (answer (withCplFields buf fun f =>
    match cplValidate f with
    | some e => .error e
    | none => .ok (.cplFields f)) s)

/-- `CPL_LENGTH`, R90. -/
def execCplLength (buf : Bytes) (s : State) : Outcome :=
  onCommand s (answer (withCplFields buf fun f => .ok (.length f.length)) s)

/-- `CPL_COUNT`, R91. -/
def execCplCount (buf : Bytes) (s : State) : Outcome :=
  onCommand s (answer (withCplFields buf fun f => .ok (.count f.count)) s)

/-- `is_last_tlp()`, R92. -/
def cplIsLast (f : CplFields) : Bool :=
  f.length.toNat == ceil4 (lowTwo f.lowaddr.toNat + f.count.toNat)

/-- `CPL_IS_LAST`, R92. -/
def execCplIsLast (buf : Bytes) (s : State) : Outcome :=
  onCommand s (answer (withCplFields buf fun f => .ok (.last (cplIsLast f))) s)

/-- The payload span of R93, `(start, size)`; also steps 6 and 7 of the reassembly (R114). -/
def cplSpan (f : CplFields) (dgramLen space : Nat) : Except Err (Nat × Nat) :=
  let offset := lowTwo f.lowaddr.toNat
  let size := min f.count.toNat (f.length.toNat * 4 - offset)
  let start := Config.rxMin + offset
  if f.length.toNat * 4 < offset then .error (mkErr .invalidData .lengthUnderflow f.length.toNat offset)
  else if dgramLen < start + size then
    .error (mkErr .invalidData .spanExceedsDatagram (start + size) dgramLen)
  else if space < size then .error (mkErr .invalidData .spanExceedsDest size space)
  else .ok (start, size)

/-- The answer of R93. -/
def spanAnswer (f : CplFields) (dgramLen space : Nat) : Except Err Result :=
  match cplSpan f dgramLen space with
  | .ok (start, size) => .ok (.span (BitVec.ofNat 64 start) (BitVec.ofNat 13 size))
  | .error e => .error e

/-- `CPL_SPAN`, R93. -/
def execCplSpan (buf : Bytes) (dgramLen space : BitVec 64) (s : State) : Outcome :=
  onCommand s (answer (withCplFields buf fun f => spanAnswer f dgramLen.toNat space.toNat) s)

/-! ### Requests -/

/-- The fields of R96, for a header whose form and length have been checked. -/
def reqFieldsOf (buf : Bytes) : ReqFields where
  fmtType := byteAt buf 0
  write := (byteAt buf 0).getLsbD 6
  is64 := (byteAt buf 0).getLsbD 5
  tc := byteAt buf 1
  flags := BitVec.ofNat 6 (u16be buf 2 >>> 10)
  length := BitVec.ofNat 10 (u16be buf 2)
  reqid := BitVec.ofNat 16 (u16be buf 4)
  tag := byteAt buf 6
  lastbe := BitVec.ofNat 4 ((byteAt buf 7).toNat >>> 4)
  firstbe := BitVec.ofNat 4 (byteAt buf 7).toNat
  address := if (byteAt buf 0).getLsbD 5 then BitVec.ofNat 64 (u64be buf 8) else BitVec.ofNat 64 (u32be buf 8)

/-- The four values of byte 0 of a request header (30_encoding.md R53, R67). -/
def isRequestFmtType (b : Byte) : Bool := b == 0x00#8 || b == 0x20#8 || b == 0x40#8 || b == 0x60#8

/-- The decoding of R96: the fields, or the first error in its order. -/
def decReqFields (buf : Bytes) : Except Err ReqFields :=
  if buf.length < Config.req3dwLen then .error (tooShort buf.length Config.req3dwLen)
  else if isRequestFmtType (byteAt buf 0) = false then
    .error (mkErr .invalidData .badFmtType (byteAt buf 0).toNat 0)
  else if (byteAt buf 0).getLsbD 5 = true ∧ buf.length < Config.req4dwLen then
    .error (tooShort buf.length Config.req4dwLen)
  else .ok (reqFieldsOf buf)

/-- The answer of R96. -/
def decReqAnswer (buf : Bytes) : Except Err Result :=
  match decReqFields buf with
  | .ok f => .ok (.reqFields f)
  | .error e => .error e

/-- `DEC_REQ`, R96. -/
def execDecReq (buf : Bytes) (s : State) : Outcome := onCommand s (answer (decReqAnswer buf) s)

/-- The range a request header describes, `(first, count)`, R97. -/
def requestRange (f : ReqFields) : Except Err (Nat × Nat) :=
  let base := align4 f.address.toNat
  let len := if f.length = 0#10 ∧ f.firstbe ≠ 0#4 then Config.maxDw else f.length.toNat
  let lead := ctz4 f.firstbe
  let bad : Err := mkErr .invalidData .badByteEnable f.firstbe.toNat f.lastbe.toNat
  if f.firstbe = 0#4 then
    if f.lastbe = 0#4 then .ok (base, 0) else .error bad
  else if len = 1 then
    if f.lastbe = 0#4 ∧ f.firstbe = lowmask (popcount4 f.firstbe) <<< lead then
      .ok (base + lead, popcount4 f.firstbe)
    else .error bad
  else if f.firstbe = 0xF#4 <<< lead ∧ 1 ≤ popcount4 f.lastbe ∧ f.lastbe = lowmask (popcount4 f.lastbe) then
    .ok (base + lead, 4 * len - lead - (4 - popcount4 f.lastbe))
  else .error bad

/-- The answer of R97. -/
def reqSpanAnswer (buf : Bytes) : Except Err Result :=
  match decReqFields buf with
  | .error e => .error e
  | .ok f =>
    match requestRange f with
    | .error e => .error e
    | .ok (first, count) => .ok (.range (BitVec.ofNat 64 first) (BitVec.ofNat 13 count))

/-- `REQ_SPAN`, R97. -/
def execReqSpan (buf : Bytes) (s : State) : Outcome := onCommand s (answer (reqSpanAnswer buf) s)

end Sys2Proof.Machine
end

