-- ==== Sys2Proof/Machine/Reassembly.lean ====
section
/-! DEFINITION. The receive events and the seven wire forms as received datagrams
(45_completion_reassembly.md). -/

namespace Sys2Proof.Machine

/-- SEQ.p and SEQ.received moved past the chunk that is done (R115). A sum that is no 64-bit address leaves
SEQ.p a free value (log 11). -/
def advance (s : State) : State :=
  if s.seq.p.toNat + s.seq.chunk.toNat < Config.addressTop then
    { s with
      seq.p := s.seq.p + s.seq.chunk.setWidth 64
      seq.received := s.seq.received + s.seq.chunk.setWidth 64 }
  else
    { s with
      seq.p := Config.pastTop s.draws
      seq.received := s.seq.received + s.seq.chunk.setWidth 64
      draws := s.draws + 1 }

/-- `chunk_done()`, R115. -/
def chunkDone (s : State) : Outcome :=
  let t := advance s
  if t.seq.received = t.seq.len then .next (respond (.ok .done) { t with seq.state := .idle })
  else sendReadRequest t

/-- Steps 8 and 9 of R114: the copy of the `size` bytes at `start`, and the end of the request if the
fragment is the last. -/
def acceptFragment (f : CplFields) (d : Bytes) (start size : Nat) (s : State) : Outcome :=
  andThen (storeDst (s.seq.received.toNat + s.seq.cursor.toNat) (slice d start size) s) fun t =>
    let u : State := { t with seq.cursor := t.seq.cursor + BitVec.ofNat 13 size }
    if cplIsLast f then chunkDone u else .next u

/-- `RX_DATAGRAM(d)`, R114. -/
def rxDatagram (d : Bytes) (s : State) : Outcome :=
  if d.length < Config.rxMin then fail (tooShort d.length Config.rxMin) s
  else
    let f := cplFields (slice d Config.nettlpLen Config.cplLen)
    match cplValidate f with
    | some e => fail e s
    | none =>
      match cplSpan f d.length (s.seq.chunk.toNat - s.seq.cursor.toNat) with
      | .error e => fail e s
      | .ok (start, size) => acceptFragment f d start size s

/-- `RX_TIMEOUT`, R116. -/
def rxTimeout (s : State) : Outcome :=
  onReceive s (fail (mkErr .timeout .none s.seq.received.toNat s.seq.cursor.toNat) s)

/-- `RX_IOERROR`, R117. -/
def rxIoError (s : State) : Outcome :=
  onReceive s (fail (mkErr .io .none 2 s.seq.received.toNat) s)

/-- A datagram that the decoder refuses as a wire form is received like any other (R114). -/
def rxUnclassified (d : Bytes) (s : State) : Outcome := onReceive s (rxDatagram d s)

/-! ### The wire forms

A wire form reaches the block as a received datagram (log 1); which of R114's steps applies to it is R114's
own. -/

/-- `MRD32` received, R82, R114. -/
def execMrd32 (nt : NettlpHdr) (head : ReqHead) (address : BitVec 32) (rest : Bytes) (s : State) : Outcome :=
  onReceive s (rxDatagram (encode (.mrd32 nt head address rest)) s)

/-- `MRD64` received, R83, R114. -/
def execMrd64 (nt : NettlpHdr) (head : ReqHead) (address : BitVec 64) (rest : Bytes) (s : State) : Outcome :=
  onReceive s (rxDatagram (encode (.mrd64 nt head address rest)) s)

/-- `MWR32` received, R84, R114. -/
def execMwr32 (nt : NettlpHdr) (head : ReqHead) (address : BitVec 32) (rest : Bytes) (s : State) : Outcome :=
  onReceive s (rxDatagram (encode (.mwr32 nt head address rest)) s)

/-- `MWR64` received, R85, R114. -/
def execMwr64 (nt : NettlpHdr) (head : ReqHead) (address : BitVec 64) (rest : Bytes) (s : State) : Outcome :=
  onReceive s (rxDatagram (encode (.mwr64 nt head address rest)) s)

/-- `CPLD` received, R94, R114. -/
def execCpld (nt : NettlpHdr) (hdr : CplHdr) (rest : Bytes) (s : State) : Outcome :=
  onReceive s (rxDatagram (encode (.cpld nt hdr rest)) s)

/-- `CPL` received, R95, R114. -/
def execCpl (nt : NettlpHdr) (hdr : CplHdr) (rest : Bytes) (s : State) : Outcome :=
  onReceive s (rxDatagram (encode (.cpl nt hdr rest)) s)

/-- `NETTLP` received with no whole completion header behind it, R78, R114. -/
def execNettlp (nt : NettlpHdr) (rest : Bytes) (s : State) : Outcome :=
  onReceive s (rxDatagram (encode (.nettlp nt rest)) s)

end Sys2Proof.Machine
end

