-- ==== Sys2Proof/Machine/Fetch.lean ====
section
/-! DEFINITION. Which input the next step takes, and what a byte string that is no instruction does. -/

namespace Sys2Proof.Machine

/-- What the next step acts on. -/
inductive Input where
  /-- The reset input is asserted. -/
  | reset
  /-- The block is idle and the host has presented nothing. -/
  | nothing
  /-- The host's next act. -/
  | host (act : HostAct)
  /-- The event that answers the receive. -/
  | rx (event : RxEvent)
deriving DecidableEq, Repr

/-- The next input and the state with it taken from its port: reset before all else (R143), the host's next
act in IDLE, the event that answers the receive in RD_RECV (44_dma_session.md R110,
45_completion_reassembly.md R113, R121). The reset input is as the outside world left it: no list of inputs
asserts it (DESIGN CHOICE, log 26). -/
def fetch (s : State) : Input × State :=
  if s.ports.resetPin then (.reset, s)
  else
    match s.seq.state with
    | .idle =>
      match s.ports.host with
      | [] => (.nothing, s)
      | act :: rest => (.host act, { s with ports.host := rest })
    | .rdRecv => (.rx (receive s).1, (receive s).2)

/-- What a byte string that is no instruction of R69 does on the command port: an op byte outside the map
raises `ErrIllegalOp` (30_encoding.md R70); anything else cannot be presented (log 4). -/
def rejectedCommand (e : DecodeError) (s : State) : Outcome :=
  match e with
  | .badOpcode op => onCommand s (.next (illegalOp op s))
  | .noOpcode => .refused .notACommand
  | .badOperands _ => .refused .notACommand
  | .noTransportHeader => .refused .notACommand
  | .badFmtType _ => .refused .notACommand
  | .cutRequest _ => .refused .notACommand

end Sys2Proof.Machine
end

