-- ==== Sys2Proof/Machine/ByteEnable.lean ====
section
/-! DEFINITION. REQID_PACK, CALC_LENGTH, CALC_FIRSTBE, CALC_LASTBE (40_byte_enable_alignment.md). -/

namespace Sys2Proof.Machine

/-- The answer of R72. -/
def reqidPack (bus dev fn : Nat) : Except Err Result :=
  if bus ≤ 255 ∧ dev ≤ 31 ∧ fn ≤ 7 then
    .ok (.reqid (BitVec.ofNat 16 ((bus <<< 8) ||| (dev <<< 3) ||| fn)))
  else .error (mkErr .precondition .badOperand ((bus <<< 16) ||| (dev <<< 8) ||| fn) 0)

/-- `REQID_PACK`, R72. -/
def execReqidPack (bus dev fn : BitVec 64) (s : State) : Outcome :=
  onCommand s (answer (reqidPack bus.toNat dev.toNat fn.toNat) s)

/-- The answer of R73. -/
def calcLength (addr count : Nat) : Except Err Result :=
  if addr + count ≤ Config.addressTop then .ok (.len (BitVec.ofNat 63 (dwLength addr count)))
  else .error (addrOverflow addr count)

/-- `CALC_LENGTH`, R73. -/
def execCalcLength (addr count : BitVec 64) (s : State) : Outcome :=
  onCommand s (answer (calcLength addr.toNat count.toNat) s)

/-- `CALC_FIRSTBE`, R74. -/
def execCalcFirstbe (addr count : BitVec 64) (s : State) : Outcome :=
  onCommand s (answer (.ok (.be (firstbe addr.toNat count.toNat))) s)

/-- The answer of R75. -/
def calcLastbe (addr count : Nat) : Except Err Result :=
  if addr + count ≤ Config.addressTop then .ok (.be (lastbe addr count))
  else .error (addrOverflow addr count)

/-- `CALC_LASTBE`, R75. -/
def execCalcLastbe (addr count : BitVec 64) (s : State) : Outcome :=
  onCommand s (answer (calcLastbe addr.toNat count.toNat) s)

end Sys2Proof.Machine
end

