-- ==== Sys2Proof/Machine/Chunking.lean ====
section
/-! DEFINITION. CHUNK_LEN, PORT_SEL and the chunk sequence of a transfer (43_chunking.md). -/

namespace Sys2Proof.Machine

/-- `CHUNK_LEN`, R100. -/
def execChunkLen (addr remaining mrrs : BitVec 64) (s : State) : Outcome :=
  onCommand s
    (answer (.ok (.chunk (BitVec.ofNat 13 (chunkLength addr.toNat remaining.toNat mrrs.toNat)))) s)

/-- `PORT_SEL`, R103. -/
def execPortSel (dir : BitVec 1) (tag : BitVec 8) (s : State) : Outcome :=
  onCommand s (answer (.ok (.port (BitVec.ofNat 16 (portNumber (directionOf dir) tag.toNat)))) s)

/-- The chunks of the `remaining` bytes from `p` on, at most `fuel` of them. -/
def chunksFrom (fuel p remaining mrrs : Nat) : List (Nat × Nat) :=
  match fuel with
  | 0 => []
  | fuel + 1 =>
    if remaining = 0 then []
    else
      (p, chunkLength p remaining mrrs) ::
        chunksFrom fuel (p + chunkLength p remaining mrrs) (remaining - chunkLength p remaining mrrs) mrrs

/-- `chunks(addr, len, mrrs)` of R102: the `(p_i, n_i)` of a transfer, for `mrrs ≥ 1`. -/
def chunks (addr len mrrs : Nat) : List (Nat × Nat) := chunksFrom len addr len mrrs

end Sys2Proof.Machine
end

