-- ==== Sys2Proof/Machine/Dispatch.lean ====
section
/-! DEFINITION. One arm per row of opcode_table.json, each a direct call of its meaning. -/

namespace Sys2Proof.Machine

/-- Execute one instruction. -/
def exec (i : Instr) (s : State) : Host.Outcome State Fault Refusal :=
  match i with
  | .reqidPack bus dev fn => Sys2Proof.Machine.execReqidPack bus dev fn s
  | .calcLength addr count => Sys2Proof.Machine.execCalcLength addr count s
  | .calcFirstbe addr count => Sys2Proof.Machine.execCalcFirstbe addr count s
  | .calcLastbe addr count => Sys2Proof.Machine.execCalcLastbe addr count s
  | .chunkLen addr remaining mrrs => Sys2Proof.Machine.execChunkLen addr remaining mrrs s
  | .portSel dir tag => Sys2Proof.Machine.execPortSel dir tag s
  | .encNettlp => Sys2Proof.Machine.execEncNettlp s
  | .encMrd reqid tag addr count => Sys2Proof.Machine.execEncMrd reqid tag addr count s
  | .encMwr reqid tag addr count => Sys2Proof.Machine.execEncMwr reqid tag addr count s
  | .decCpl buf => Sys2Proof.Machine.execDecCpl buf s
  | .cplLength buf => Sys2Proof.Machine.execCplLength buf s
  | .cplCount buf => Sys2Proof.Machine.execCplCount buf s
  | .cplIsLast buf => Sys2Proof.Machine.execCplIsLast buf s
  | .cplSpan buf dgramLen space => Sys2Proof.Machine.execCplSpan buf dgramLen space s
  | .decReq buf => Sys2Proof.Machine.execDecReq buf s
  | .reqSpan buf => Sys2Proof.Machine.execReqSpan buf s
  | .openSession reqid tag mrrs dir => Sys2Proof.Machine.execOpenSession reqid tag mrrs dir s
  | .closeSession => Sys2Proof.Machine.execCloseSession s
  | .dmaRead addr len => Sys2Proof.Machine.execDmaRead addr len s
  | .dmaWrite addr len => Sys2Proof.Machine.execDmaWrite addr len s
  | .mrd32 nt head address rest => Sys2Proof.Machine.execMrd32 nt head address rest s
  | .mrd64 nt head address rest => Sys2Proof.Machine.execMrd64 nt head address rest s
  | .mwr32 nt head address rest => Sys2Proof.Machine.execMwr32 nt head address rest s
  | .mwr64 nt head address rest => Sys2Proof.Machine.execMwr64 nt head address rest s
  | .cpld nt hdr rest => Sys2Proof.Machine.execCpld nt hdr rest s
  | .cpl nt hdr rest => Sys2Proof.Machine.execCpl nt hdr rest s
  | .nettlp nt rest => Sys2Proof.Machine.execNettlp nt rest s

end Sys2Proof.Machine
end

