-- ==== Sys2Proof/Machine/Inputs.lean ====
section
/-! DEFINITION. What an input does once it has been taken from its port (00_scope.md R6): a command or a
datagram that decodes is executed. -/

namespace Sys2Proof.Machine

/-- Act on what the host presents. -/
def hostStep (act : HostAct) (s : State) : Host.Outcome State Fault Refusal :=
  match act with
  | .command image =>
    match decodeCommand image with
    | .ok i => exec i s
    | .error e => rejectedCommand e s
  | .writeDst a bs => hostWriteDst a bs s
  | .writeSrc a bs => hostWriteSrc a bs s

/-- Act on what the transport delivers. -/
def rxStep (event : RxEvent) (s : State) : Host.Outcome State Fault Refusal :=
  match event with
  | .datagram d =>
    match decodeDatagram d with
    | .ok i => exec i s
    | .error _ => rxUnclassified d s
  | .timeout => rxTimeout s
  | .ioError => rxIoError s

end Sys2Proof.Machine
end

