-- ==== Sys2Proof/Machine/Step.lean ====
section
/-! DEFINITION. One step of the block (00_scope.md R6, R7). -/

namespace Sys2Proof.Machine

/-- One step: the next input is taken and acted on. An idle block to which the host has presented
nothing stays as it is (log 5); a receive is always answered (log 24). -/
def step (s : State) : Host.Outcome State Fault Refusal :=
  match fetch s with
  | (.reset, t) => .next (resetStep t)
  | (.nothing, t) => .next t
  | (.host act, t) => hostStep act t
  | (.rx event, t) => rxStep event t

/-- `s` with the instruction of a row's word as the next input (log 3): a command in front of the host's
acts with the block in IDLE, a datagram in front of the transport's events with the block in RD_RECV. -/
def State.withFetchWord (s : State) (nbits w : Nat) : State :=
  if nbits ≤ 8 then
    { s with
      seq.state := .idle
      ports.resetPin := false
      ports.host := .command (tableCommand w) :: s.ports.host }
  else
    { s with
      seq.state := .rdRecv
      ports.resetPin := false
      ports.rx := .datagram (tableDatagram nbits w) :: s.ports.rx }

end Sys2Proof.Machine
end

