-- ==== Sys2Proof/Machine/Notation.lean ====
section
/-! DEFINITION. The line notation of 30_encoding.md R71 and the names of 60_exceptions.md R124: how a
command, an event and an emission are written down. -/

namespace Sys2Proof.Machine

/-- A hexadecimal digit. -/
def hexDigit (n : Nat) : String := (["0", "1", "2", "3", "4", "5", "6", "7", "8", "9", "A", "B", "C", "D", "E", "F"]).getD n "0"

/-- `hex:` and two digits a byte, R71. -/
def hexBytes (bs : Bytes) : String :=
  bs.foldl (fun acc b => acc ++ " " ++ hexDigit (b.toNat / 16) ++ hexDigit (b.toNat % 16)) "hex:"

/-- A command line: the mnemonic and `name=value` operands, R71. -/
def commandLine (mnemonic : String) (operands : List (String × String)) : String :=
  mnemonic ++ " " ++ ", ".intercalate (operands.map fun o => o.1 ++ "=" ++ o.2)

/-- A decimal value, R71. -/
def decimal {w : Nat} (v : BitVec w) : String := toString v.toNat

/-- An instruction as a line: a command line, or the event that delivers a wire form (R71). -/
def instrLine (i : Instr) : String :=
  match i with
  | .reqidPack bus dev fn => commandLine "REQID_PACK" [("bus", decimal bus), ("dev", decimal dev), ("fn", decimal fn)]
  | .calcLength addr count => commandLine "CALC_LENGTH" [("addr", decimal addr), ("count", decimal count)]
  | .calcFirstbe addr count => commandLine "CALC_FIRSTBE" [("addr", decimal addr), ("count", decimal count)]
  | .calcLastbe addr count => commandLine "CALC_LASTBE" [("addr", decimal addr), ("count", decimal count)]
  | .chunkLen addr remaining mrrs =>
    commandLine "CHUNK_LEN" [("addr", decimal addr), ("remaining", decimal remaining), ("mrrs", decimal mrrs)]
  | .portSel dir tag => commandLine "PORT_SEL" [("dir", decimal dir), ("tag", decimal tag)]
  | .encNettlp => "ENC_NETTLP"
  | .encMrd reqid tag addr count =>
    commandLine "ENC_MRD"
      [("reqid", decimal reqid), ("tag", decimal tag), ("addr", decimal addr), ("count", decimal count)]
  | .encMwr reqid tag addr count =>
    commandLine "ENC_MWR"
      [("reqid", decimal reqid), ("tag", decimal tag), ("addr", decimal addr), ("count", decimal count)]
  | .decCpl buf => commandLine "DEC_CPL" [("buf", hexBytes buf)]
  | .cplLength buf => commandLine "CPL_LENGTH" [("buf", hexBytes buf)]
  | .cplCount buf => commandLine "CPL_COUNT" [("buf", hexBytes buf)]
  | .cplIsLast buf => commandLine "CPL_IS_LAST" [("buf", hexBytes buf)]
  | .cplSpan buf dgramLen space =>
    commandLine "CPL_SPAN" [("buf", hexBytes buf), ("dgram_len", decimal dgramLen), ("space", decimal space)]
  | .decReq buf => commandLine "DEC_REQ" [("buf", hexBytes buf)]
  | .reqSpan buf => commandLine "REQ_SPAN" [("buf", hexBytes buf)]
  | .openSession reqid tag mrrs dir =>
    commandLine "OPEN"
      [("reqid", decimal reqid), ("tag", decimal tag), ("mrrs", decimal mrrs), ("dir", decimal dir)]
  | .closeSession => "CLOSE"
  | .dmaRead addr len => commandLine "DMA_READ" [("addr", decimal addr), ("len", decimal len)]
  | .dmaWrite addr len => commandLine "DMA_WRITE" [("addr", decimal addr), ("len", decimal len)]
  | .mrd32 .. | .mrd64 .. | .mwr32 .. | .mwr64 .. | .cpld .. | .cpl .. | .nettlp .. =>
    "<< RX_DATAGRAM " ++ hexBytes (encode i)

/-- A transport event as a line, R71. -/
def eventLine (event : RxEvent) : String :=
  match event with
  | .datagram d => "<< RX_DATAGRAM " ++ hexBytes d
  | .timeout => "<< RX_TIMEOUT"
  | .ioError => "<< RX_IOERROR"

/-- The name of an error, R124. -/
def errName (k : ErrKind) : String :=
  match k with
  | .io => "ErrIo"
  | .timeout => "ErrTimeout"
  | .invalidAddress => "ErrInvalidAddress"
  | .invalidData => "ErrInvalidData"
  | .invalidBdf => "ErrInvalidBdf"
  | .precondition => "ErrPrecondition"
  | .range => "ErrRange"
  | .state => "ErrState"
  | .illegalOp => "ErrIllegalOp"

/-- The name of a cause, R124. -/
def causeName (c : Cause) : String :=
  match c with
  | .none => "None"
  | .tooShort => "TooShort"
  | .badFmtType => "BadFmtType"
  | .badStatus => "BadStatus"
  | .spanExceedsDatagram => "SpanExceedsDatagram"
  | .spanExceedsDest => "SpanExceedsDest"
  | .lengthUnderflow => "LengthUnderflow"
  | .badByteEnable => "BadByteEnable"
  | .badOperand => "BadOperand"
  | .addrOverflow => "AddrOverflow"
  | .lengthOverflow => "LengthOverflow"
  | .badAlignment => "BadAlignment"
  | .badState => "BadState"
  | .badOpcode => "BadOpcode"
  | .bufferTooSmall => "BufferTooSmall"

/-- An error response as it stands after `=>`, R71. -/
def errLine (e : Err) : String :=
  errName e.kind ++ " cause=" ++ causeName e.cause ++ " raw0=" ++ decimal e.raw0 ++ " raw1=" ++ decimal e.raw1

/-- One bit of a result, R71. -/
def bit (b : Bool) : String := if b then "1" else "0"

/-- The results as they stand after `OK`, by the names of R69. -/
def resultLine (r : Result) : String :=
  match r with
  | .done => "OK"
  | .reqid v => "OK reqid=" ++ decimal v
  | .len v => "OK len=" ++ decimal v
  | .be v => "OK be=" ++ decimal v
  | .chunk n => "OK n=" ++ decimal n
  | .port v => "OK port=" ++ decimal v
  | .hdr h => "OK hdr=" ++ hexBytes h
  | .cplFields f =>
    "OK fmt_type=" ++ decimal f.fmtType ++ " tc=" ++ decimal f.tc ++ " length=" ++ decimal f.length ++
      " cplid=" ++ decimal f.cplid ++ " status=" ++ decimal f.status ++ " count=" ++ decimal f.count ++
      " reqid=" ++ decimal f.reqid ++ " tag=" ++ decimal f.tag ++ " lowaddr=" ++ decimal f.lowaddr
  | .length v => "OK length=" ++ decimal v
  | .count v => "OK count=" ++ decimal v
  | .last b => "OK last=" ++ bit b
  | .span start size => "OK start=" ++ decimal start ++ " size=" ++ decimal size
  | .reqFields f =>
    "OK fmt_type=" ++ decimal f.fmtType ++ " write=" ++ bit f.write ++ " is64=" ++ bit f.is64 ++
      " tc=" ++ decimal f.tc ++ " flags=" ++ decimal f.flags ++ " length=" ++ decimal f.length ++
      " reqid=" ++ decimal f.reqid ++ " tag=" ++ decimal f.tag ++ " lastbe=" ++ decimal f.lastbe ++
      " firstbe=" ++ decimal f.firstbe ++ " address=" ++ decimal f.address
  | .range first count => "OK first=" ++ decimal first ++ " count=" ++ decimal count

/-- A response after `=>`, R71. -/
def responseLine (r : Response) : String :=
  match r with
  | .ok r => "=> " ++ resultLine r
  | .error e => "=> " ++ errLine e

/-- An emission and its answer, R71. -/
def emissionLine (d : Bytes) (a : TxAnswer) : String :=
  ">> TX " ++ hexBytes d ++ (match a with | .ok => " TxOk" | .ioError => " TxIoError")

end Sys2Proof.Machine
end

