-- ==== Sys2Proof/Safety.lean ====
section
/-! DEFINITION. The terms claims are stated in: the invariant of a run, what a step answers, the request a
wire form carries, the byte-enable cover, and the well-behaved completer. -/

namespace Sys2Proof.Machine

/-! ### The invariant -/

/-- A closed session holds the reset values (R105), an open one a legal `MRRS` (10_state.md R17). -/
abbrev SessionInv (q : Session) : Prop :=
  (q.isOpen = false → q = Session.reset) ∧ (q.isOpen = true → 1 ≤ q.mrrs.toNat)

/-- While a read is in progress: a session is open; the outstanding chunk is the one R100 gives for what is
left; it lies inside the read (10_state.md R21), the read inside DST and inside the address space. -/
abbrev ReadInv (s : State) : Prop :=
  s.seq.state = .rdRecv →
    s.sess.isOpen = true ∧
    s.seq.received.toNat + s.seq.chunk.toNat ≤ s.seq.len.toNat ∧
    1 ≤ s.seq.chunk.toNat ∧
    s.seq.chunk.toNat =
      chunkLength s.seq.p.toNat (s.seq.len.toNat - s.seq.received.toNat) s.sess.mrrs.toNat ∧
    s.seq.len.toNat ≤ s.dst.size ∧
    s.seq.p.toNat + (s.seq.len.toNat - s.seq.received.toNat) ≤ Config.addressTop

/-- The invariant of every run: the two above, `SEQ.cursor ≤ SEQ.chunk ≤ 4096` (10_state.md R22), and both
buffers in canonical form with no byte past their end. -/
abbrev State.Inv (s : State) : Prop :=
  SessionInv s.sess ∧ ReadInv s ∧ s.seq.cursor.toNat ≤ s.seq.chunk.toNat ∧ s.seq.chunk.toNat ≤ 4096 ∧
    Buffer.wf s.dst = true ∧ Buffer.wf s.src = true

/-! ### What a step answers -/

/-- The step answers the response `r` and changes nothing else: no register, no byte of a buffer, nothing
taken from a port and nothing asked of the transport. -/
def Answers (o : Outcome) (s : State) (r : Response) : Prop :=
  o = .next { s with ports.responses := s.ports.responses ++ [r] }

/-- The error response with these codes and raw values (60_exceptions.md R123, R124). -/
def errorResponse (kind : ErrKind) (cause : Cause) (raw0 raw1 : Nat) : Response :=
  .error { kind := kind, cause := cause, raw0 := BitVec.ofNat 64 raw0, raw1 := BitVec.ofNat 64 raw1 }

/-- `fail(E)` as R118 and R135 (e) describe it, with nothing said of DST[0 .. SEQ.len): the response is
`r`, the block is IDLE, everything else is as it was. -/
def FailsRead (o : Outcome) (s : State) (r : Response) : Prop :=
  ∃ t, o = .next t ∧
    t.seq = { s.seq with state := .idle } ∧
    t.sess = s.sess ∧ t.src = s.src ∧
    t.dst.size = s.dst.size ∧ (∀ a, s.seq.len.toNat ≤ a → t.dst.byte a = s.dst.byte a) ∧
    t.ports = { s.ports with responses := s.ports.responses ++ [r] }

/-- `s` with one answer of the transport used up: the next of the inputs, or a free value drawn. -/
def State.answerUsed (s : State) : State :=
  { s with
    draws := if s.ports.txAnswers = [] then s.draws + 1 else s.draws
    ports.txAnswers := s.ports.txAnswers.tail }

/-- The answer the transport gives next (44_dma_session.md R112): an input, or a free value. -/
def State.nextAnswer (s : State) : TxAnswer := s.ports.txAnswers.headD (Config.txAnswer s.draws)

/-! ### Requests -/

/-- The DW length of R73 in the second form the rule gives. -/
def dwCount (addr count : Nat) : Nat := (addr % 4 + count + 3) / 4

/-- The wire form of the request for `[addr, addr + count)` that the field tables of 30_encoding.md R51 to
R59 describe, in a datagram with a zero transport header and `payload` behind the header. -/
def requestForm (write : Bool) (reqid : BitVec 16) (tag : BitVec 8) (addr count : Nat) (payload : Bytes) :
    Instr :=
  let nt : NettlpHdr := { seq := 0#16, timestamp := 0#32 }
  let head : ReqHead :=
    { tc := 0#8, flags := 0#6, length := BitVec.ofNat 10 (dwCount addr count), reqid := reqid, tag := tag,
      lastbe := lastbe addr count, firstbe := firstbe addr count }
  let a := addr - addr % 4
  match write, decide (addr ≤ 0xFFFFFFFF) with
  | false, true => .mrd32 nt head (BitVec.ofNat 32 a) payload
  | false, false => .mrd64 nt head (BitVec.ofNat 64 a) payload
  | true, true => .mwr32 nt head (BitVec.ofNat 32 a) payload
  | true, false => .mwr64 nt head (BitVec.ofNat 64 a) payload

/-- The request datagram a session sends for `[p, p + n)` (R86). -/
def requestDatagram (q : Session) (write : Bool) (p n : Nat) (payload : Bytes) : Bytes :=
  encode (requestForm write q.reqid q.tag p n payload)

/-- A request of `n` bytes at `p` that 20_memory.md R38 allows: not empty, at most `mrrs` bytes, inside one
page and inside the address space. -/
def LegalRequest (mrrs p n : Nat) : Prop :=
  1 ≤ n ∧ n ≤ mrrs ∧ p / 4096 = (p + n - 1) / 4096 ∧ p + n ≤ Config.addressTop

/-- The set `S` of enabled byte addresses of 40_byte_enable_alignment.md R76, from the DW length `len` and
the two nibbles `first` and `last` of a request whose first DW is at `base`. -/
def Enabled (base len : Nat) (first last : BitVec 4) (x : Nat) : Prop :=
  (∃ i, i < 4 ∧ first.getLsbD i = true ∧ x = base + i) ∨
  (2 ≤ len ∧ base + 4 ≤ x ∧ x < base + 4 * (len - 1)) ∨
  (2 ≤ len ∧ ∃ i, i < 4 ∧ last.getLsbD i = true ∧ x = base + 4 * (len - 1) + i)

/-- What a buffer given to `DEC_REQ` or `REQ_SPAN` raises before any field is looked at
(42_header_decoder.md R96), if anything. -/
def requestHeaderError (buf : Bytes) : Option Response :=
  let b := byteAt buf 0
  if buf.length < 12 then some (errorResponse .invalidData .tooShort buf.length 12)
  else if b ≠ 0x00#8 ∧ b ≠ 0x20#8 ∧ b ≠ 0x40#8 ∧ b ≠ 0x60#8 then
    some (errorResponse .invalidData .badFmtType b.toNat 0)
  else if (b = 0x20#8 ∨ b = 0x60#8) ∧ buf.length < 16 then
    some (errorResponse .invalidData .tooShort buf.length 16)
  else none

/-- `buf` starts with the request header of byte 0 `b`, fields `h` and address `a`, in the layout of
30_encoding.md R51 or R52. -/
def IsRequestHeader (buf : Bytes) (b : Byte) (h : ReqHead) (a : BitVec 64) : Prop :=
  ((b = 0x00#8 ∨ b = 0x40#8) ∧ a.toNat < 2 ^ 32 ∧ buf.take 12 = encodeReqHead b h ++ be32 (a.setWidth 32)) ∨
  ((b = 0x20#8 ∨ b = 0x60#8) ∧ buf.take 16 = encodeReqHead b h ++ be64 a)

/-- The byte enables and the length of `h` describe `n` bytes from byte `lead` of the first DW on
(42_header_decoder.md R97): nothing, a run inside the one DW, or a first DW enabled from `lead` up, whole DWs,
and the low bytes of the last DW. A length field of 0 beside a non-zero first nibble stands for 1024 DWs. -/
def SpanOf (h : ReqHead) (lead n : Nat) : Prop :=
  let dws := if h.length = 0#10 then 1024 else h.length.toNat
  if h.firstbe = 0#4 then h.lastbe = 0#4 ∧ lead = 0 ∧ n = 0
  else if dws = 1 then
    1 ≤ n ∧ lead + n ≤ 4 ∧ h.lastbe = 0#4 ∧
      ∀ i, i < 4 → h.firstbe.getLsbD i = decide (lead ≤ i ∧ i < lead + n)
  else
    lead < 4 ∧ ∃ k, 1 ≤ k ∧ k ≤ 4 ∧ n + lead + (4 - k) = 4 * dws ∧
      (∀ i, i < 4 → h.firstbe.getLsbD i = decide (lead ≤ i)) ∧ ∀ i, i < 4 → h.lastbe.getLsbD i = decide (i < k)

/-- What `DMA_WRITE` requires (44_dma_session.md R108), with the `MRRS ≥ 1` of every open session. -/
def CanWrite (addr len : BitVec 64) (s : State) : Prop :=
  s.sess.isOpen = true ∧ 1 ≤ s.sess.mrrs.toNat ∧ addr.toNat % 4 = 0 ∧ len.toNat % 4 = 0 ∧
    s.sess.mrrs.toNat % 4 = 0 ∧ addr.toNat + len.toNat ≤ Config.addressTop ∧ len.toNat ≤ s.src.size

/-- The datagram of a write that starts at `addr` for the chunk `c` of it: the bytes of SRC that belong to the
chunk are its payload (R108). -/
def writeDatagram (s : State) (addr : Nat) (c : Nat × Nat) : Bytes :=
  requestDatagram s.sess true c.1 c.2 ((List.range c.2).map fun i => s.src.byte (c.1 - addr + i))

/-! ### Fragments (45_completion_reassembly.md R114) -/

/-- The number of payload bytes of a fragment that count: `size` of step 6. -/
def spanSize (hdr : CplHdr) : Nat := min hdr.count.toNat (hdr.length.toNat * 4 - hdr.lowaddr.toNat % 4)

/-- The fragment passes steps 5 to 7: status success, a span inside the datagram and inside the window. -/
def Accepted (hdr : CplHdr) (rest : Bytes) (s : State) : Prop :=
  hdr.status = 0#3 ∧ hdr.lowaddr.toNat % 4 ≤ hdr.length.toNat * 4 ∧
    hdr.lowaddr.toNat % 4 + spanSize hdr ≤ rest.length ∧
    spanSize hdr ≤ s.seq.chunk.toNat - s.seq.cursor.toNat

/-- `b` is `old` with the bytes `bs` from offset `a` on. -/
def WritesBytes (old : Buffer) (a : Nat) (bs : Bytes) (b : Buffer) : Prop :=
  b.size = old.size ∧ (∀ i, i < bs.length → b.byte (a + i) = bs.getD i 0#8) ∧
    ∀ x, (x < a ∨ a + bs.length ≤ x) → b.byte x = old.byte x

/-- `dst` is the DST of `s` with the fragment's bytes at the cursor of the window (step 8). -/
def HoldsSpan (hdr : CplHdr) (rest : Bytes) (s : State) (dst : Buffer) : Prop :=
  WritesBytes s.dst (s.seq.received.toNat + s.seq.cursor.toNat)
    ((rest.drop (hdr.lowaddr.toNat % 4)).take (spanSize hdr)) dst

/-! ### The well-behaved completer (45_completion_reassembly.md R122) -/

/-- `d` is the fragment that carries the bytes `[q, q')` of a request ending at `e`. -/
def ConformingFragment (remote : Nat → Byte) (e q q' : Nat) (d : Bytes) : Prop :=
  q < q' ∧ q' ≤ e ∧ (q' < e → q' % 4 = 0) ∧
  ∃ nt hdr rest, d = encode (.cpld nt hdr rest) ∧
    hdr.status = 0#3 ∧ hdr.lowaddr.toNat = q % 128 ∧ hdr.count.toNat = e - q ∧
    hdr.length.toNat = (q % 4 + (q' - q) + 3) / 4 ∧ rest.length = 4 * hdr.length.toNat ∧
    ∀ i, i < q' - q → rest.getD (q % 4 + i) 0#8 = remote (q + i)

/-- `ds` are the fragments, in order, that carry `[q, e)`. -/
def ConformingAnswer (remote : Nat → Byte) (e q : Nat) (ds : List Bytes) : Prop :=
  match ds with
  | [] => q = e
  | d :: rest => ∃ q', ConformingFragment remote e q q' d ∧ ConformingAnswer remote e q' rest

/-- `ds` answer the requests for `cs`, one after the other. -/
def ConformingAnswers (remote : Nat → Byte) (cs : List (Nat × Nat)) (ds : List Bytes) : Prop :=
  match cs with
  | [] => ds = []
  | (p, n) :: rest =>
    ∃ xs ys, ds = xs ++ ys ∧ ConformingAnswer remote (p + n) p xs ∧ ConformingAnswers remote rest ys

end Sys2Proof.Machine
end

