-- ==== Sys2Proof/Certificates/Slice0/Obligations.lean ====
section
/-! DEFINITION. The statements for the provers. "Rn" is a rule of spec/, "log n" an entry of
notes/assumptions/. A statement about an error response names its status, cause and raw values; `Answers`
says that nothing but the response changes, `FailsRead` is the failure of a read (R118). A clause
`(encode …).head? = some op` gives the op byte of R69; that it stands first in a command's bytes is the
model's layout (log 2). -/

open Sys2Proof Sys2Proof.Machine

/-! ### Reset -/

/-- R28: the registers after reset, for a block with buffers of any size. The bytes of DST and SRC are free
bytes, and the numbers of the draws they come from are the model's choice (log 7); so are the empty ports
(log 5, log 6, log 16, log 20) and the sizes of `State.reset` (log 9). -/
def Obligations.ResetRegisters : Prop :=
  State.reset = State.resetSized 4096 4096 ∧
  ∀ dstSize srcSize : Nat,
    let s := State.resetSized dstSize srcSize
    s.sess.isOpen = false ∧ s.sess.reqid = 0#16 ∧ s.sess.tag = 0#8 ∧ s.sess.mrrs = 0#64 ∧ s.sess.dir.bit = 0#1 ∧
    s.seq.state = .idle ∧ s.seq.p = 0#64 ∧ s.seq.len = 0#64 ∧ s.seq.received = 0#64 ∧ s.seq.chunk = 0#13 ∧
    s.seq.cursor = 0#13 ∧ s.dst.size = dstSize ∧ s.src.size = srcSize ∧
    (∀ a, s.dst.byte a = Config.drawnByte 0 a) ∧ (∀ a, s.src.byte a = Config.drawnByte 1 a) ∧
    s.ports = Ports.silent

/-- The invariant holds after reset, whatever the buffer sizes. -/
def Obligations.ResetSatisfiesInvariant : Prop :=
  State.Inv State.reset ∧ ∀ dstSize srcSize : Nat, State.Inv (State.resetSized dstSize srcSize)

/-- R142, R143: the reset step, from every state. The buffers keep their sizes and every byte becomes a fresh
free byte. That the inputs still to come stay (log 16), and that the step takes the reset input away (log 26),
are the model's choices. -/
def Obligations.ResetStepClears : Prop :=
  ∀ s : State, s.ports.resetPin = true →
    ∃ t, step s = .next t ∧ t.sess = Session.reset ∧ t.seq = Sequencer.reset ∧
      t.dst.size = s.dst.size ∧ t.src.size = s.src.size ∧
      (∀ a, t.dst.byte a = Config.drawnByte s.draws a) ∧ (∀ a, t.src.byte a = Config.drawnByte (s.draws + 1) a) ∧
      t.draws = s.draws + 2 ∧ t.ports = { s.ports with resetPin := false }

/-! ### Decoding, and the step -/

/-- Words written out from the opcode map of R69 and the field tables of R51, R52 and R60. -/
def Obligations.WordsDecode : Prop :=
  decodeCommand [0x10#8] = .ok .encNettlp ∧
  decodeCommand [0x06#8, 0x01#8, 0x25#8] = .ok (.portSel 1#1 0x25#8) ∧
  decodeCommand [0x32#8, 0#8, 0#8, 0#8, 0#8, 0#8, 0#8, 0x10#8, 0x03#8, 0#8, 0#8, 0#8, 0#8, 0#8, 0#8, 0#8, 0x07#8] =
    .ok (.dmaRead 0x1003#64 7#64) ∧
  decodeDatagram [0#8, 0#8, 0#8, 0#8, 0#8, 0#8, 0x4A#8, 0#8, 0#8, 0x01#8, 0x02#8, 0#8, 0x20#8, 0x07#8, 0x01#8, 0#8,
      0x05#8, 0x03#8, 0xAA#8] =
    .ok (.cpld ⟨0#16, 0#32⟩ ⟨0#8, 0#6, 1#10, 0x200#16, 1#3, 0#1, 7#12, 0x100#16, 5#8, 0#1, 3#7⟩ [0xAA#8]) ∧
  decodeDatagram [0#8, 0#8, 0#8, 0#8, 0#8, 0#8, 0x60#8, 0#8, 0#8, 0x02#8, 0x01#8, 0#8, 0x05#8, 0x3F#8, 0#8, 0#8, 0#8,
      0x01#8, 0#8, 0#8, 0#8, 0x08#8] =
    .ok (.mwr64 ⟨0#16, 0#32⟩ ⟨0#8, 0#6, 2#10, 0x100#16, 5#8, 3#4, 0xF#4⟩ 0x100000008#64 [])

/-- Decoding an encoded well-formed instruction gives it back, every operand at every value. The layout of a
command's bytes is the model's (log 2). -/
def Obligations.DecodeEncode : Prop :=
  ∀ i : Instr, i.wellFormed = true → decode i.port (encode i) = .ok i

/-- What the decoder accepts on a port is the encoding of the instruction it answers, which is well formed and
of that port: no byte is dropped and no two byte strings share an instruction (log 2, log 4). -/
def Obligations.EncodeDecode : Prop :=
  ∀ (port : Port) (bytes : Bytes) (i : Instr), decode port bytes = .ok i →
    encode i = bytes ∧ i.port = port ∧ i.wellFormed = true

/-- A step runs the decoded instruction, once it has been taken from its port: in IDLE the command the host
presents, in RD_RECV the wire form the transport delivers. That a received datagram is an instruction is the
model's reading (log 1). -/
def Obligations.StepRunsDecodedInstruction : Prop :=
  (∀ (s : State) (image : Bytes) (rest : List HostAct) (i : Instr),
    s.ports.resetPin = false → s.seq.state = .idle → s.ports.host = .command image :: rest →
    decodeCommand image = .ok i → step s = exec i { s with ports.host := rest }) ∧
  (∀ (s : State) (d : Bytes) (rest : List RxEvent) (i : Instr),
    s.ports.resetPin = false → s.seq.state = .rdRecv → s.ports.rx = .datagram d :: rest →
    decodeDatagram d = .ok i → step s = exec i { s with ports.rx := rest })

/-- Whatever the bytes of a datagram, one that decodes to a wire form and one that does not, receiving it is
the reassembly step of R114 on those very bytes. -/
def Obligations.StepOnDatagramIsReassembly : Prop :=
  ∀ (s : State) (d : Bytes) (rest : List RxEvent),
    s.ports.resetPin = false → s.seq.state = .rdRecv → s.ports.rx = .datagram d :: rest →
    step s = rxDatagram d { s with ports.rx := rest }

/-- R133: an op byte outside the opcode map, whatever follows it. -/
def Obligations.IllegalOpRaises : Prop :=
  ∀ (s : State) (op : Byte) (a : Bytes) (rest : List HostAct),
    s.ports.resetPin = false → s.seq.state = .idle → s.ports.host = .command (op :: a) :: rest →
    op.toNat ∉ [0x01, 0x02, 0x03, 0x04, 0x05, 0x06, 0x10, 0x11, 0x12, 0x20, 0x21, 0x22, 0x23, 0x24, 0x28, 0x29,
      0x30, 0x31, 0x32, 0x33] →
    Answers (step s) { s with ports.host := rest } (errorResponse .illegalOp .badOpcode op.toNat 0)

/-- R124: the numbers of the status and cause codes. -/
def Obligations.StatusAndCauseCodes : Prop :=
  (∀ r : Result, (Response.ok r).status = 0#4) ∧
  ([ErrKind.io, .timeout, .invalidAddress, .invalidData, .invalidBdf, .precondition, .range, .state, .illegalOp].map
    fun k => k.code.toNat) = [1, 2, 3, 4, 5, 6, 7, 8, 9] ∧
  ([Cause.none, .tooShort, .badFmtType, .badStatus, .spanExceedsDatagram, .spanExceedsDest, .lengthUnderflow,
    .badByteEnable, .badOperand, .addrOverflow, .lengthOverflow, .badAlignment, .badState, .badOpcode,
    .bufferTooSmall].map fun c => c.code.toNat) = [0, 1, 2, 3, 4, 5, 6, 7, 8, 9, 10, 11, 12, 13, 14] ∧
  (∀ e : Err, (Response.error e).status = e.kind.code ∧ (Response.error e).cause? = some e.cause.code)

/-! ### Holding -/

/-- R110: in RD_RECV no command is accepted, so executing one changes nothing. That the step then answers the
same state is the model's form of a hold (log 17). -/
def Obligations.CommandsHeldDuringRead : Prop :=
  ∀ (i : Instr) (s : State), i.port = .command → s.seq.state = .rdRecv → exec i s = .next s

/-- R121: in IDLE no transport event is accepted; what the transport delivers stays with it, whatever the step
does. That executing a wire form in IDLE answers the same state is the model's form of this (log 17); that the
reset step, too, leaves the queue as it is, is the model's choice (log 16), which R142 leaves open; that CLOSE and
OPEN do is the model's choice as well (log 25), which R105 and 91_not_in_source.md N10 leave open. -/
def Obligations.EventsStayWithTransport : Prop :=
  (∀ (i : Instr) (s : State), i.port = .rx → s.seq.state = .idle → exec i s = .next s) ∧
  (∀ s t : State, s.seq.state = .idle → step s = .next t → t.ports.rx = s.ports.rx)

/-- R110: in RD_RECV the host's commands stay on the port, whatever the step does; and an idle block to which the
host has presented nothing does not change (the model's choice, log 5). That the reset step, too, leaves what the
host has still to present, is the model's choice (log 16) and not R110's. -/
def Obligations.HostHeldDuringRead : Prop :=
  (∀ s t : State, s.seq.state = .rdRecv → step s = .next t → t.ports.host = s.ports.host) ∧
  (∀ s : State, s.ports.resetPin = false → s.seq.state = .idle → s.ports.host = [] → step s = .next s)

/-- R139, decision D34: in RD_RECV every receive is answered, and by exactly one of the three events: the
transport's next, or a free event where no input gives one (log 24). The step is that event's step (R114, R116,
R117), and from a state with the invariant it answers a next state. -/
def Obligations.EveryReceiveIsAnswered : Prop :=
  ∀ s : State, s.ports.resetPin = false → s.seq.state = .rdRecv →
    ∃ (event : RxEvent) (u : State),
      ((∃ rest, s.ports.rx = event :: rest ∧ u = { s with ports.rx := rest }) ∨
       (s.ports.rx = [] ∧ event = Config.rxEvent s.draws ∧ u = { s with draws := s.draws + 1 })) ∧
      (match event with
       | .datagram d => step s = rxDatagram d u
       | .timeout => step s = fail (mkErr .timeout .none s.seq.received.toNat s.seq.cursor.toNat) u
       | .ioError => step s = fail (mkErr .io .none 2 s.seq.received.toNat) u) ∧
      (s.Inv → ∃ t, step s = .next t)

/-! ### Byte enables and alignment -/

/-- R72. -/
def Obligations.ReqidPackResult : Prop :=
  ∀ (bus dev fn : BitVec 64) (s : State), s.seq.state = .idle →
    (encode (.reqidPack bus dev fn)).head? = some 0x01#8 ∧
    if bus.toNat ≤ 255 ∧ dev.toNat ≤ 31 ∧ fn.toNat ≤ 7 then
      Answers (exec (.reqidPack bus dev fn) s) s
        (.ok (.reqid (bus.setWidth 8 ++ dev.setWidth 5 ++ fn.setWidth 3)))
    else
      Answers (exec (.reqidPack bus dev fn) s) s
        (errorResponse .precondition .badOperand (bus <<< 16 ||| dev <<< 8 ||| fn).toNat 0)

/-- R73. -/
def Obligations.CalcLengthResult : Prop :=
  ∀ (addr count : BitVec 64) (s : State), s.seq.state = .idle →
    (encode (.calcLength addr count)).head? = some 0x02#8 ∧
    if addr.toNat + count.toNat ≤ 2 ^ 64 then
      ∃ len : BitVec 63, Answers (exec (.calcLength addr count) s) s (.ok (.len len)) ∧
        len.toNat = (addr.toNat % 4 + count.toNat + 3) / 4 ∧
        len.toNat = (addr.toNat + count.toNat - (addr.toNat - addr.toNat % 4) + 3) / 4
    else
      Answers (exec (.calcLength addr count) s) s (errorResponse .range .addrOverflow addr.toNat count.toNat)

/-- R74: bit `i` is set when byte `i` of the first DW lies in the transfer. -/
def Obligations.CalcFirstbeResult : Prop :=
  ∀ (addr count : BitVec 64) (s : State), s.seq.state = .idle →
    (encode (.calcFirstbe addr count)).head? = some 0x03#8 ∧
    ∃ be : BitVec 4, Answers (exec (.calcFirstbe addr count) s) s (.ok (.be be)) ∧
      ∀ i, i < 4 → be.getLsbD i = decide (addr.toNat % 4 ≤ i ∧ i < addr.toNat % 4 + count.toNat)

/-- R75. -/
def Obligations.CalcLastbeResult : Prop :=
  ∀ (addr count : BitVec 64) (s : State), s.seq.state = .idle →
    (encode (.calcLastbe addr count)).head? = some 0x04#8 ∧
    if addr.toNat + count.toNat ≤ 2 ^ 64 then
      ∃ be : BitVec 4, Answers (exec (.calcLastbe addr count) s) s (.ok (.be be)) ∧
        ∀ i, i < 4 → be.getLsbD i = decide (2 ≤ (addr.toNat % 4 + count.toNat + 3) / 4 ∧
          ((addr.toNat + count.toNat) % 4 = 0 ∨ i < (addr.toNat + count.toNat) % 4))
    else
      Answers (exec (.calcLastbe addr count) s) s (errorResponse .range .addrOverflow addr.toNat count.toNat)

/-- R76: what CALC_LENGTH, CALC_FIRSTBE and CALC_LASTBE answer enables exactly the bytes of the transfer. -/
def Obligations.ByteEnablesCoverExactly : Prop :=
  ∀ (addr count : BitVec 64) (s : State), s.seq.state = .idle → addr.toNat + count.toNat ≤ 2 ^ 64 →
    ∃ (len : BitVec 63) (first last : BitVec 4),
      Answers (exec (.calcLength addr count) s) s (.ok (.len len)) ∧
      Answers (exec (.calcFirstbe addr count) s) s (.ok (.be first)) ∧
      Answers (exec (.calcLastbe addr count) s) s (.ok (.be last)) ∧
      ∀ x, Enabled (addr.toNat - addr.toNat % 4) len.toNat first last x ↔
        addr.toNat ≤ x ∧ x < addr.toNat + count.toNat

/-! ### Chunking -/

/-- R100. -/
def Obligations.ChunkLenResult : Prop :=
  ∀ (addr remaining mrrs : BitVec 64) (s : State), s.seq.state = .idle →
    (encode (.chunkLen addr remaining mrrs)).head? = some 0x05#8 ∧
    ∃ n : BitVec 13, Answers (exec (.chunkLen addr remaining mrrs) s) s (.ok (.chunk n)) ∧
      n.toNat = min remaining.toNat (min mrrs.toNat (0x1000 - addr.toNat % 0x1000)) ∧
      addr.toNat + n.toNat ≤ 2 ^ 64

/-- R101: the chunk is legal, it is the longest legal one, and its DW length fits the header. -/
def Obligations.ChunkLenIsLongestLegal : Prop :=
  ∀ (addr remaining mrrs : BitVec 64) (s : State), s.seq.state = .idle →
    1 ≤ remaining.toNat → 1 ≤ mrrs.toNat →
    ∃ n : BitVec 13, Answers (exec (.chunkLen addr remaining mrrs) s) s (.ok (.chunk n)) ∧
      n.toNat ≤ remaining.toNat ∧ LegalRequest mrrs.toNat addr.toNat n.toNat ∧
      (∀ m, m ≤ remaining.toNat → 1 ≤ m → m ≤ mrrs.toNat → addr.toNat / 4096 = (addr.toNat + m - 1) / 4096 →
        m ≤ n.toNat) ∧
      dwCount addr.toNat n.toNat ≤ 1024

/-- R102: the chunks of a transfer are consecutive, each is the one CHUNK_LEN gives at its place, and their
lengths sum to the length of the transfer. -/
def Obligations.ChunksPartitionTransfer : Prop :=
  ∀ addr len mrrs : Nat, 1 ≤ mrrs → addr + len ≤ 2 ^ 64 →
    ((chunks addr len mrrs).map Prod.snd).sum = len ∧ (1 ≤ len → chunks addr len mrrs ≠ []) ∧
    (len = 0 → chunks addr len mrrs = []) ∧
    ∀ (before after : List (Nat × Nat)) (p n : Nat), chunks addr len mrrs = before ++ (p, n) :: after →
      p = addr + (before.map Prod.snd).sum ∧
      n = min (len - (p - addr)) (min mrrs (0x1000 - p % 0x1000)) ∧ 1 ≤ n ∧ p + n ≤ addr + len

/-- R103. -/
def Obligations.PortSelResult : Prop :=
  ∀ (dir : BitVec 1) (tag : BitVec 8) (s : State), s.seq.state = .idle →
    (encode (.portSel dir tag)).head? = some 0x06#8 ∧
    ∃ port : BitVec 16, Answers (exec (.portSel dir tag) s) s (.ok (.port port)) ∧
      port.toNat = if dir = 0#1 then 0x3000 + tag.toNat else 0x4000 + tag.toNat % 16

/-! ### Header encoder -/

/-- R78: six zero bytes; and on receive the transport header is never examined, neither in a datagram of a wire
form nor in any other of at least six bytes. -/
def Obligations.EncNettlpResult : Prop :=
  (∀ s : State, s.seq.state = .idle →
    encode .encNettlp = [0x10#8] ∧
    Answers (exec .encNettlp s) s (.ok (.hdr [0#8, 0#8, 0#8, 0#8, 0#8, 0#8]))) ∧
  (∀ (nt nt' : NettlpHdr) (hdr : CplHdr) (head : ReqHead) (a : BitVec 32) (b : BitVec 64) (rest : Bytes) (s : State),
    exec (.cpld nt hdr rest) s = exec (.cpld nt' hdr rest) s ∧ exec (.cpl nt hdr rest) s = exec (.cpl nt' hdr rest) s ∧
    exec (.mrd32 nt head a rest) s = exec (.mrd32 nt' head a rest) s ∧
    exec (.mrd64 nt head b rest) s = exec (.mrd64 nt' head b rest) s ∧
    exec (.mwr32 nt head a rest) s = exec (.mwr32 nt' head a rest) s ∧
    exec (.mwr64 nt head b rest) s = exec (.mwr64 nt' head b rest) s ∧
    (rest.length < 12 → exec (.nettlp nt rest) s = exec (.nettlp nt' rest) s)) ∧
  (∀ (header header' d : Bytes) (rest : List RxEvent) (s : State), header.length = 6 → header'.length = 6 →
    s.ports.resetPin = false → s.seq.state = .rdRecv →
    step { s with ports.rx := .datagram (header ++ d) :: rest } =
      step { s with ports.rx := .datagram (header' ++ d) :: rest })

/-- R79: the header is that of the read form the field tables describe, behind its transport header. -/
def Obligations.EncMrdResult : Prop :=
  ∀ (reqid : BitVec 16) (tag : BitVec 8) (addr count : BitVec 64) (s : State), s.seq.state = .idle →
    (encode (.encMrd reqid tag addr count)).head? = some 0x11#8 ∧
    if 2 ^ 64 < addr.toNat + count.toNat then
      Answers (exec (.encMrd reqid tag addr count) s) s
        (errorResponse .range .addrOverflow addr.toNat count.toNat)
    else if 1024 < dwCount addr.toNat count.toNat then
      Answers (exec (.encMrd reqid tag addr count) s) s
        (errorResponse .range .lengthOverflow (dwCount addr.toNat count.toNat) count.toNat)
    else
      ∃ hdr : Bytes, Answers (exec (.encMrd reqid tag addr count) s) s (.ok (.hdr hdr)) ∧
        hdr = (encode (requestForm false reqid tag addr.toNat count.toNat [])).drop 6 ∧
        hdr.length = if addr.toNat ≤ 0xFFFFFFFF then 12 else 16

/-- R80: the header is that of the write form the field tables describe, behind its transport header. -/
def Obligations.EncMwrResult : Prop :=
  ∀ (reqid : BitVec 16) (tag : BitVec 8) (addr count : BitVec 64) (s : State), s.seq.state = .idle →
    (encode (.encMwr reqid tag addr count)).head? = some 0x12#8 ∧
    if 2 ^ 64 < addr.toNat + count.toNat then
      Answers (exec (.encMwr reqid tag addr count) s) s
        (errorResponse .range .addrOverflow addr.toNat count.toNat)
    else if 1024 < dwCount addr.toNat count.toNat then
      Answers (exec (.encMwr reqid tag addr count) s) s
        (errorResponse .range .lengthOverflow (dwCount addr.toNat count.toNat) count.toNat)
    else
      ∃ hdr : Bytes, Answers (exec (.encMwr reqid tag addr count) s) s (.ok (.hdr hdr)) ∧
        hdr = (encode (requestForm true reqid tag addr.toNat count.toNat [])).drop 6 ∧
        hdr.length = if addr.toNat ≤ 0xFFFFFFFF then 12 else 16

/-! ### Header decoder -/

/-- R88, R89: a whole header is the encoding of one byte 0 and eleven fields, and these are answered when
byte 0 is 0x4A and the status 0. -/
def Obligations.DecCplResult : Prop :=
  ∀ (buf : Bytes) (s : State), s.seq.state = .idle →
    (encode (.decCpl buf)).head? = some 0x20#8 ∧
    if buf.length < 12 then
      Answers (exec (.decCpl buf) s) s (errorResponse .invalidData .tooShort buf.length 12)
    else
      ∃ (b : Byte) (h : CplHdr), buf.take 12 = encodeCplHdr b h ∧
        if b = 0x0A#8 then Answers (exec (.decCpl buf) s) s (errorResponse .invalidAddress .none 0x0A 0)
        else if b ≠ 0x4A#8 then
          Answers (exec (.decCpl buf) s) s (errorResponse .invalidData .badFmtType b.toNat 0)
        else if h.status ≠ 0#3 then
          Answers (exec (.decCpl buf) s) s (errorResponse .invalidData .badStatus h.status.toNat 0)
        else
          Answers (exec (.decCpl buf) s) s
            (.ok (.cplFields ⟨b, h.tc, h.length, h.cplid, h.status, h.count, h.reqid, h.tag, h.lowaddr⟩))

/-- R90, R91: the length and the count field, whatever byte 0 and the status are. -/
def Obligations.CplLengthAndCountResult : Prop :=
  ∀ (buf : Bytes) (s : State), s.seq.state = .idle →
    (encode (.cplLength buf)).head? = some 0x21#8 ∧ (encode (.cplCount buf)).head? = some 0x22#8 ∧
    if buf.length < 12 then
      Answers (exec (.cplLength buf) s) s (errorResponse .invalidData .tooShort buf.length 12) ∧
      Answers (exec (.cplCount buf) s) s (errorResponse .invalidData .tooShort buf.length 12)
    else
      ∃ (b : Byte) (h : CplHdr), buf.take 12 = encodeCplHdr b h ∧
        Answers (exec (.cplLength buf) s) s (.ok (.length h.length)) ∧
        Answers (exec (.cplCount buf) s) s (.ok (.count h.count))

/-- R92. -/
def Obligations.CplIsLastResult : Prop :=
  ∀ (buf : Bytes) (s : State), s.seq.state = .idle →
    (encode (.cplIsLast buf)).head? = some 0x23#8 ∧
    if buf.length < 12 then
      Answers (exec (.cplIsLast buf) s) s (errorResponse .invalidData .tooShort buf.length 12)
    else
      ∃ (b : Byte) (h : CplHdr), buf.take 12 = encodeCplHdr b h ∧
        Answers (exec (.cplIsLast buf) s) s
          (.ok (.last (decide (h.length.toNat = (h.lowaddr.toNat % 4 + h.count.toNat + 3) / 4))))

/-- R93. -/
def Obligations.CplSpanResult : Prop :=
  ∀ (buf : Bytes) (dgramLen space : BitVec 64) (s : State), s.seq.state = .idle →
    (encode (.cplSpan buf dgramLen space)).head? = some 0x24#8 ∧
    if buf.length < 12 then
      Answers (exec (.cplSpan buf dgramLen space) s) s (errorResponse .invalidData .tooShort buf.length 12)
    else
      ∃ (b : Byte) (h : CplHdr), buf.take 12 = encodeCplHdr b h ∧
        let offset := h.lowaddr.toNat % 4
        let size := min h.count.toNat (h.length.toNat * 4 - offset)
        if h.length.toNat * 4 < offset then
          Answers (exec (.cplSpan buf dgramLen space) s) s
            (errorResponse .invalidData .lengthUnderflow h.length.toNat offset)
        else if dgramLen.toNat < 18 + offset + size then
          Answers (exec (.cplSpan buf dgramLen space) s) s
            (errorResponse .invalidData .spanExceedsDatagram (18 + offset + size) dgramLen.toNat)
        else if space.toNat < size then
          Answers (exec (.cplSpan buf dgramLen space) s) s
            (errorResponse .invalidData .spanExceedsDest size space.toNat)
        else
          ∃ (a : BitVec 64) (n : BitVec 13), Answers (exec (.cplSpan buf dgramLen space) s) s (.ok (.span a n)) ∧
            a.toNat = 18 + offset ∧ n.toNat = size

/-- R96: the header is the encoding of byte 0, seven fields and an address of its width. -/
def Obligations.DecReqResult : Prop :=
  ∀ (buf : Bytes) (s : State), s.seq.state = .idle →
    (encode (.decReq buf)).head? = some 0x28#8 ∧
    match requestHeaderError buf with
    | some r => Answers (exec (.decReq buf) s) s r
    | none =>
      ∃ (b : Byte) (h : ReqHead) (a : BitVec 64), IsRequestHeader buf b h a ∧
        Answers (exec (.decReq buf) s) s
          (.ok (.reqFields ⟨b, b = 0x40#8 || b = 0x60#8, b = 0x20#8 || b = 0x60#8, h.tc, h.flags, h.length, h.reqid,
            h.tag, h.lastbe, h.firstbe, a⟩))

/-- R97: the range whose byte enables the header carries, `BadByteEnable` when there is none. -/
def Obligations.ReqSpanResult : Prop :=
  ∀ (buf : Bytes) (s : State), s.seq.state = .idle →
    (encode (.reqSpan buf)).head? = some 0x29#8 ∧
    match requestHeaderError buf with
    | some r => Answers (exec (.reqSpan buf) s) s r
    | none =>
      ∃ (b : Byte) (h : ReqHead) (a : BitVec 64), IsRequestHeader buf b h a ∧
        (∀ lead n, SpanOf h lead n →
          ∃ (first : BitVec 64) (count : BitVec 13), Answers (exec (.reqSpan buf) s) s (.ok (.range first count)) ∧
            first.toNat = a.toNat - a.toNat % 4 + lead ∧ count.toNat = n) ∧
        ((∀ lead n, ¬ SpanOf h lead n) →
          Answers (exec (.reqSpan buf) s) s
            (errorResponse .invalidData .badByteEnable h.firstbe.toNat h.lastbe.toNat))

/-- R98: encoding a request and decoding it again gives back the operands; REQ_SPAN gives the exact range of
bytes, the DW-aligned address alone when the range is empty. -/
def Obligations.RequestHeaderRoundTrip : Prop :=
  ∀ (write : Bool) (reqid : BitVec 16) (tag : BitVec 8) (addr count : BitVec 64) (hdr : Bytes) (s : State),
    s.seq.state = .idle →
    Answers (exec (if write then .encMwr reqid tag addr count else .encMrd reqid tag addr count) s) s
      (.ok (.hdr hdr)) →
    ∃ (f : ReqFields) (first : BitVec 64) (n : BitVec 13),
      Answers (exec (.decReq hdr) s) s (.ok (.reqFields f)) ∧
      Answers (exec (.reqSpan hdr) s) s (.ok (.range first n)) ∧
      f.write = write ∧ f.is64 = decide (0xFFFFFFFF < addr.toNat) ∧ f.tc = 0#8 ∧ f.flags = 0#6 ∧
      f.reqid = reqid ∧ f.tag = tag ∧ f.address.toNat = addr.toNat - addr.toNat % 4 ∧
      f.length.toNat = dwCount addr.toNat count.toNat % 1024 ∧
      n.toNat = count.toNat ∧
      first.toNat = if count = 0#64 then addr.toNat - addr.toNat % 4 else addr.toNat

/-- R13, R135 (a): a command with op byte up to 0x29 answers one response, the same in every IDLE state, and
changes nothing else. -/
def Obligations.PureCommandsTouchNothing : Prop :=
  ∀ i : Instr, i.port = .command → ((encode i).headD 0#8).toNat ≤ 0x29 →
    ∃ r : Response, ∀ s : State, s.seq.state = .idle → Answers (exec i s) s r

/-! ### The session -/

/-- R104. The transport's answer is the next input, or a free value (log 6). That what the transport has still to
deliver stays is the model's choice (log 25), which 91_not_in_source.md N10 leaves open. -/
def Obligations.OpenResult : Prop :=
  ∀ (reqid tag mrrs dir : BitVec 64) (s : State), s.seq.state = .idle →
    (encode (.openSession reqid tag mrrs dir)).head? = some 0x30#8 ∧
    if s.sess.isOpen = true then
      Answers (exec (.openSession reqid tag mrrs dir) s) s (errorResponse .state .badState 1 0)
    else if 0xFFFF < reqid.toNat then
      Answers (exec (.openSession reqid tag mrrs dir) s) s (errorResponse .precondition .badOperand 0 reqid.toNat)
    else if 0xFF < tag.toNat then
      Answers (exec (.openSession reqid tag mrrs dir) s) s (errorResponse .precondition .badOperand 1 tag.toNat)
    else if mrrs = 0#64 then
      Answers (exec (.openSession reqid tag mrrs dir) s) s (errorResponse .precondition .badOperand 2 0)
    else if 1 < dir.toNat then
      Answers (exec (.openSession reqid tag mrrs dir) s) s (errorResponse .precondition .badOperand 3 dir.toNat)
    else
      let port := if dir = 0#64 then 0x3000 + tag.toNat else 0x4000 + tag.toNat % 16
      let asked := record (.opened port s.nextAnswer) s.answerUsed
      match s.nextAnswer with
      | .ioError => Answers (exec (.openSession reqid tag mrrs dir) s) asked (errorResponse .io .none 0 port)
      | .ok =>
        Answers (exec (.openSession reqid tag mrrs dir) s)
          { asked with
            sess :=
              { isOpen := true, reqid := reqid.setWidth 16, tag := tag.setWidth 8, mrrs := mrrs,
                dir := if dir = 0#64 then .issuedByCore else .issuedByAdapter } }
          (.ok (.port (BitVec.ofNat 16 port)))

/-- R105. That what the transport has still to deliver stays, too, is the model's choice (log 25): R105 and
91_not_in_source.md N10 leave it open. -/
def Obligations.CloseResult : Prop :=
  ∀ s : State, s.seq.state = .idle →
    encode .closeSession = [0x31#8] ∧
    if s.sess.isOpen = true then
      Answers (exec .closeSession s)
        { s with
          sess := { isOpen := false, reqid := 0#16, tag := 0#8, mrrs := 0#64, dir := .issuedByCore }
          ports.transport := s.ports.transport ++ [.closed] }
        (.ok .done)
    else Answers (exec .closeSession s) s (errorResponse .state .badState 0 0)

/-- R106: the command step of a read that is refused, or has nothing to do, changes nothing. -/
def Obligations.DmaReadRefused : Prop :=
  ∀ (addr len : BitVec 64) (s : State), s.seq.state = .idle →
    (s.sess.isOpen = false →
      Answers (exec (.dmaRead addr len) s) s (errorResponse .state .badState 0 0)) ∧
    (s.sess.isOpen = true → len = 0#64 → Answers (exec (.dmaRead addr len) s) s (.ok .done)) ∧
    (s.sess.isOpen = true → len ≠ 0#64 → 2 ^ 64 < addr.toNat + len.toNat →
      Answers (exec (.dmaRead addr len) s) s (errorResponse .range .addrOverflow addr.toNat len.toNat)) ∧
    (s.sess.isOpen = true → len ≠ 0#64 → addr.toNat + len.toNat ≤ 2 ^ 64 → s.dst.size < len.toNat →
      Answers (exec (.dmaRead addr len) s) s (errorResponse .range .bufferTooSmall len.toNat s.dst.size))

/-- R106, R107: a read that starts emits the request for its first chunk. If the transport takes it the block
waits in RD_RECV and gives no response yet; if not, the read fails (R118). -/
def Obligations.DmaReadStarts : Prop :=
  ∀ (addr len : BitVec 64) (s : State), s.seq.state = .idle → s.sess.isOpen = true → len ≠ 0#64 →
    addr.toNat + len.toNat ≤ 2 ^ 64 → len.toNat ≤ s.dst.size →
    let n := min len.toNat (min s.sess.mrrs.toNat (0x1000 - addr.toNat % 0x1000))
    let asked := record (.sent (requestDatagram s.sess false addr.toNat n []) s.nextAnswer) s.answerUsed
    let q : Sequencer :=
      { state := .rdRecv, p := addr, len := len, received := 0#64, chunk := BitVec.ofNat 13 n, cursor := 0#13 }
    match s.nextAnswer with
    | .ok => exec (.dmaRead addr len) s = .next { asked with seq := q }
    | .ioError => FailsRead (exec (.dmaRead addr len) s) { asked with seq := q } (errorResponse .io .none 1 0)

/-- R108: the refusals of a write, in their order; nothing is emitted and nothing changes. -/
def Obligations.DmaWriteRefused : Prop :=
  ∀ (addr len : BitVec 64) (s : State), s.seq.state = .idle →
    (s.sess.isOpen = false →
      Answers (exec (.dmaWrite addr len) s) s (errorResponse .state .badState 0 0)) ∧
    (s.sess.isOpen = true → (addr.toNat % 4 ≠ 0 ∨ len.toNat % 4 ≠ 0) →
      Answers (exec (.dmaWrite addr len) s) s
        (errorResponse .precondition .badAlignment addr.toNat len.toNat)) ∧
    (s.sess.isOpen = true → addr.toNat % 4 = 0 → len.toNat % 4 = 0 → s.sess.mrrs.toNat % 4 ≠ 0 →
      Answers (exec (.dmaWrite addr len) s) s
        (errorResponse .precondition .badOperand 2 s.sess.mrrs.toNat)) ∧
    (s.sess.isOpen = true → addr.toNat % 4 = 0 → len.toNat % 4 = 0 → s.sess.mrrs.toNat % 4 = 0 →
      2 ^ 64 < addr.toNat + len.toNat →
      Answers (exec (.dmaWrite addr len) s) s (errorResponse .range .addrOverflow addr.toNat len.toNat)) ∧
    (s.sess.isOpen = true → addr.toNat % 4 = 0 → len.toNat % 4 = 0 → s.sess.mrrs.toNat % 4 = 0 →
      addr.toNat + len.toNat ≤ 2 ^ 64 → s.src.size < len.toNat →
      Answers (exec (.dmaWrite addr len) s) s (errorResponse .range .bufferTooSmall len.toNat s.src.size))

/-- R108: when the transport takes every datagram, a write emits one request for each chunk, in order, each
carrying its slice of SRC, answers OK and changes no register and no byte of a buffer. -/
def Obligations.DmaWriteEmitsChunks : Prop :=
  ∀ (addr len : BitVec 64) (s : State) (more : List TxAnswer), s.seq.state = .idle → CanWrite addr len s →
    s.ports.txAnswers = List.replicate (chunks addr.toNat len.toNat s.sess.mrrs.toNat).length .ok ++ more →
    Answers (exec (.dmaWrite addr len) s)
      { s with
        ports.txAnswers := more
        ports.transport := s.ports.transport ++
          (chunks addr.toNat len.toNat s.sess.mrrs.toNat).map fun c => .sent (writeDatagram s addr.toNat c) .ok }
      (.ok .done)

/-- R108: when the transport refuses the request of a chunk, the write stops there with ErrIo and the number of
bytes handed over; what was emitted stays emitted. -/
def Obligations.DmaWriteStopsAtFailure : Prop :=
  ∀ (addr len : BitVec 64) (s : State) (done todo : List (Nat × Nat)) (p n : Nat) (more : List TxAnswer),
    s.seq.state = .idle → CanWrite addr len s →
    chunks addr.toNat len.toNat s.sess.mrrs.toNat = done ++ (p, n) :: todo →
    s.ports.txAnswers = List.replicate done.length .ok ++ .ioError :: more →
    Answers (exec (.dmaWrite addr len) s)
      { s with
        ports.txAnswers := more
        ports.transport := s.ports.transport ++
          (done.map fun c => .sent (writeDatagram s addr.toNat c) .ok) ++
          [.sent (writeDatagram s addr.toNat (p, n)) .ioError] }
      (errorResponse .io .none 1 (p - addr.toNat))

/-- R108, R112: whatever the transport answers, a write is one step with one response, OK or ErrIo, and leaves
every register and every byte of both buffers. -/
def Obligations.DmaWriteAnswers : Prop :=
  ∀ (addr len : BitVec 64) (s : State), s.seq.state = .idle → CanWrite addr len s →
    ∃ (t : State) (r : Response), exec (.dmaWrite addr len) s = .next t ∧
      t.sess = s.sess ∧ t.seq = s.seq ∧ t.dst = s.dst ∧ t.src = s.src ∧
      t.ports.responses = s.ports.responses ++ [r] ∧
      (r = .ok .done ∨ ∃ sent, r = errorResponse .io .none 1 sent ∧ sent < len.toNat ∧ sent % 4 = 0)

/-- R109: a typed write of a value whose size is not a multiple of 4 cannot succeed, at any address: the host's
write of SRC and the command are two steps, and the second is refused. It speaks of a run in which the reset input
is not asserted (the model's choice, log 26). -/
def Obligations.TypedWriteNeedsWholeDws : Prop :=
  ∀ (a : BitVec 64) (value : Bytes) (rest : List HostAct) (s : State),
    s.ports.resetPin = false → s.seq.state = .idle → s.sess.isOpen = true →
    s.ports.host = writeT a value ++ rest → value.length ≤ s.src.size → value.length < 2 ^ 64 →
    value.length % 4 ≠ 0 →
    Host.Core.run Sys2Proof.core 2 s =
      .next (respond (errorResponse .precondition .badAlignment a.toNat value.length)
        { s with src := s.src.write 0 value, ports.host := rest })

/-! ### The wire forms received (R114) -/

/-- R114 step 4, R67: a request is no completion. Received while a read is in progress, it ends the read as a
malformed datagram, with byte 0 as found; and so does every datagram of at least 18 bytes whose header starts
with neither 0x4A nor 0x0A, those that are no wire form among them. -/
def Obligations.RequestReceivedFails : Prop :=
  (∀ (nt : NettlpHdr) (head : ReqHead) (a : BitVec 32) (b : BitVec 64) (rest : Bytes) (s : State),
    s.seq.state = .rdRecv → s.seq.len.toNat ≤ s.dst.size →
    FailsRead (exec (.mrd32 nt head a rest) s) s (errorResponse .invalidData .badFmtType 0x00 0) ∧
    FailsRead (exec (.mrd64 nt head b rest) s) s (errorResponse .invalidData .badFmtType 0x20 0) ∧
    FailsRead (exec (.mwr32 nt head a rest) s) s (errorResponse .invalidData .badFmtType 0x40 0) ∧
    FailsRead (exec (.mwr64 nt head b rest) s) s (errorResponse .invalidData .badFmtType 0x60 0)) ∧
  (∀ (s : State) (d : Bytes) (rest : List RxEvent), s.ports.resetPin = false → s.seq.state = .rdRecv →
    s.ports.rx = .datagram d :: rest → s.seq.len.toNat ≤ s.dst.size → 18 ≤ d.length →
    byteAt d 6 ≠ 0x4A#8 → byteAt d 6 ≠ 0x0A#8 →
    FailsRead (step s) { s with ports.rx := rest }
      (errorResponse .invalidData .badFmtType (byteAt d 6).toNat 0))

/-- R95: a completion without data ends the read with ErrInvalidAddress, whatever its other fields. -/
def Obligations.CplReceivedFails : Prop :=
  ∀ (nt : NettlpHdr) (hdr : CplHdr) (rest : Bytes) (s : State), s.seq.state = .rdRecv →
    s.seq.len.toNat ≤ s.dst.size →
    FailsRead (exec (.cpl nt hdr rest) s) s (errorResponse .invalidAddress .none 0x0A 0)

/-- R114 step 2: a transport header without a whole completion header behind it ends the read as TooShort; and so
does every datagram below 18 bytes, the empty one among them. -/
def Obligations.NettlpReceivedFails : Prop :=
  (∀ (nt : NettlpHdr) (rest : Bytes) (s : State), s.seq.state = .rdRecv → s.seq.len.toNat ≤ s.dst.size →
    rest.length < 12 →
    FailsRead (exec (.nettlp nt rest) s) s (errorResponse .invalidData .tooShort (6 + rest.length) 18)) ∧
  (∀ (s : State) (d : Bytes) (rest : List RxEvent), s.ports.resetPin = false → s.seq.state = .rdRecv →
    s.ports.rx = .datagram d :: rest → s.seq.len.toNat ≤ s.dst.size → d.length < 18 →
    FailsRead (step s) { s with ports.rx := rest } (errorResponse .invalidData .tooShort d.length 18))

/-- R114 steps 5 to 7: the completions with data that end the read, in the order of the checks. -/
def Obligations.CpldRefused : Prop :=
  ∀ (nt : NettlpHdr) (hdr : CplHdr) (rest : Bytes) (s : State), s.Inv → s.seq.state = .rdRecv →
    let offset := hdr.lowaddr.toNat % 4
    let size := min hdr.count.toNat (hdr.length.toNat * 4 - offset)
    let space := s.seq.chunk.toNat - s.seq.cursor.toNat
    (hdr.status ≠ 0#3 →
      FailsRead (exec (.cpld nt hdr rest) s) s (errorResponse .invalidData .badStatus hdr.status.toNat 0)) ∧
    (hdr.status = 0#3 → hdr.length.toNat * 4 < offset →
      FailsRead (exec (.cpld nt hdr rest) s) s
        (errorResponse .invalidData .lengthUnderflow hdr.length.toNat offset)) ∧
    (hdr.status = 0#3 → offset ≤ hdr.length.toNat * 4 → rest.length < offset + size →
      FailsRead (exec (.cpld nt hdr rest) s) s
        (errorResponse .invalidData .spanExceedsDatagram (18 + offset + size) (18 + rest.length))) ∧
    (hdr.status = 0#3 → offset ≤ hdr.length.toNat * 4 → offset + size ≤ rest.length → space < size →
      FailsRead (exec (.cpld nt hdr rest) s) s (errorResponse .invalidData .spanExceedsDest size space))

/-- R114 steps 8 and 9: a fragment that is accepted and is not the last is copied into the window at the
cursor; nothing else changes and no response is given. -/
def Obligations.CpldFragmentCopied : Prop :=
  ∀ (nt : NettlpHdr) (hdr : CplHdr) (rest : Bytes) (s : State), s.Inv → s.seq.state = .rdRecv →
    Accepted hdr rest s →
    hdr.length.toNat ≠ (hdr.lowaddr.toNat % 4 + hdr.count.toNat + 3) / 4 →
    ∃ dst : Buffer,
      exec (.cpld nt hdr rest) s =
        .next { s with dst := dst, seq.cursor := BitVec.ofNat 13 (s.seq.cursor.toNat + spanSize hdr) } ∧
      HoldsSpan hdr rest s dst

/-- R114 step 9, R115: the last fragment of the last chunk is copied and ends the read with OK. Of SEQ.p it is
said only what has a 64-bit value (log 11). -/
def Obligations.CpldLastFinishes : Prop :=
  ∀ (nt : NettlpHdr) (hdr : CplHdr) (rest : Bytes) (s : State), s.Inv → s.seq.state = .rdRecv →
    Accepted hdr rest s →
    hdr.length.toNat = (hdr.lowaddr.toNat % 4 + hdr.count.toNat + 3) / 4 →
    s.seq.received.toNat + s.seq.chunk.toNat = s.seq.len.toNat →
    ∃ t : State, exec (.cpld nt hdr rest) s = .next t ∧ HoldsSpan hdr rest s t.dst ∧
      t.seq.state = .idle ∧ t.seq.len = s.seq.len ∧ t.seq.received = s.seq.len ∧ t.seq.chunk = s.seq.chunk ∧
      t.seq.cursor = BitVec.ofNat 13 (s.seq.cursor.toNat + spanSize hdr) ∧
      (s.seq.p.toNat + s.seq.chunk.toNat < 2 ^ 64 → t.seq.p.toNat = s.seq.p.toNat + s.seq.chunk.toNat) ∧
      t.sess = s.sess ∧ t.src = s.src ∧
      t.ports = { s.ports with responses := s.ports.responses ++ [.ok .done] }

/-- R114 step 9, R115, R107: the last fragment of a chunk that is not the last is copied, and the request for
the next chunk is emitted, `SEQ.chunk` bytes on whatever the cursor is. If the transport takes it the block
waits on; if not, the read fails. -/
def Obligations.CpldLastRequestsNext : Prop :=
  ∀ (nt : NettlpHdr) (hdr : CplHdr) (rest : Bytes) (s : State), s.Inv → s.seq.state = .rdRecv →
    Accepted hdr rest s →
    hdr.length.toNat = (hdr.lowaddr.toNat % 4 + hdr.count.toNat + 3) / 4 →
    s.seq.received.toNat + s.seq.chunk.toNat < s.seq.len.toNat →
    let p := s.seq.p.toNat + s.seq.chunk.toNat
    let received := s.seq.received.toNat + s.seq.chunk.toNat
    let n := min (s.seq.len.toNat - received) (min s.sess.mrrs.toNat (0x1000 - p % 0x1000))
    let asked := record (.sent (requestDatagram s.sess false p n []) s.nextAnswer) s.answerUsed
    ∃ dst : Buffer, HoldsSpan hdr rest s dst ∧
      let u : State :=
        { asked with
          dst := dst
          seq :=
            { state := .rdRecv, p := BitVec.ofNat 64 p, len := s.seq.len, received := BitVec.ofNat 64 received,
              chunk := BitVec.ofNat 13 n, cursor := 0#13 } }
      match s.nextAnswer with
      | .ok => exec (.cpld nt hdr rest) s = .next u
      | .ioError => FailsRead (exec (.cpld nt hdr rest) s) u (errorResponse .io .none 1 received)

/-- R116. -/
def Obligations.TimeoutFailsRead : Prop :=
  ∀ (s : State) (rest : List RxEvent), s.ports.resetPin = false → s.seq.state = .rdRecv →
    s.ports.rx = .timeout :: rest → s.seq.len.toNat ≤ s.dst.size →
    FailsRead (step s) { s with ports.rx := rest }
      (errorResponse .timeout .none s.seq.received.toNat s.seq.cursor.toNat)

/-- R117. -/
def Obligations.IoErrorFailsRead : Prop :=
  ∀ (s : State) (rest : List RxEvent), s.ports.resetPin = false → s.seq.state = .rdRecv →
    s.ports.rx = .ioError :: rest → s.seq.len.toNat ≤ s.dst.size →
    FailsRead (step s) { s with ports.rx := rest } (errorResponse .io .none 2 s.seq.received.toNat)

/-! ### The host's access to the buffers -/

/-- R23: in IDLE the host's write of DST or SRC changes the bytes written and nothing else; a write past the
end stops by name (log 14). -/
def Obligations.HostWritesBuffers : Prop :=
  ∀ (s : State) (a : Nat) (bs : Bytes) (rest : List HostAct), s.ports.resetPin = false → s.seq.state = .idle →
    bs ≠ [] →
    (s.ports.host = .writeDst a bs :: rest → a + bs.length ≤ s.dst.size →
      ∃ b : Buffer, step s = .next { s with dst := b, ports.host := rest } ∧ WritesBytes s.dst a bs b) ∧
    (s.ports.host = .writeDst a bs :: rest → s.dst.size < a + bs.length →
      step s = .fault .hostOutsideBuffer) ∧
    (s.ports.host = .writeSrc a bs :: rest → a + bs.length ≤ s.src.size →
      ∃ b : Buffer, step s = .next { s with src := b, ports.host := rest } ∧ WritesBytes s.src a bs b) ∧
    (s.ports.host = .writeSrc a bs :: rest → s.src.size < a + bs.length →
      step s = .fault .hostOutsideBuffer)

/-! ### Properties of every step -/

/-- Every step keeps the invariant, from every state that has it. -/
def Obligations.StepKeepsInvariant : Prop :=
  ∀ s t : State, s.Inv → step s = .next t → t.Inv

/-- R7: from a state with the invariant a step always answers a next state, but for two stops that lie with the
host: a write outside a buffer and a byte string that is no command. -/
def Obligations.OnlyTheHostCanStopTheBlock : Prop :=
  ∀ s : State, s.Inv →
    (∃ t, step s = .next t) ∨ step s = .fault .hostOutsideBuffer ∨ step s = .refused .notACommand

/-- What no instruction changes: SRC, the size of DST, the inputs still to come. It gives at most one response,
and what was asked of the transport before stays on record. That CLOSE and OPEN, too, leave what the transport
has still to deliver is the model's choice (log 25). -/
def Obligations.InstructionFrame : Prop :=
  ∀ (i : Instr) (s t : State), exec i s = .next t →
    t.src = s.src ∧ t.dst.size = s.dst.size ∧ t.ports.host = s.ports.host ∧ t.ports.rx = s.ports.rx ∧
    t.ports.resetPin = s.ports.resetPin ∧
    (t.ports.responses = s.ports.responses ∨ ∃ r, t.ports.responses = s.ports.responses ++ [r]) ∧
    ∃ acts, t.ports.transport = s.ports.transport ++ acts

/-- R27: an open session changes only by reset or by CLOSE, and then to the reset values; a closed one only by
OPEN. -/
def Obligations.SessionIsImmutable : Prop :=
  ∀ s t : State, s.ports.resetPin = false → step s = .next t → t.sess ≠ s.sess →
    s.seq.state = .idle ∧
    ((s.sess.isOpen = true ∧ t.sess = Session.reset ∧ ∃ rest, s.ports.host = .command [0x31#8] :: rest) ∨
     (s.sess.isOpen = false ∧ t.sess.isOpen = true ∧
        ∃ image rest, s.ports.host = .command (0x30#8 :: image) :: rest))

/-- R150, R120, R23: whatever the transport delivers, a step of a read changes no byte of DST outside the
window of the outstanding chunk, or, where it ends in an error response, outside [0, SEQ.len). -/
def Obligations.WritesStayInWindow : Prop :=
  ∀ s t : State, s.Inv → s.ports.resetPin = false → s.seq.state = .rdRecv → step s = .next t →
    ∀ a, (a < s.seq.received.toNat ∨ s.seq.received.toNat + s.seq.chunk.toNat ≤ a) →
      t.dst.byte a = s.dst.byte a ∨
        (a < s.seq.len.toNat ∧ ∃ e, t.ports.responses = s.ports.responses ++ [.error e])

/-- R38: every datagram any step emits is a request of the open session for a range that is not empty, no
longer than MRRS, inside one page and inside the address space; a write is DW-aligned and carries exactly its
bytes, a read carries none. -/
def Obligations.EmittedRequestsAreLegal : Prop :=
  ∀ s t : State, s.Inv → step s = .next t →
    ∃ acts, t.ports.transport = s.ports.transport ++ acts ∧
      ∀ d answer, TransportAct.sent d answer ∈ acts →
        s.sess.isOpen = true ∧
        ∃ (write : Bool) (p n : Nat) (payload : Bytes),
          d = requestDatagram s.sess write p n payload ∧ LegalRequest s.sess.mrrs.toNat p n ∧
          (write = true → p % 4 = 0 ∧ n % 4 = 0 ∧ payload.length = n) ∧ (write = false → payload = [])

/-- R111, R122: a read whose requests a well-behaved completer answers, with a transport that takes every
request, ends with OK after one step for the command and one for each fragment; DST[0 .. len) then holds the
remote bytes in order, the rest of DST is unchanged, and the requests are those of the chunks, in order. It speaks
of a run in which the reset input is not asserted: none of its steps asserts it, by the model's choice (log 26). -/
def Obligations.ConformingReadDelivers : Prop :=
  ∀ (remote : Nat → Byte) (addr len : BitVec 64) (s : State) (fragments : List Bytes) (hostRest : List HostAct)
    (rxRest : List RxEvent) (answers : List TxAnswer),
    s.Inv → s.ports.resetPin = false → s.seq.state = .idle → s.sess.isOpen = true →
    len ≠ 0#64 → addr.toNat + len.toNat ≤ 2 ^ 64 → len.toNat ≤ s.dst.size →
    s.ports.host = .command (encode (.dmaRead addr len)) :: hostRest →
    s.ports.rx = fragments.map .datagram ++ rxRest →
    s.ports.txAnswers = List.replicate (chunks addr.toNat len.toNat s.sess.mrrs.toNat).length .ok ++ answers →
    ConformingAnswers remote (chunks addr.toNat len.toNat s.sess.mrrs.toNat) fragments →
    ∃ t : State, Host.Core.run Sys2Proof.core (1 + fragments.length) s = .next t ∧
      t.seq.state = .idle ∧ t.sess = s.sess ∧ t.src = s.src ∧ t.dst.size = s.dst.size ∧
      (∀ i, i < len.toNat → t.dst.byte i = remote (addr.toNat + i)) ∧
      (∀ i, len.toNat ≤ i → t.dst.byte i = s.dst.byte i) ∧
      t.ports =
        { s.ports with
          host := hostRest
          rx := rxRest
          txAnswers := answers
          responses := s.ports.responses ++ [.ok .done]
          transport := s.ports.transport ++
            (chunks addr.toNat len.toNat s.sess.mrrs.toNat).map fun c =>
              .sent (requestDatagram s.sess false c.1 c.2 []) .ok }
end

