-- ==== Sys2Proof/Laws/Bytes.lean ====
section
/-! SUPPORT. Byte strings: lengths, positions, and the number a big-endian field holds. -/

namespace Sys2Proof

@[simp] theorem be16_length (v : BitVec 16) : (be16 v).length = 2 := rfl
@[simp] theorem be32_length (v : BitVec 32) : (be32 v).length = 4 := rfl
@[simp] theorem be64_length (v : BitVec 64) : (be64 v).length = 8 := rfl
@[simp] theorem zeros_length (n : Nat) : (zeros n).length = n := by simp [zeros]

@[simp] theorem byteAt_zero (b : Byte) (s : Bytes) : byteAt (b :: s) 0 = b := rfl
@[simp] theorem byteAt_succ (b : Byte) (s : Bytes) (i : Nat) : byteAt (b :: s) (i + 1) = byteAt s i := rfl

theorem byteAt_append_left (s t : Bytes) (i : Nat) (h : i < s.length) : byteAt (s ++ t) i = byteAt s i := by
  simp [byteAt, List.getElem?_append_left h]

theorem byteAt_append_right (s t : Bytes) (i : Nat) : byteAt (s ++ t) (s.length + i) = byteAt t i := by
  simp [byteAt, List.getElem?_append_right]

theorem byteAt_drop (s : Bytes) (k i : Nat) : byteAt (s.drop k) i = byteAt s (k + i) := by
  simp [byteAt]

theorem u16be_append_right (s t : Bytes) (i : Nat) : u16be (s ++ t) (s.length + i) = u16be t i := by
  simp only [u16be, byteAt_append_right, Nat.add_assoc]

theorem u32be_append_right (s t : Bytes) (i : Nat) : u32be (s ++ t) (s.length + i) = u32be t i := by
  simp only [u32be, u16be_append_right, Nat.add_assoc]

theorem u64be_append_right (s t : Bytes) (i : Nat) : u64be (s ++ t) (s.length + i) = u64be t i := by
  simp only [u64be, u32be_append_right, Nat.add_assoc]

/-- A 16-bit field reads as the number it holds. -/
theorem u16be_be16 (v : BitVec 16) (t : Bytes) : u16be (be16 v ++ t) 0 = v.toNat := by
  have := v.isLt
  simp [u16be, be16, BitVec.extractLsb'_toNat, Nat.shiftRight_eq_div_pow]
  omega

/-- A 32-bit field reads as the number it holds. -/
theorem u32be_be32 (v : BitVec 32) (t : Bytes) : u32be (be32 v ++ t) 0 = v.toNat := by
  have := v.isLt
  simp [u32be, u16be, be32, BitVec.extractLsb'_toNat, Nat.shiftRight_eq_div_pow]
  omega

/-- A 64-bit field reads as the number it holds. -/
theorem u64be_be64 (v : BitVec 64) (t : Bytes) : u64be (be64 v ++ t) 0 = v.toNat := by
  have := v.isLt
  have h1 := u32be_be32 (v.extractLsb' 32 32) (be32 (v.extractLsb' 0 32) ++ t)
  have h2 := u32be_append_right (be32 (v.extractLsb' 32 32)) (be32 (v.extractLsb' 0 32) ++ t) 0
  rw [u32be_be32] at h2
  simp only [be32_length] at h2
  rw [u64be, be64, List.append_assoc, h1, h2]
  simp only [BitVec.extractLsb'_toNat, Nat.shiftRight_eq_div_pow]
  omega

theorem operand64_be64 (v : BitVec 64) (t : Bytes) : operand64 (be64 v ++ t) 0 = v := by
  simp [operand64, u64be_be64]

theorem operand16_be16 (v : BitVec 16) (t : Bytes) : operand16 (be16 v ++ t) 0 = v := by
  simp [operand16, u16be_be16]

theorem operand64_append_right (s t : Bytes) (i : Nat) : operand64 (s ++ t) (s.length + i) = operand64 t i := by
  simp only [operand64, u64be_append_right]

/-! ### Headers -/

@[simp] theorem encodeNettlp_length (nt : NettlpHdr) : (encodeNettlp nt).length = 6 := rfl
@[simp] theorem encodeReqHead_length (f : Byte) (h : ReqHead) : (encodeReqHead f h).length = 8 := rfl
@[simp] theorem encodeCplHdr_length (f : Byte) (h : CplHdr) : (encodeCplHdr f h).length = 12 := rfl

/-- Two halves of a bit vector, joined again. -/
theorem extract_append {a b : Nat} (x : BitVec a) (y : BitVec b) :
    (x ++ y).extractLsb' b a = x ∧ (x ++ y).extractLsb' 0 b = y := by
  constructor
  · ext i hi
    simp [BitVec.getLsbD_append, hi]
  · ext i hi
    simp [BitVec.getLsbD_append, hi]

end Sys2Proof
end

