-- ==== Sys2Proof/Laws/Fields.lean ====
section
/-! SUPPORT. The arithmetic functions bit by bit, and the fields of a header the encoder has written. -/

namespace Sys2Proof.Machine

/-! ### Arithmetic -/

/-- The two forms R73 gives of the DW length. -/
theorem dwLength_eq (addr count : Nat) : dwLength addr count = dwCount addr count := by
  simp only [dwLength, dwCount, ceil4, align4, lowTwo, Nat.shiftRight_eq_div_pow]
  omega

/-- Bit `i` of the first nibble: byte `i` of the first DW lies in the transfer. -/
theorem firstbe_bit (addr count i : Nat) (hi : i < 4) :
    (firstbe addr count).getLsbD i = decide (addr % 4 ≤ i ∧ i < addr % 4 + count) := by
  unfold firstbe lowmask lowTwo
  have hm : addr % 4 < 4 := Nat.mod_lt _ (by decide)
  generalize addr % 4 = m at *
  by_cases hc : count < 4
  · have h : ∀ m < 4, ∀ c < 4, ∀ i < 4,
        (BitVec.ofNat 4 (2 ^ c - 1) <<< m).getLsbD i = decide (m ≤ i ∧ i < m + c) := by decide
    simpa only [hc, if_true] using h m hm count hc i hi
  · have h : ∀ m < 4, ∀ i < 4, (0xF#4 <<< m).getLsbD i = decide (m ≤ i) := by decide
    simp only [hc, if_false]
    rw [h m hm i hi]
    exact decide_eq_decide.mpr (by omega)

/-- Bit `i` of the last nibble: there is a second DW, and byte `i` of the last one lies in the transfer. -/
theorem lastbe_bit (addr count i : Nat) (hi : i < 4) :
    (lastbe addr count).getLsbD i =
      decide (2 ≤ dwCount addr count ∧ ((addr + count) % 4 = 0 ∨ i < (addr + count) % 4)) := by
  unfold lastbe
  rw [dwLength_eq]
  by_cases h1 : dwCount addr count ≤ 1
  · rw [if_pos h1]
    simp only [BitVec.getLsbD_zero]
    exact (decide_eq_false (by omega)).symm
  rw [if_neg h1]
  by_cases h2 : lowTwo (addr + count) = 0
  · rw [if_pos h2]
    have h : ∀ i < 4, (0xF#4).getLsbD i = true := by decide
    rw [h i hi]
    exact (decide_eq_true ⟨by omega, Or.inl h2⟩).symm
  · rw [if_neg h2]
    have h : ∀ m < 4, ∀ i < 4, (lowmask m).getLsbD i = decide (i < m) := by decide
    simp only [lowTwo] at h2 ⊢
    rw [h _ (Nat.mod_lt _ (by decide)) i hi]
    exact decide_eq_decide.mpr (by omega)

/-! ### The completion header -/

/-- Two fields side by side, as a number. -/
theorem toNat_fields {a b : Nat} (x : BitVec a) (y : BitVec b) : (x ++ y).toNat = x.toNat * 2 ^ b + y.toNat := by
  rw [BitVec.toNat_append, ← Nat.shiftLeft_add_eq_or_of_lt y.isLt, Nat.shiftLeft_eq]

theorem toNat_6_2 (x : BitVec 6) (y : BitVec 2) : (x ++ y : BitVec 8).toNat = x.toNat * 4 + y.toNat := toNat_fields x y
theorem toNat_1_7 (x : BitVec 1) (y : BitVec 7) : (x ++ y : BitVec 8).toNat = x.toNat * 128 + y.toNat := toNat_fields x y
theorem toNat_4_4 (x y : BitVec 4) : (x ++ y : BitVec 8).toNat = x.toNat * 16 + y.toNat := toNat_fields x y
theorem toNat_3_1_4 (x : BitVec 3) (y : BitVec 1) (z : BitVec 4) :
    (x ++ y ++ z : BitVec 8).toNat = (x.toNat * 2 + y.toNat) * 16 + z.toNat :=
  (toNat_fields (x ++ y) z).trans (by rw [toNat_fields x y]; omega)

/-- The decoder's fields of a header the encoder has written, whatever follows it (R60, R88). -/
theorem cplFields_encode (b : Byte) (h : CplHdr) (rest : Bytes) :
    cplFields (encodeCplHdr b h ++ rest) =
      ⟨b, h.tc, h.length, h.cplid, h.status, h.count, h.reqid, h.tag, h.lowaddr⟩ := by
  obtain ⟨tc, u2, length, cplid, status, u6, count, reqid, tag, r11, lowaddr⟩ := h
  have h1 := length.isLt
  have h2 := cplid.isLt
  have h3 := status.isLt
  have h4 := count.isLt
  have h5 := reqid.isLt
  have h6 := lowaddr.isLt
  have h7 := u6.isLt
  simp only [cplFields, encodeCplHdr, be16, byteAt, u16be, List.cons_append, List.nil_append, List.getD_cons_zero,
    List.getD_cons_succ, Nat.reduceAdd, toNat_6_2, toNat_1_7, toNat_3_1_4, BitVec.extractLsb'_toNat, Nat.shiftRight_eq_div_pow,
    CplFields.mk.injEq, true_and]
  refine ⟨?_, ?_, ?_, ?_, ?_, ?_⟩ <;> apply BitVec.eq_of_toNat_eq <;> simp only [BitVec.toNat_ofNat] <;> omega

/-- The header of a completion in a datagram of its form. -/
theorem cplFields_datagram (nt : NettlpHdr) (b : Byte) (h : CplHdr) (rest : Bytes) :
    cplFields (slice (encodeNettlp nt ++ encodeCplHdr b h ++ rest) Config.nettlpLen Config.cplLen) =
      ⟨b, h.tc, h.length, h.cplid, h.status, h.count, h.reqid, h.tag, h.lowaddr⟩ := by
  have e : slice (encodeNettlp nt ++ encodeCplHdr b h ++ rest) Config.nettlpLen Config.cplLen =
      encodeCplHdr b h ++ [] := rfl
  rw [e, cplFields_encode]

/-! ### Request headers -/

/-- The eight first bytes of a request header the encoder has written, as DEC_REQ reads them (R51, R96). -/
theorem reqHead_fields (b : Byte) (h : ReqHead) (rest : Bytes) :
    let buf := encodeReqHead b h ++ rest
    byteAt buf 0 = b ∧ byteAt buf 1 = h.tc ∧ BitVec.ofNat 6 (u16be buf 2 >>> 10) = h.flags ∧
      BitVec.ofNat 10 (u16be buf 2) = h.length ∧ BitVec.ofNat 16 (u16be buf 4) = h.reqid ∧ byteAt buf 6 = h.tag ∧
      BitVec.ofNat 4 ((byteAt buf 7).toNat >>> 4) = h.lastbe ∧ BitVec.ofNat 4 (byteAt buf 7).toNat = h.firstbe := by
  obtain ⟨tc, flags, length, reqid, tag, lastbe, firstbe⟩ := h
  have h1 := length.isLt
  have h2 := flags.isLt
  have h3 := reqid.isLt
  have h4 := lastbe.isLt
  have h5 := firstbe.isLt
  simp only [encodeReqHead, be16, byteAt, u16be, List.cons_append, List.nil_append, List.getD_cons_zero,
    List.getD_cons_succ, Nat.reduceAdd, toNat_6_2, toNat_4_4, BitVec.extractLsb'_toNat, Nat.shiftRight_eq_div_pow, true_and]
  refine ⟨?_, ?_, ?_, ?_, ?_⟩ <;> apply BitVec.eq_of_toNat_eq <;> simp only [BitVec.toNat_ofNat] <;> omega

/-- Where the address of a request header stands (R51, R52). -/
theorem reqHead_address (b : Byte) (h : ReqHead) (rest : Bytes) :
    u32be (encodeReqHead b h ++ rest) 8 = u32be rest 0 ∧ u64be (encodeReqHead b h ++ rest) 8 = u64be rest 0 :=
  ⟨u32be_append_right (encodeReqHead b h) rest 0, u64be_append_right (encodeReqHead b h) rest 0⟩

/-! ### The header `enc_req` builds -/

/-- `enc_req` builds the header of the wire form that the field tables describe (R81). -/
theorem requestHeader_eq (write : Bool) (reqid : BitVec 16) (tag : BitVec 8) (addr count : Nat) (payload : Bytes) :
    encode (requestForm write reqid tag addr count payload) =
      nettlpHeader ++ requestHeader write reqid tag addr count ++ payload := by
  have h16 : be16 (BitVec.ofNat 16 (dwLength addr count % 1024)) =
      [0#6 ++ (BitVec.ofNat 10 (dwCount addr count)).extractLsb' 8 2,
        (BitVec.ofNat 10 (dwCount addr count)).extractLsb' 0 8] := by
    rw [dwLength_eq]
    simp only [be16, List.cons.injEq, and_true]
    constructor <;> apply BitVec.eq_of_toNat_eq <;>
      simp only [toNat_6_2, BitVec.extractLsb'_toNat, Nat.shiftRight_eq_div_pow, BitVec.toNat_ofNat] <;> omega
  by_cases ha : addr ≤ 0xFFFFFFFF
  · have hn : ¬0xFFFFFFFF < addr := by omega
    cases write <;>
      simp [requestForm, requestHeader, ha, hn, encode, encodeReqHead, h16, nettlpHeader, encodeNettlp, align4, lowTwo,
        requestFmtType]
  · have hn : 0xFFFFFFFF < addr := by omega
    cases write <;>
      simp [requestForm, requestHeader, ha, hn, encode, encodeReqHead, h16, nettlpHeader, encodeNettlp, align4, lowTwo,
        requestFmtType]

end Sys2Proof.Machine
end

