-- ==== Sys2Proof/Laws/Memory.lean ====
section
/-! SUPPORT. Buffer memory: a read after a write, and the canonical form. -/

namespace Sys2Proof.Machine

theorem read?_append (m k : Memory) (a : Nat) :
    Memory.read? (m ++ k) a = (Memory.read? m a).or (Memory.read? k a) := by
  induction m with
  | nil => simp [Memory.read?]
  | cons c rest ih =>
    by_cases h : c.1 = a <;> simp [Memory.read?, h, ih]

theorem read?_filter (q : Nat → Bool) (m : Memory) (a : Nat) :
    Memory.read? (m.filter (fun c => q c.1)) a = if q a then Memory.read? m a else none := by
  induction m with
  | nil => simp [Memory.read?]
  | cons c rest ih =>
    obtain ⟨k, b⟩ := c
    by_cases hk : k = a
    · subst hk
      by_cases hq : q k <;> simp_all [Memory.read?]
    · by_cases hq : q k <;> simp [Memory.read?, hk, hq, ih]

theorem read?_cells_below (bs : Bytes) (a x : Nat) (h : x < a) : Memory.read? (Memory.cells a bs) x = none := by
  induction bs generalizing a with
  | nil => rfl
  | cons b rest ih =>
    have hne : a ≠ x := by omega
    simpa [Memory.cells, Memory.read?, hne] using ih (a + 1) (by omega)

theorem read?_cells (bs : Bytes) (a i : Nat) : Memory.read? (Memory.cells a bs) (a + i) = bs[i]? := by
  induction bs generalizing a i with
  | nil => rfl
  | cons b rest ih =>
    cases i with
    | zero => simp [Memory.cells, Memory.read?]
    | succ j =>
      have hj := ih (a + 1) j
      rw [show a + 1 + j = a + (j + 1) by omega] at hj
      simp [Memory.cells, Memory.read?, hj]

/-- A read inside the written range. -/
theorem read?_write_inside (m : Memory) (a i : Nat) (bs : Bytes) (h : i < bs.length) :
    Memory.read? (Memory.write m a bs) (a + i) = bs[i]? := by
  have hb : ¬ a + bs.length ≤ a + i := by omega
  simp only [Memory.write, read?_append, read?_filter (fun k => decide (k < a)),
    read?_filter (fun k => decide (a + bs.length ≤ k)), read?_cells]
  simp [hb, h]

/-- A read outside the written range. -/
theorem read?_write_outside (m : Memory) (a x : Nat) (bs : Bytes) (h : x < a ∨ a + bs.length ≤ x) :
    Memory.read? (Memory.write m a bs) x = Memory.read? m x := by
  simp only [Memory.write, read?_append, read?_filter (fun k => decide (k < a)),
    read?_filter (fun k => decide (a + bs.length ≤ k))]
  rcases h with h | h
  · have h2 : ¬ a + bs.length ≤ x := by omega
    simp [h, h2, read?_cells_below bs a x h]
  · have hx : ¬ x < a := by omega
    have hc := read?_cells bs a (x - a)
    rw [show a + (x - a) = x by omega] at hc
    have hn : bs[x - a]? = none := List.getElem?_eq_none (by omega)
    rw [hn] at hc
    simp [h, hx, hc]

theorem byte_write_inside (b : Buffer) (a i : Nat) (bs : Bytes) (h : i < bs.length) :
    (b.write a bs).byte (a + i) = bs.getD i 0#8 := by
  simp [Buffer.byte, Buffer.write, read?_write_inside b.mem a i bs h, h]

theorem byte_write_outside (b : Buffer) (a x : Nat) (bs : Bytes) (h : x < a ∨ a + bs.length ≤ x) :
    (b.write a bs).byte x = b.byte x := by
  simp [Buffer.byte, Buffer.write, read?_write_outside b.mem a x bs h]

@[simp] theorem write_size (b : Buffer) (a : Nat) (bs : Bytes) : (b.write a bs).size = b.size := rfl
@[simp] theorem write_epoch (b : Buffer) (a : Nat) (bs : Bytes) : (b.write a bs).epoch = b.epoch := rfl

/-! ### The canonical form -/

theorem risingFrom_mono {low low' : Nat} {m : Memory} (h : Memory.risingFrom low m = true) (hl : low' ≤ low) :
    Memory.risingFrom low' m = true := by
  cases m with
  | nil => rfl
  | cons c rest =>
    simp only [Memory.risingFrom, Bool.and_eq_true, decide_eq_true_eq] at *
    exact ⟨by omega, h.2⟩

theorem risingFrom_bound {low : Nat} {m : Memory} (h : Memory.risingFrom low m = true) :
    ∀ c ∈ m, low ≤ c.1 := by
  induction m generalizing low with
  | nil => simp
  | cons c rest ih =>
    simp only [Memory.risingFrom, Bool.and_eq_true, decide_eq_true_eq] at h
    intro d hd
    rcases List.mem_cons.mp hd with rfl | hd
    · exact h.1
    · have := ih h.2 d hd
      omega

theorem risingFrom_filter {low : Nat} {m : Memory} (q : Host.Cell → Bool)
    (h : Memory.risingFrom low m = true) : Memory.risingFrom low (m.filter q) = true := by
  induction m generalizing low with
  | nil => rfl
  | cons c rest ih =>
    simp only [Memory.risingFrom, Bool.and_eq_true, decide_eq_true_eq] at h
    by_cases hq : q c
    · simpa [hq, Memory.risingFrom, h.1] using ih h.2
    · simpa [hq] using ih (risingFrom_mono h.2 (by omega))

/-- Two canonical memories, the second wholly above the first, join to a canonical one. -/
theorem risingFrom_append {low mid : Nat} {m k : Memory} (hm : Memory.risingFrom low m = true)
    (hk : Memory.risingFrom mid k = true) (hb : ∀ c ∈ m, c.1 < mid) (hl : low ≤ mid) :
    Memory.risingFrom low (m ++ k) = true := by
  induction m generalizing low with
  | nil => exact risingFrom_mono hk hl
  | cons c rest ih =>
    simp only [Memory.risingFrom, Bool.and_eq_true, decide_eq_true_eq] at hm
    have hc := hb c (by simp)
    simp only [List.cons_append, Memory.risingFrom, Bool.and_eq_true, decide_eq_true_eq]
    exact ⟨hm.1, ih hm.2 (fun d hd => hb d (by simp [hd])) (by omega)⟩

theorem risingFrom_cells (bs : Bytes) (a : Nat) : Memory.risingFrom a (Memory.cells a bs) = true := by
  induction bs generalizing a with
  | nil => rfl
  | cons b rest ih => simp [Memory.cells, Memory.risingFrom, ih]

theorem cells_bound (bs : Bytes) (a : Nat) : ∀ c ∈ Memory.cells a bs, a ≤ c.1 ∧ c.1 < a + bs.length := by
  induction bs generalizing a with
  | nil => simp [Memory.cells]
  | cons b rest ih =>
    intro c hc
    rcases List.mem_cons.mp hc with rfl | hc
    · simp
    · have := ih (a + 1) c hc
      simp only [List.length_cons]
      omega

/-- Every cell of a filtered memory is a cell of the memory that passes. -/
theorem risingFrom_filter_above {a : Nat} {m : Memory} (h : Memory.risingFrom 0 m = true) :
    Memory.risingFrom a (m.filter fun c => decide (a ≤ c.1)) = true := by
  have hf := risingFrom_filter (fun c => decide (a ≤ c.1)) h
  generalize hk : (m.filter fun c => decide (a ≤ c.1)) = k at hf
  have hb : ∀ c ∈ k, a ≤ c.1 := by
    intro c hc
    rw [← hk] at hc
    simpa using (List.mem_filter.mp hc).2
  cases k with
  | nil => rfl
  | cons c rest =>
    simp only [Memory.risingFrom, Bool.and_eq_true, decide_eq_true_eq] at hf ⊢
    exact ⟨hb c (by simp), hf.2⟩

/-- A write keeps the canonical form. -/
theorem write_keeps_wf (m : Memory) (a : Nat) (bs : Bytes) (h : Memory.wf m = true) :
    Memory.wf (Memory.write m a bs) = true := by
  unfold Memory.wf Memory.write at *
  have hlow : ∀ c ∈ m.filter (fun c => decide (c.1 < a)), c.1 < a := by
    intro c hc
    simpa using (List.mem_filter.mp hc).2
  refine risingFrom_append (mid := a + bs.length) ?_ (risingFrom_filter_above h) ?_ (Nat.zero_le _)
  · exact risingFrom_append (mid := a) (risingFrom_filter _ h) (risingFrom_cells bs a) hlow (Nat.zero_le _)
  · intro c hc
    rcases List.mem_append.mp hc with hc | hc
    · have := hlow c hc
      omega
    · exact (cells_bound bs a c hc).2

/-- A write inside the buffer keeps the buffer's canonical form. -/
theorem buffer_write_keeps_wf (b : Buffer) (a : Nat) (bs : Bytes) (h : b.wf = true)
    (hh : b.holds a bs.length = true) : (b.write a bs).wf = true := by
  simp only [Buffer.wf, Bool.and_eq_true, List.all_eq_true, decide_eq_true_eq] at h ⊢
  refine ⟨write_keeps_wf b.mem a bs h.1, ?_⟩
  intro c hc
  simp only [Buffer.holds, Bool.or_eq_true, beq_iff_eq, decide_eq_true_eq] at hh
  simp only [Buffer.write, Memory.write, List.mem_append, List.mem_filter] at hc
  rcases hc with (hc | hc) | hc
  · exact h.2 c hc.1
  · have := cells_bound bs a c hc
    simp only [Buffer.write]
    omega
  · exact h.2 c hc.1

/-- An empty buffer is canonical. -/
theorem buffer_empty_wf (size epoch : Nat) : Buffer.wf { size := size, epoch := epoch, mem := [] } = true := rfl

end Sys2Proof.Machine
end

