-- ==== Sys2Proof/Laws/State.lean ====
section
/-! SUPPORT. What each shared update of the state does to each field. -/

namespace Sys2Proof.Machine

@[simp] theorem respond_sess (r : Response) (s : State) : (respond r s).sess = s.sess := rfl
@[simp] theorem respond_seq (r : Response) (s : State) : (respond r s).seq = s.seq := rfl
@[simp] theorem respond_dst (r : Response) (s : State) : (respond r s).dst = s.dst := rfl
@[simp] theorem respond_src (r : Response) (s : State) : (respond r s).src = s.src := rfl
@[simp] theorem respond_draws (r : Response) (s : State) : (respond r s).draws = s.draws := rfl
@[simp] theorem respond_host (r : Response) (s : State) : (respond r s).ports.host = s.ports.host := rfl
@[simp] theorem respond_rx (r : Response) (s : State) : (respond r s).ports.rx = s.ports.rx := rfl
@[simp] theorem respond_txAnswers (r : Response) (s : State) : (respond r s).ports.txAnswers = s.ports.txAnswers := rfl
@[simp] theorem respond_resetPin (r : Response) (s : State) : (respond r s).ports.resetPin = s.ports.resetPin := rfl
@[simp] theorem respond_responses (r : Response) (s : State) : (respond r s).ports.responses = s.ports.responses ++ [r] := rfl
@[simp] theorem respond_transport (r : Response) (s : State) : (respond r s).ports.transport = s.ports.transport := rfl

@[simp] theorem raise_sess (e : Err) (s : State) : (raise e s).sess = s.sess := rfl
@[simp] theorem raise_seq (e : Err) (s : State) : (raise e s).seq = s.seq := rfl
@[simp] theorem raise_dst (e : Err) (s : State) : (raise e s).dst = s.dst := rfl
@[simp] theorem raise_src (e : Err) (s : State) : (raise e s).src = s.src := rfl
@[simp] theorem raise_draws (e : Err) (s : State) : (raise e s).draws = s.draws := rfl
@[simp] theorem raise_host (e : Err) (s : State) : (raise e s).ports.host = s.ports.host := rfl
@[simp] theorem raise_rx (e : Err) (s : State) : (raise e s).ports.rx = s.ports.rx := rfl
@[simp] theorem raise_txAnswers (e : Err) (s : State) : (raise e s).ports.txAnswers = s.ports.txAnswers := rfl
@[simp] theorem raise_resetPin (e : Err) (s : State) : (raise e s).ports.resetPin = s.ports.resetPin := rfl
@[simp] theorem raise_responses (e : Err) (s : State) : (raise e s).ports.responses = s.ports.responses ++ [.error e] := rfl
@[simp] theorem raise_transport (e : Err) (s : State) : (raise e s).ports.transport = s.ports.transport := rfl

@[simp] theorem record_sess (t : TransportAct) (s : State) : (record t s).sess = s.sess := rfl
@[simp] theorem record_seq (t : TransportAct) (s : State) : (record t s).seq = s.seq := rfl
@[simp] theorem record_dst (t : TransportAct) (s : State) : (record t s).dst = s.dst := rfl
@[simp] theorem record_src (t : TransportAct) (s : State) : (record t s).src = s.src := rfl
@[simp] theorem record_draws (t : TransportAct) (s : State) : (record t s).draws = s.draws := rfl
@[simp] theorem record_host (t : TransportAct) (s : State) : (record t s).ports.host = s.ports.host := rfl
@[simp] theorem record_rx (t : TransportAct) (s : State) : (record t s).ports.rx = s.ports.rx := rfl
@[simp] theorem record_txAnswers (t : TransportAct) (s : State) : (record t s).ports.txAnswers = s.ports.txAnswers := rfl
@[simp] theorem record_resetPin (t : TransportAct) (s : State) : (record t s).ports.resetPin = s.ports.resetPin := rfl
@[simp] theorem record_responses (t : TransportAct) (s : State) : (record t s).ports.responses = s.ports.responses := rfl
@[simp] theorem record_transport (t : TransportAct) (s : State) : (record t s).ports.transport = s.ports.transport ++ [t] := rfl

@[simp] theorem illegalOp_sess (op : Byte) (s : State) : (illegalOp op s).sess = s.sess := rfl
@[simp] theorem illegalOp_seq (op : Byte) (s : State) : (illegalOp op s).seq = s.seq := rfl
@[simp] theorem illegalOp_dst (op : Byte) (s : State) : (illegalOp op s).dst = s.dst := rfl
@[simp] theorem illegalOp_src (op : Byte) (s : State) : (illegalOp op s).src = s.src := rfl
@[simp] theorem illegalOp_draws (op : Byte) (s : State) : (illegalOp op s).draws = s.draws := rfl
@[simp] theorem illegalOp_host (op : Byte) (s : State) : (illegalOp op s).ports.host = s.ports.host := rfl
@[simp] theorem illegalOp_rx (op : Byte) (s : State) : (illegalOp op s).ports.rx = s.ports.rx := rfl
@[simp] theorem illegalOp_txAnswers (op : Byte) (s : State) : (illegalOp op s).ports.txAnswers = s.ports.txAnswers := rfl
@[simp] theorem illegalOp_resetPin (op : Byte) (s : State) : (illegalOp op s).ports.resetPin = s.ports.resetPin := rfl
@[simp] theorem illegalOp_responses (op : Byte) (s : State) : (illegalOp op s).ports.responses = s.ports.responses ++ [.error (mkErr .illegalOp .badOpcode op.toNat 0)] := rfl
@[simp] theorem illegalOp_transport (op : Byte) (s : State) : (illegalOp op s).ports.transport = s.ports.transport := rfl

@[simp] theorem resetStep_sess (s : State) : (resetStep s).sess = .reset := rfl
@[simp] theorem resetStep_seq (s : State) : (resetStep s).seq = .reset := rfl
@[simp] theorem resetStep_dst (s : State) : (resetStep s).dst = { size := s.dst.size, epoch := s.draws, mem := [] } := rfl
@[simp] theorem resetStep_src (s : State) : (resetStep s).src = { size := s.src.size, epoch := s.draws + 1, mem := [] } := rfl
@[simp] theorem resetStep_draws (s : State) : (resetStep s).draws = s.draws + 2 := rfl
@[simp] theorem resetStep_host (s : State) : (resetStep s).ports.host = s.ports.host := rfl
@[simp] theorem resetStep_rx (s : State) : (resetStep s).ports.rx = s.ports.rx := rfl
@[simp] theorem resetStep_txAnswers (s : State) : (resetStep s).ports.txAnswers = s.ports.txAnswers := rfl
@[simp] theorem resetStep_resetPin (s : State) : (resetStep s).ports.resetPin = false := rfl
@[simp] theorem resetStep_responses (s : State) : (resetStep s).ports.responses = s.ports.responses := rfl
@[simp] theorem resetStep_transport (s : State) : (resetStep s).ports.transport = s.ports.transport := rfl

end Sys2Proof.Machine
end

