-- ==== Sys2Proof/Laws/Ops.lean ====
section
/-! SUPPORT. What each shared operation can answer, said once. -/

namespace Sys2Proof.Machine

/-! ### Joining outcomes and ports -/

@[simp] theorem andThen_next (s : State) (k : State → Outcome) : andThen (.next s) k = k s := rfl
@[simp] theorem andThen_fault (f : Fault) (k : State → Outcome) : andThen (.fault f) k = .fault f := rfl
@[simp] theorem andThen_refused (r : Refusal) (k : State → Outcome) : andThen (.refused r) k = .refused r := rfl

theorem andThen_eq_next {o : Outcome} {k : State → Outcome} {t : State} (h : andThen o k = .next t) :
    ∃ u, o = .next u ∧ k u = .next t := by
  cases o with
  | next u => exact ⟨u, rfl, h⟩
  | fault f => cases h
  | refused r => cases h

theorem onCommand_idle {s : State} (h : s.seq.state = .idle) (o : Outcome) : onCommand s o = o := by
  simp [onCommand, h]

theorem onCommand_rdRecv {s : State} (h : s.seq.state = .rdRecv) (o : Outcome) : onCommand s o = .next s := by
  simp [onCommand, h]

theorem onReceive_idle {s : State} (h : s.seq.state = .idle) (o : Outcome) : onReceive s o = .next s := by
  simp [onReceive, h]

theorem onReceive_rdRecv {s : State} (h : s.seq.state = .rdRecv) (o : Outcome) : onReceive s o = o := by
  simp [onReceive, h]

/-- A command answers one response and nothing else. -/
theorem answer_eq (a : Except Err Result) (s : State) :
    answer a s = .next (respond (match a with | .ok r => .ok r | .error e => .error e) s) := by
  cases a <;> rfl

/-! ### The transport -/

/-- The answer the transport gives, and the state after it. -/
theorem transportAnswer_eq (s : State) : transportAnswer s = (s.nextAnswer, s.answerUsed) := by
  obtain ⟨sess, seq, dst, src, draws, ⟨host, rx, tx, pin, resp, tr⟩⟩ := s
  cases tx <;> rfl

theorem emit_eq (d : Bytes) (s : State) :
    emit d s = (s.nextAnswer, record (.sent d s.nextAnswer) s.answerUsed) := by
  simp [emit, transportAnswer_eq]

theorem transportOpen_eq (port : Nat) (s : State) :
    transportOpen port s = (s.nextAnswer, record (.opened port s.nextAnswer) s.answerUsed) := by
  simp [transportOpen, transportAnswer_eq]

@[simp] theorem answerUsed_sess (s : State) : s.answerUsed.sess = s.sess := rfl
@[simp] theorem answerUsed_seq (s : State) : s.answerUsed.seq = s.seq := rfl
@[simp] theorem answerUsed_dst (s : State) : s.answerUsed.dst = s.dst := rfl
@[simp] theorem answerUsed_src (s : State) : s.answerUsed.src = s.src := rfl
@[simp] theorem answerUsed_host (s : State) : s.answerUsed.ports.host = s.ports.host := rfl
@[simp] theorem answerUsed_rx (s : State) : s.answerUsed.ports.rx = s.ports.rx := rfl
@[simp] theorem answerUsed_resetPin (s : State) : s.answerUsed.ports.resetPin = s.ports.resetPin := rfl
@[simp] theorem answerUsed_responses (s : State) : s.answerUsed.ports.responses = s.ports.responses := rfl
@[simp] theorem answerUsed_transport (s : State) : s.answerUsed.ports.transport = s.ports.transport := rfl

/-! ### DST -/

theorem storeDst_eq_next {a : Nat} {bs : Bytes} {s t : State} (h : storeDst a bs s = .next t) :
    s.dst.holds a bs.length = true ∧ t = { s with dst := s.dst.write a bs } := by
  unfold storeDst at h
  split at h
  · next hh => exact ⟨hh, by cases h; rfl⟩
  · cases h

theorem storeDst_holds {a : Nat} {bs : Bytes} {s : State} (h : s.dst.holds a bs.length = true) :
    storeDst a bs s = .next { s with dst := s.dst.write a bs } := by
  simp [storeDst, h]

theorem drawDst_eq_next {n : Nat} {s t : State} (h : drawDst n s = .next t) :
    s.dst.holds 0 n = true ∧
      t = { s with
        dst := s.dst.write 0 ((List.range n).map (Config.drawnByte s.draws))
        draws := s.draws + 1 } := by
  unfold drawDst at h
  split at h
  · next hh => exact ⟨hh, by cases h; rfl⟩
  · cases h

/-- A draw leaves every byte past it as it was. -/
theorem drawDst_byte_outside {n : Nat} {s t : State} (h : drawDst n s = .next t) (a : Nat) (ha : n ≤ a) :
    t.dst.byte a = s.dst.byte a := by
  rw [(drawDst_eq_next h).2]
  exact byte_write_outside _ _ _ _ (Or.inr (by simpa using ha))

/-! ### The exception inside a read -/

/-- All that `fail` can do, when it answers a next state. -/
theorem fail_eq_next {e : Err} {s t : State} (h : fail e s = .next t) :
    s.dst.holds 0 s.seq.len.toNat = true ∧
      t.seq = { s.seq with state := .idle } ∧ t.sess = s.sess ∧ t.src = s.src ∧
      t.draws = s.draws + 1 ∧
      t.dst = s.dst.write 0 ((List.range s.seq.len.toNat).map (Config.drawnByte s.draws)) ∧
      t.ports = { s.ports with responses := s.ports.responses ++ [.error e] } := by
  obtain ⟨u, hu, hk⟩ := andThen_eq_next h
  obtain ⟨hh, rfl⟩ := drawDst_eq_next hu
  cases hk
  exact ⟨hh, rfl, rfl, rfl, rfl, rfl, rfl⟩

/-- `fail` when the read lies inside DST. -/
theorem fail_holds (e : Err) (s : State) (h : s.dst.holds 0 s.seq.len.toNat = true) :
    fail e s = .next (raise e { s with
      seq.state := .idle
      dst := s.dst.write 0 ((List.range s.seq.len.toNat).map (Config.drawnByte s.draws))
      draws := s.draws + 1 }) := by
  simp [fail, drawDst, h]

/-- `fail` answers when the read lies inside DST, and then it is R118. -/
theorem fail_failsRead (e : Err) (s : State) (h : s.seq.len.toNat ≤ s.dst.size) :
    FailsRead (fail e s) s (.error e) := by
  have hh : s.dst.holds 0 s.seq.len.toNat = true := by simp [Buffer.holds, h]
  refine ⟨_, fail_holds e s hh, rfl, rfl, rfl, rfl, ?_, rfl⟩
  intro a ha
  exact byte_write_outside _ _ _ _ (Or.inr (by simpa using ha))

/-! ### The sequencer -/

/-- The requests the sequencers make always fit: a chunk of R100 is at most 1024 DWs and ends inside the
address space. -/
theorem encReq_chunk (write : Bool) (reqid : BitVec 16) (tag : BitVec 8) (p remaining mrrs : Nat)
    (hp : p < Config.addressTop) :
    encReq write reqid tag p (chunkLength p remaining mrrs) =
      .ok (requestHeader write reqid tag p (chunkLength p remaining mrrs)) := by
  have h1 : ¬ Config.addressTop < p + chunkLength p remaining mrrs := by
    simp only [chunkLength, Config.addressTop, Config.page] at *
    omega
  have h2 : ¬ Config.maxDw < dwLength p (chunkLength p remaining mrrs) := by
    simp only [dwLength, ceil4, align4, lowTwo, chunkLength, Config.maxDw, Config.page,
      Nat.shiftRight_eq_div_pow]
    omega
  simp [encReq, h1, h2]

/-- All that `send_read_request()` can do. -/
theorem sendReadRequest_eq (s : State) :
    sendReadRequest s =
      (let n := chunkLength s.seq.p.toNat (s.seq.len.toNat - s.seq.received.toNat) s.sess.mrrs.toNat
       let d := nettlpHeader ++ requestHeader false s.sess.reqid s.sess.tag s.seq.p.toNat n ++ []
       let t : State := { s with seq.chunk := BitVec.ofNat 13 n, seq.cursor := 0#13 }
       let u := record (.sent d s.nextAnswer) t.answerUsed
       match s.nextAnswer with
       | .ioError => fail (mkErr .io .none 1 s.seq.received.toNat) u
       | .ok => .next { u with seq.state := .rdRecv }) := by
  have hd : ∀ n, n = chunkLength s.seq.p.toNat (s.seq.len.toNat - s.seq.received.toNat) s.sess.mrrs.toNat →
      reqDatagram false s.sess s.seq.p.toNat n [] =
        .ok (nettlpHeader ++ requestHeader false s.sess.reqid s.sess.tag s.seq.p.toNat n ++ []) := by
    rintro n rfl
    simp [reqDatagram, encReq_chunk false s.sess.reqid s.sess.tag _ _ _ s.seq.p.isLt]
  simp only [sendReadRequest, hd _ rfl, emit_eq]
  have hn : ∀ q : Sequencer, State.nextAnswer { s with seq := q } = s.nextAnswer := fun _ => rfl
  simp only [hn]
  cases s.nextAnswer <;> rfl

/-- All that `chunk_done()` can do. -/
theorem chunkDone_eq (s : State) :
    chunkDone s =
      if (advance s).seq.received = s.seq.len then
        .next (respond (.ok .done) { advance s with seq.state := .idle })
      else sendReadRequest (advance s) := by
  have h : (advance s).seq.len = s.seq.len := by
    unfold advance
    split <;> rfl
  simp only [chunkDone, h]

theorem advance_received (s : State) :
    (advance s).seq.received = s.seq.received + s.seq.chunk.setWidth 64 := by
  unfold advance
  split <;> rfl

theorem advance_p {s : State} (h : s.seq.p.toNat + s.seq.chunk.toNat < Config.addressTop) :
    (advance s).seq.p = s.seq.p + s.seq.chunk.setWidth 64 := by
  unfold advance
  rw [if_pos h]

/-- What `chunk_done()` leaves alone on its way to the next chunk. -/
theorem advance_frame (s : State) :
    (advance s).sess = s.sess ∧ (advance s).dst = s.dst ∧ (advance s).src = s.src ∧
      (advance s).ports = s.ports ∧ (advance s).seq.state = s.seq.state ∧ (advance s).seq.len = s.seq.len ∧
      (advance s).seq.chunk = s.seq.chunk ∧ (advance s).seq.cursor = s.seq.cursor := by
  unfold advance
  split <;> exact ⟨rfl, rfl, rfl, rfl, rfl, rfl, rfl, rfl⟩

/-- The four ways `RX_DATAGRAM` can go (R114). -/
theorem rxDatagram_cases (d : Bytes) (s : State) :
    (d.length < Config.rxMin ∧ rxDatagram d s = fail (tooShort d.length Config.rxMin) s) ∨
    (Config.rxMin ≤ d.length ∧
      ∃ f, f = cplFields (slice d Config.nettlpLen Config.cplLen) ∧
      ((∃ e, cplValidate f = some e ∧ rxDatagram d s = fail e s) ∨
       (cplValidate f = none ∧
         ((∃ e, cplSpan f d.length (s.seq.chunk.toNat - s.seq.cursor.toNat) = .error e ∧
            rxDatagram d s = fail e s) ∨
          (∃ start size, cplSpan f d.length (s.seq.chunk.toNat - s.seq.cursor.toNat) = .ok (start, size) ∧
            rxDatagram d s = acceptFragment f d start size s))))) := by
  by_cases hl : d.length < Config.rxMin
  · exact Or.inl ⟨hl, by simp [rxDatagram, hl]⟩
  · refine Or.inr ⟨by omega, _, rfl, ?_⟩
    cases hv : cplValidate (cplFields (slice d Config.nettlpLen Config.cplLen)) with
    | some e => exact Or.inl ⟨e, rfl, by simp [rxDatagram, hl, hv]⟩
    | none =>
      refine Or.inr ⟨rfl, ?_⟩
      cases hs : cplSpan (cplFields (slice d Config.nettlpLen Config.cplLen)) d.length
          (s.seq.chunk.toNat - s.seq.cursor.toNat) with
      | error e => exact Or.inl ⟨e, rfl, by simp [rxDatagram, hl, hv, hs]⟩
      | ok r => exact Or.inr ⟨r.1, r.2, rfl, by simp [rxDatagram, hl, hv, hs]⟩

/-- What an accepted span is (R93). -/
theorem cplSpan_ok {f : CplFields} {dgramLen space start size : Nat}
    (h : cplSpan f dgramLen space = .ok (start, size)) :
    start = 18 + f.lowaddr.toNat % 4 ∧
      size = min f.count.toNat (f.length.toNat * 4 - f.lowaddr.toNat % 4) ∧
      f.lowaddr.toNat % 4 ≤ f.length.toNat * 4 ∧ start + size ≤ dgramLen ∧ size ≤ space := by
  unfold cplSpan at h
  dsimp only at h
  split at h
  · cases h
  split at h
  · cases h
  split at h
  · cases h
  next h1 h2 h3 =>
    simp only [lowTwo, Config.rxMin, Except.ok.injEq, Prod.mk.injEq] at h h1 h2 h3
    obtain ⟨rfl, rfl⟩ := h
    omega

/-- All that the copy and the test for the last fragment can do. -/
theorem acceptFragment_eq_next {f : CplFields} {d : Bytes} {start size : Nat} {s t : State}
    (h : acceptFragment f d start size s = .next t) :
    s.dst.holds (s.seq.received.toNat + s.seq.cursor.toNat) (slice d start size).length = true ∧
      ∃ u : State,
        u = { s with
          dst := s.dst.write (s.seq.received.toNat + s.seq.cursor.toNat) (slice d start size)
          seq.cursor := s.seq.cursor + BitVec.ofNat 13 size } ∧
        ((cplIsLast f = true ∧ chunkDone u = .next t) ∨ (cplIsLast f = false ∧ t = u)) := by
  obtain ⟨v, hv, hk⟩ := andThen_eq_next h
  obtain ⟨hh, rfl⟩ := storeDst_eq_next hv
  refine ⟨hh, _, rfl, ?_⟩
  cases hf : cplIsLast f with
  | true => exact Or.inl ⟨rfl, by simpa [hf] using hk⟩
  | false =>
    simp only [hf] at hk
    cases hk
    exact Or.inr ⟨rfl, rfl⟩

/-- What the write loop leaves alone, and that it gives exactly one response. -/
theorem writeLoop_frame {fuel p sent len : Nat} {s t : State} (h : writeLoop fuel p sent len s = .next t) :
    t.sess = s.sess ∧ t.seq = s.seq ∧ t.dst = s.dst ∧ t.src = s.src ∧ t.ports.host = s.ports.host ∧
      t.ports.rx = s.ports.rx ∧ t.ports.resetPin = s.ports.resetPin ∧
      ∃ r, t.ports.responses = s.ports.responses ++ [r] := by
  induction fuel generalizing p sent s with
  | zero =>
    unfold writeLoop at h
    split at h
    · cases h
      exact ⟨rfl, rfl, rfl, rfl, rfl, rfl, rfl, _, rfl⟩
    · cases h
  | succ fuel ih =>
    unfold writeLoop at h
    split at h
    · cases h
      exact ⟨rfl, rfl, rfl, rfl, rfl, rfl, rfl, _, rfl⟩
    · simp only [emit_eq] at h
      split at h
      · cases h
        exact ⟨rfl, rfl, rfl, rfl, rfl, rfl, rfl, _, rfl⟩
      · cases hn : s.nextAnswer <;> simp only [hn] at h
        · simpa using ih h
        · cases h
          exact ⟨rfl, rfl, rfl, rfl, rfl, rfl, rfl, _, rfl⟩

/-! ### Which input a step takes -/

/-- A receive is answered by the next input, or by a free event when there is none. -/
theorem receive_cases (s : State) :
    (∃ event rest, s.ports.rx = event :: rest ∧ receive s = (event, { s with ports.rx := rest })) ∨
    (s.ports.rx = [] ∧ receive s = (Config.rxEvent s.draws, { s with draws := s.draws + 1 })) := by
  cases h : s.ports.rx with
  | nil => exact Or.inr ⟨rfl, by simp [receive, h]⟩
  | cons event rest => exact Or.inl ⟨event, rest, rfl, by simp [receive, h]⟩

theorem receive_of_cons {s : State} {event : RxEvent} {rest : List RxEvent} (h : s.ports.rx = event :: rest) :
    receive s = (event, { s with ports.rx := rest }) := by
  simp [receive, h]

/-- What a receive leaves alone: all but the transport's queue and the number of the draw. -/
theorem receive_frame (s : State) :
    (receive s).2.sess = s.sess ∧ (receive s).2.seq = s.seq ∧ (receive s).2.dst = s.dst ∧
      (receive s).2.src = s.src ∧ (receive s).2.ports = { s.ports with rx := s.ports.rx.tail } := by
  obtain ⟨event, rest, h, hr⟩ | ⟨h, hr⟩ := receive_cases s
  · rw [hr, h]
    exact ⟨rfl, rfl, rfl, rfl, rfl⟩
  · rw [hr, h]
    refine ⟨rfl, rfl, rfl, rfl, ?_⟩
    show s.ports = { s.ports with rx := [] }
    rw [← h]

/-- All that `fetch` can answer. -/
theorem fetch_cases (s : State) :
    (s.ports.resetPin = true ∧ fetch s = (.reset, s)) ∨
    (s.ports.resetPin = false ∧
      ((s.seq.state = .idle ∧ s.ports.host = [] ∧ fetch s = (.nothing, s)) ∨
       (s.seq.state = .idle ∧ ∃ act rest, s.ports.host = act :: rest ∧
          fetch s = (.host act, { s with ports.host := rest })) ∨
       (s.seq.state = .rdRecv ∧ fetch s = (.rx (receive s).1, (receive s).2)))) := by
  cases hp : s.ports.resetPin with
  | true => exact Or.inl ⟨rfl, by simp [fetch, hp]⟩
  | false =>
    refine Or.inr ⟨rfl, ?_⟩
    cases hq : s.seq.state with
    | idle =>
      cases hh : s.ports.host with
      | nil => exact Or.inl ⟨rfl, rfl, by simp [fetch, hp, hq, hh]⟩
      | cons act rest =>
        exact Or.inr (Or.inl ⟨rfl, act, rest, rfl, by simp [fetch, hp, hq, hh]⟩)
    | rdRecv => exact Or.inr (Or.inr ⟨rfl, by simp [fetch, hp, hq]⟩)

end Sys2Proof.Machine
end

