-- ==== Sys2Proof/Laws/PerInstr.lean ====
section
/-! SUPPORT. What is shown of every instruction, one lemma for each constructor: the byte that names its form
stands where 30_encoding.md R65, R67 and R69 put it. -/

namespace Sys2Proof.Laws

/-- Where the form byte stands and what it is: a command's op byte comes first, a header's byte 0 comes after
the six bytes of the transport header; a bare transport header has none. -/
def formByte (i : Instr) : Option (Nat × Byte) :=
  match i with
  | .reqidPack .. => some (0, 0x01#8)
  | .calcLength .. => some (0, 0x02#8)
  | .calcFirstbe .. => some (0, 0x03#8)
  | .calcLastbe .. => some (0, 0x04#8)
  | .chunkLen .. => some (0, 0x05#8)
  | .portSel .. => some (0, 0x06#8)
  | .encNettlp => some (0, 0x10#8)
  | .encMrd .. => some (0, 0x11#8)
  | .encMwr .. => some (0, 0x12#8)
  | .decCpl .. => some (0, 0x20#8)
  | .cplLength .. => some (0, 0x21#8)
  | .cplCount .. => some (0, 0x22#8)
  | .cplIsLast .. => some (0, 0x23#8)
  | .cplSpan .. => some (0, 0x24#8)
  | .decReq .. => some (0, 0x28#8)
  | .reqSpan .. => some (0, 0x29#8)
  | .openSession .. => some (0, 0x30#8)
  | .closeSession => some (0, 0x31#8)
  | .dmaRead .. => some (0, 0x32#8)
  | .dmaWrite .. => some (0, 0x33#8)
  | .mrd32 .. => some (6, 0x00#8)
  | .mrd64 .. => some (6, 0x20#8)
  | .mwr32 .. => some (6, 0x40#8)
  | .mwr64 .. => some (6, 0x60#8)
  | .cpld .. => some (6, 0x4A#8)
  | .cpl .. => some (6, 0x0A#8)
  | .nettlp .. => none

/-- The encoding holds the form byte at its place; a bare transport header is at least six bytes long. -/
def FormByte.Statement (i : Instr) : Prop :=
  match formByte i with
  | some (k, b) => (encode i)[k]? = some b
  | none => Config.nettlpLen ≤ (encode i).length

theorem FormByte.reqidPack (bus dev fn : BitVec 64) :
    FormByte.Statement (.reqidPack bus dev fn) := rfl
theorem FormByte.calcLength (addr count : BitVec 64) :
    FormByte.Statement (.calcLength addr count) := rfl
theorem FormByte.calcFirstbe (addr count : BitVec 64) :
    FormByte.Statement (.calcFirstbe addr count) := rfl
theorem FormByte.calcLastbe (addr count : BitVec 64) :
    FormByte.Statement (.calcLastbe addr count) := rfl
theorem FormByte.chunkLen (addr remaining mrrs : BitVec 64) :
    FormByte.Statement (.chunkLen addr remaining mrrs) := rfl
theorem FormByte.portSel (dir : BitVec 1) (tag : BitVec 8) :
    FormByte.Statement (.portSel dir tag) := rfl
theorem FormByte.encNettlp :
    FormByte.Statement (.encNettlp) := rfl
theorem FormByte.encMrd (reqid : BitVec 16) (tag : BitVec 8) (addr count : BitVec 64) :
    FormByte.Statement (.encMrd reqid tag addr count) := rfl
theorem FormByte.encMwr (reqid : BitVec 16) (tag : BitVec 8) (addr count : BitVec 64) :
    FormByte.Statement (.encMwr reqid tag addr count) := rfl
theorem FormByte.decCpl (buf : Bytes) :
    FormByte.Statement (.decCpl buf) := rfl
theorem FormByte.cplLength (buf : Bytes) :
    FormByte.Statement (.cplLength buf) := rfl
theorem FormByte.cplCount (buf : Bytes) :
    FormByte.Statement (.cplCount buf) := rfl
theorem FormByte.cplIsLast (buf : Bytes) :
    FormByte.Statement (.cplIsLast buf) := rfl
theorem FormByte.cplSpan (buf : Bytes) (dgramLen space : BitVec 64) :
    FormByte.Statement (.cplSpan buf dgramLen space) := rfl
theorem FormByte.decReq (buf : Bytes) :
    FormByte.Statement (.decReq buf) := rfl
theorem FormByte.reqSpan (buf : Bytes) :
    FormByte.Statement (.reqSpan buf) := rfl
theorem FormByte.openSession (reqid tag mrrs dir : BitVec 64) :
    FormByte.Statement (.openSession reqid tag mrrs dir) := rfl
theorem FormByte.closeSession :
    FormByte.Statement (.closeSession) := rfl
theorem FormByte.dmaRead (addr len : BitVec 64) :
    FormByte.Statement (.dmaRead addr len) := rfl
theorem FormByte.dmaWrite (addr len : BitVec 64) :
    FormByte.Statement (.dmaWrite addr len) := rfl
theorem FormByte.mrd32 (nt : NettlpHdr) (head : ReqHead) (address : BitVec 32) (rest : Bytes) :
    FormByte.Statement (.mrd32 nt head address rest) := rfl
theorem FormByte.mrd64 (nt : NettlpHdr) (head : ReqHead) (address : BitVec 64) (rest : Bytes) :
    FormByte.Statement (.mrd64 nt head address rest) := rfl
theorem FormByte.mwr32 (nt : NettlpHdr) (head : ReqHead) (address : BitVec 32) (rest : Bytes) :
    FormByte.Statement (.mwr32 nt head address rest) := rfl
theorem FormByte.mwr64 (nt : NettlpHdr) (head : ReqHead) (address : BitVec 64) (rest : Bytes) :
    FormByte.Statement (.mwr64 nt head address rest) := rfl
theorem FormByte.cpld (nt : NettlpHdr) (hdr : CplHdr) (rest : Bytes) :
    FormByte.Statement (.cpld nt hdr rest) := rfl
theorem FormByte.cpl (nt : NettlpHdr) (hdr : CplHdr) (rest : Bytes) :
    FormByte.Statement (.cpl nt hdr rest) := rfl
theorem FormByte.nettlp (nt : NettlpHdr) (rest : Bytes) : FormByte.Statement (.nettlp nt rest) := by
  show 6 ≤ (encodeNettlp nt ++ rest).length
  rw [List.length_append]
  exact Nat.le_add_right 6 rest.length

end Sys2Proof.Laws
end

