-- ==== Sys2Proof/Tests/Slice0.lean ====
section
/-! SUPPORT. Tests. Expected values are those of 95_test_vectors.md (the section or program is named) or are
written out by hand from the table of the rule named. The last part shows, for each statement of
Certificates/Slice0/Obligations.lean that has hypotheses, that something meets them. -/

namespace Sys2Proof.Tests

open Sys2Proof Sys2Proof.Machine

/-! ### Small states -/

/-- After reset, with buffers of 16 bytes and a transport that takes everything asked of it here. -/
def idle : State :=
  { State.resetSized 16 16 with ports := { Ports.silent with txAnswers := [.ok, .ok] } }

/-- With the session of program P2, and SRC holding 0, 1, …, 7. -/
def opened : State :=
  { idle with
    sess := { isOpen := true, reqid := 0x0100#16, tag := 5#8, mrrs := 512#64, dir := .issuedByCore }
    src := idle.src.write 0 [0#8, 1#8, 2#8, 3#8, 4#8, 5#8, 6#8, 7#8] }

/-- Waiting for the one chunk of `DMA_READ addr=0x3, len=7` (program P2), DST filled with EE. -/
def reading : State :=
  { opened with
    seq := { state := .rdRecv, p := 3#64, len := 7#64, received := 0#64, chunk := 7#13, cursor := 0#13 }
    dst := idle.dst.write 0 (List.replicate 16 0xEE#8) }

/-- Waiting for the first chunk of `DMA_READ addr=0xFFE, len=6` (program P8). -/
def reading2 : State :=
  { reading with
    seq := { state := .rdRecv, p := 0xFFE#64, len := 6#64, received := 0#64, chunk := 2#13, cursor := 0#13 } }

/-- The responses after an outcome, none after a stop. -/
def responses (o : Outcome) : Option (List Response) :=
  match o with
  | .next s => some s.ports.responses
  | .fault _ => none
  | .refused _ => none

/-- What an outcome has asked of the transport. -/
def asked (o : Outcome) : Option (List TransportAct) :=
  match o with
  | .next s => some s.ports.transport
  | .fault _ => none
  | .refused _ => none

/-- The first `n` bytes of DST after an outcome. -/
def dstAfter (n : Nat) (o : Outcome) : Option Bytes :=
  match o with
  | .next s => some (s.dst.read 0 n)
  | .fault _ => none
  | .refused _ => none

def nt0 : NettlpHdr := ⟨0#16, 0#32⟩

/-- The request fields of `DEC_REQ` in E5. -/
def head16 : ReqHead := ⟨0#8, 0#6, 16#10, 0x0100#16, 5#8, 0xF#4, 0xF#4⟩

/-- A completion header with the ids of 95_test_vectors.md. -/
def cplHdr (length : BitVec 10) (count : BitVec 12) (lowaddr : BitVec 7) : CplHdr :=
  ⟨0#8, 0#6, length, 0x0200#16, 0#3, 0#1, count, 0x0100#16, 5#8, 0#1, lowaddr⟩

/-! ### Well-formed instructions -/

/-- A bare transport header has no room for a completion header. -/
theorem test_wellFormed_refuses_long_nettlp :
    (Instr.nettlp nt0 (zeros 12)).wellFormed = false ∧ (Instr.nettlp nt0 (zeros 11)).wellFormed = true := by
  decide

/-! ### Decoding words written out from R69, R50, R51, R52 and R60 -/

theorem test_decode_reqidPack :
    decodeCommand [0x01#8, 0#8, 0#8, 0#8, 0#8, 0#8, 0#8, 0#8, 1#8, 0#8, 0#8, 0#8, 0#8, 0#8, 0#8, 0#8, 2#8,
      0#8, 0#8, 0#8, 0#8, 0#8, 0#8, 0#8, 3#8] = .ok (.reqidPack 1#64 2#64 3#64) := by decide

theorem test_decode_calcLength :
    decodeCommand [0x02#8, 1#8, 2#8, 3#8, 4#8, 5#8, 6#8, 7#8, 8#8, 0#8, 0#8, 0#8, 0#8, 0#8, 0#8, 0#8, 64#8] =
      .ok (.calcLength 0x0102030405060708#64 64#64) := by decide

theorem test_decode_calcFirstbe :
    decodeCommand [0x03#8, 0#8, 0#8, 0#8, 0#8, 0#8, 0#8, 0x10#8, 0#8, 0#8, 0#8, 0#8, 0#8, 0#8, 0#8, 0#8, 7#8] =
      .ok (.calcFirstbe 0x1000#64 7#64) := by decide

theorem test_decode_calcLastbe :
    decodeCommand [0x04#8, 0#8, 0#8, 0#8, 0#8, 0#8, 0#8, 0#8, 3#8, 0#8, 0#8, 0#8, 0#8, 0#8, 0#8, 0#8, 7#8] =
      .ok (.calcLastbe 3#64 7#64) := by decide

theorem test_decode_chunkLen :
    decodeCommand [0x05#8, 0#8, 0#8, 0#8, 0#8, 0#8, 0#8, 0x0F#8, 0xFF#8, 0#8, 0#8, 0#8, 0#8, 0#8, 0#8, 0#8, 1#8,
      0#8, 0#8, 0#8, 0#8, 0#8, 0#8, 2#8, 0#8] = .ok (.chunkLen 0xFFF#64 1#64 512#64) := by decide

theorem test_decode_portSel :
    decodeCommand [0x06#8, 1#8, 0x25#8] = .ok (.portSel 1#1 0x25#8) ∧
      decodeCommand [0x06#8, 2#8, 0x25#8] = .error (.badOperands 0x06#8) := by decide

theorem test_decode_encNettlp : decodeCommand [0x10#8] = .ok .encNettlp := by decide

theorem test_decode_encMrd :
    decodeCommand [0x11#8, 1#8, 0#8, 5#8, 0#8, 0#8, 0#8, 0#8, 0#8, 0#8, 0x10#8, 0#8,
      0#8, 0#8, 0#8, 0#8, 0#8, 0#8, 0#8, 64#8] = .ok (.encMrd 0x0100#16 5#8 0x1000#64 64#64) := by decide

theorem test_decode_encMwr :
    decodeCommand [0x12#8, 1#8, 0#8, 5#8, 0#8, 0#8, 0#8, 1#8, 0#8, 0#8, 0#8, 0#8,
      0#8, 0#8, 0#8, 0#8, 0#8, 0#8, 0#8, 8#8] = .ok (.encMwr 0x0100#16 5#8 0x100000000#64 8#64) := by decide

theorem test_decode_decCpl : decodeCommand [0x20#8, 0x4A#8, 0#8] = .ok (.decCpl [0x4A#8, 0#8]) := by decide

theorem test_decode_cplLength : decodeCommand [0x21#8, 0x4A#8] = .ok (.cplLength [0x4A#8]) := by decide

theorem test_decode_cplCount : decodeCommand [0x22#8, 0x4A#8] = .ok (.cplCount [0x4A#8]) := by decide

theorem test_decode_cplIsLast : decodeCommand [0x23#8] = .ok (.cplIsLast []) := by decide

theorem test_decode_cplSpan :
    decodeCommand [0x24#8, 0#8, 0#8, 0#8, 0#8, 0#8, 0#8, 0#8, 30#8, 0#8, 0#8, 0#8, 0#8, 0#8, 0#8, 0#8, 7#8, 0x4A#8] =
      .ok (.cplSpan [0x4A#8] 30#64 7#64) := by decide

theorem test_decode_decReq : decodeCommand [0x28#8, 0x60#8] = .ok (.decReq [0x60#8]) := by decide

theorem test_decode_reqSpan : decodeCommand [0x29#8, 0x20#8] = .ok (.reqSpan [0x20#8]) := by decide

theorem test_decode_open :
    decodeCommand [0x30#8, 0#8, 0#8, 0#8, 0#8, 0#8, 0#8, 1#8, 0#8, 0#8, 0#8, 0#8, 0#8, 0#8, 0#8, 0#8, 5#8,
      0#8, 0#8, 0#8, 0#8, 0#8, 0#8, 2#8, 0#8, 0#8, 0#8, 0#8, 0#8, 0#8, 0#8, 0#8, 1#8] =
      .ok (.openSession 0x0100#64 5#64 512#64 1#64) := by decide

theorem test_decode_close :
    decodeCommand [0x31#8] = .ok .closeSession ∧ decodeCommand [0x31#8, 0#8] = .error (.badOperands 0x31#8) := by
  decide

theorem test_decode_dmaRead :
    decodeCommand [0x32#8, 0#8, 0#8, 0#8, 0#8, 0#8, 0#8, 0#8, 3#8, 0#8, 0#8, 0#8, 0#8, 0#8, 0#8, 0#8, 7#8] =
      .ok (.dmaRead 3#64 7#64) := by decide

theorem test_decode_dmaWrite :
    decodeCommand [0x33#8, 0#8, 0#8, 0#8, 0#8, 0#8, 0#8, 0x0F#8, 0xF8#8, 0#8, 0#8, 0#8, 0#8, 0#8, 0#8, 0#8, 16#8] =
      .ok (.dmaWrite 0xFF8#64 16#64) := by decide

/-- E5's header behind a transport header with sequence 0x1234 and timestamp 0x56789ABC. -/
theorem test_decode_mrd32 :
    decodeDatagram [0x12#8, 0x34#8, 0x56#8, 0x78#8, 0x9A#8, 0xBC#8, 0x00#8, 0#8, 0#8, 0x10#8, 0x01#8, 0#8, 0x05#8,
      0xFF#8, 0#8, 0#8, 0x10#8, 0#8] = .ok (.mrd32 ⟨0x1234#16, 0x56789ABC#32⟩ head16 0x1000#32 []) := by decide

/-- The header of R83's example. -/
theorem test_decode_mrd64 :
    decodeDatagram [0#8, 0#8, 0#8, 0#8, 0#8, 0#8, 0x20#8, 0#8, 0#8, 0x03#8, 0x01#8, 0#8, 0x05#8, 0x38#8,
      0#8, 0#8, 0#8, 0x01#8, 0#8, 0#8, 0#8, 0#8] =
      .ok (.mrd64 nt0 ⟨0#8, 0#6, 3#10, 0x0100#16, 5#8, 3#4, 8#4⟩ 0x100000000#64 []) := by decide

/-- The header of R84's example, every bit of `tc` and `flags` set, with one byte of payload. -/
theorem test_decode_mwr32 :
    decodeDatagram [0#8, 0#8, 0#8, 0#8, 0#8, 0#8, 0x40#8, 0xFF#8, 0xFE#8, 0x02#8, 0x01#8, 0#8, 0x05#8, 0xFF#8,
      0#8, 0#8, 0x0F#8, 0xF8#8, 0x77#8] =
      .ok (.mwr32 nt0 ⟨0xFF#8, 0x3F#6, 0x202#10, 0x0100#16, 5#8, 0xF#4, 0xF#4⟩ 0xFF8#32 [0x77#8]) := by decide

/-- The header of R80's example. -/
theorem test_decode_mwr64 :
    decodeDatagram [0#8, 0#8, 0#8, 0#8, 0#8, 0#8, 0x60#8, 0#8, 0#8, 0x02#8, 0x01#8, 0#8, 0x05#8, 0xFF#8,
      0#8, 0#8, 0#8, 0x01#8, 0#8, 0#8, 0#8, 0#8] =
      .ok (.mwr64 nt0 ⟨0#8, 0#6, 2#10, 0x0100#16, 5#8, 0xF#4, 0xF#4⟩ 0x100000000#64 []) := by decide

/-- Section 2.5, third row: every ignored bit set. -/
theorem test_decode_cpld :
    decodeDatagram [0#8, 0#8, 0#8, 0#8, 0#8, 0#8, 0x4A#8, 0xFF#8, 0xFC#8, 0x03#8, 0x02#8, 0#8, 0x10#8, 0x07#8,
      0x01#8, 0#8, 0x05#8, 0x83#8, 0xAA#8] =
      .ok (.cpld nt0 ⟨0xFF#8, 0x3F#6, 3#10, 0x0200#16, 0#3, 1#1, 7#12, 0x0100#16, 5#8, 1#1, 3#7⟩ [0xAA#8]) := by
  decide

/-- Section 2.5: a completion without data whose status is 1. -/
theorem test_decode_cpl :
    decodeDatagram [0#8, 0#8, 0#8, 0#8, 0#8, 0#8, 0x0A#8, 0#8, 0#8, 0#8, 0x02#8, 0#8, 0x20#8, 0#8, 0x01#8, 0#8,
      0x05#8, 0#8] =
      .ok (.cpl nt0 ⟨0#8, 0#6, 0#10, 0x0200#16, 1#3, 0#1, 0#12, 0x0100#16, 5#8, 0#1, 0#7⟩ []) := by decide

/-- R50. -/
theorem test_decode_nettlp :
    decodeDatagram [0x12#8, 0x34#8, 0x56#8, 0x78#8, 0x9A#8, 0xBC#8, 0x0A#8] =
      .ok (.nettlp ⟨0x1234#16, 0x56789ABC#32⟩ [0x0A#8]) := by decide

/-- R70, R67: what the decoder refuses, by name. -/
theorem test_decode_refuses :
    decodeCommand [] = .error .noOpcode ∧ decodeCommand [0x07#8] = .error (.badOpcode 0x07#8) ∧
      decodeDatagram (zeros 5) = .error .noTransportHeader ∧
      decodeDatagram (zeros 6 ++ 0x4B#8 :: zeros 11) = .error (.badFmtType 0x4B#8) ∧
      decodeDatagram (zeros 6 ++ 0x20#8 :: zeros 14) = .error (.cutRequest 0x20#8) := by decide

/-! ### Rows of opcode_table.json -/

/-- One row of each width: a command, a header of 96 bits, one of 128, and the transport header. -/
theorem test_table_words :
    decodeTableWord 8 0x31 = some .closeSession ∧
      decodeTableWord 96 0x4A0000030200000701000503 = some (.cpld nt0 (cplHdr 3#10 7#12 3#7) []) ∧
      (decodeTableWord 128 0x60000002010005FF0000000100000000).isSome = true ∧
      decodeTableWord 48 0x123456789ABC = some (.nettlp ⟨0x1234#16, 0x56789ABC#32⟩ []) ∧
      decodeTableWord 8 0x07 = none := by decide

/-- A row's word placed on its port runs as the first instruction after reset. -/
theorem test_table_step :
    responses (step (State.reset.withFetchWord 8 0x31)) = some [errorResponse .state .badState 0 0] ∧
      responses (step (State.reset.withFetchWord 96 0x0A0000000200000001000500)) =
        some [errorResponse .invalidAddress .none 0x0A 0] := by decide

/-! ### One step of each instruction -/

/-- Section 2.1. -/
theorem test_reqidPack :
    responses (exec (.reqidPack 0x3B#64 0x10#64 2#64) idle) = some [.ok (.reqid 0x3B82#16)] ∧
      responses (exec (.reqidPack 255#64 31#64 8#64) idle) =
        some [errorResponse .precondition .badOperand 0xFF1F08 0] := by decide

/-- Section 2.3. -/
theorem test_calcLength :
    responses (exec (.calcLength 1#64 0xFFFFFFFFFFFFFFFF#64) idle) = some [.ok (.len 0x4000000000000000#63)] ∧
      responses (exec (.calcLength 2#64 0xFFFFFFFFFFFFFFFF#64) idle) =
        some [errorResponse .range .addrOverflow 2 0xFFFFFFFFFFFFFFFF] := by decide

/-- Sections 2.2 and 2.3. -/
theorem test_calcFirstbe :
    responses (exec (.calcFirstbe 1#64 4#64) idle) = some [.ok (.be 0b1110#4)] ∧
      responses (exec (.calcFirstbe 0xFFFFFFFFFFFFFFFF#64 2#64) idle) = some [.ok (.be 0b1000#4)] := by decide

/-- Sections 2.2 and 2.3. -/
theorem test_calcLastbe :
    responses (exec (.calcLastbe 3#64 7#64) idle) = some [.ok (.be 0b0011#4)] ∧
      responses (exec (.calcLastbe 1#64 7#64) idle) = some [.ok (.be 0b1111#4)] := by decide

/-- E3, and R100's corner cases (a) and (d). -/
theorem test_chunkLen :
    responses (exec (.chunkLen 0xFFF#64 1#64 512#64) idle) = some [.ok (.chunk 1#13)] ∧
      responses (exec (.chunkLen 0x1000#64 9000#64 9000#64) idle) = some [.ok (.chunk 4096#13)] ∧
      responses (exec (.chunkLen 0#64 5#64 0#64) idle) = some [.ok (.chunk 0#13)] := by decide

/-- R103's examples. -/
theorem test_portSel :
    responses (exec (.portSel 0#1 5#8) idle) = some [.ok (.port 0x3005#16)] ∧
      responses (exec (.portSel 1#1 0x25#8) idle) = some [.ok (.port 0x4005#16)] := by decide

theorem test_encNettlp :
    responses (exec .encNettlp idle) = some [.ok (.hdr [0#8, 0#8, 0#8, 0#8, 0#8, 0#8])] := by decide

/-- Section 2.4. -/
theorem test_encMrd :
    responses (exec (.encMrd 0x0100#16 5#8 0xDEADBEEF#64 16#64) idle) =
        some [.ok (.hdr [0#8, 0#8, 0#8, 5#8, 1#8, 0#8, 5#8, 0x78#8, 0xDE#8, 0xAD#8, 0xBE#8, 0xEC#8])] ∧
      responses (exec (.encMrd 0x0100#16 5#8 1#64 4096#64) idle) =
        some [errorResponse .range .lengthOverflow 1025 4096] := by decide

/-- Section 2.4. -/
theorem test_encMwr :
    responses (exec (.encMwr 0x0100#16 5#8 0x100000000#64 8#64) idle) =
      some [.ok (.hdr [0x60#8, 0#8, 0#8, 2#8, 1#8, 0#8, 5#8, 0xFF#8, 0#8, 0#8, 0#8, 1#8, 0#8, 0#8, 0#8, 0#8])] := by
  decide

/-- Section 2.5: ignored bits set; a completion without data with a failing status. -/
theorem test_decCpl :
    responses (exec (.decCpl
        [0x4A#8, 0xFF#8, 0xFC#8, 3#8, 2#8, 0#8, 0x10#8, 7#8, 1#8, 0#8, 5#8, 0x83#8]) idle) =
        some [.ok (.cplFields ⟨0x4A#8, 0xFF#8, 3#10, 0x0200#16, 0#3, 7#12, 0x0100#16, 5#8, 3#7⟩)] ∧
      responses (exec (.decCpl [0x0A#8, 0#8, 0#8, 0#8, 2#8, 0#8, 0x20#8, 0#8, 1#8, 0#8, 5#8, 0#8]) idle) =
        some [errorResponse .invalidAddress .none 0x0A 0] := by decide

/-- R90's corner case. -/
theorem test_cplLength :
    responses (exec (.cplLength [0x0A#8, 0#8, 0xFC#8, 3#8, 2#8, 0#8, 0x20#8, 0#8, 1#8, 0#8, 5#8, 0#8]) idle) =
      some [.ok (.length 3#10)] := by decide

/-- R91's corner case, and a buffer of 11 bytes (section 2.5). -/
theorem test_cplCount :
    responses (exec (.cplCount [0x4A#8, 0#8, 0#8, 3#8, 2#8, 0#8, 0xF0#8, 7#8, 1#8, 0#8, 5#8, 3#8]) idle) =
        some [.ok (.count 7#12)] ∧
      responses (exec (.cplCount (zeros 11)) idle) = some [errorResponse .invalidData .tooShort 11 12] := by decide

/-- E4. -/
theorem test_cplIsLast :
    responses (exec (.cplIsLast [0x4A#8, 0#8, 0#8, 1#8, 2#8, 0#8, 0#8, 1#8, 1#8, 0#8, 5#8, 3#8]) idle) =
        some [.ok (.last true)] ∧
      responses (exec (.cplIsLast [0x4A#8, 0#8, 0#8, 2#8, 2#8, 0#8, 0#8, 1#8, 1#8, 0#8, 5#8, 3#8]) idle) =
        some [.ok (.last false)] := by decide

/-- Section 2.7: the span ends exactly at the end of the datagram; both checks fail, the datagram's is first. -/
theorem test_cplSpan :
    responses (exec (.cplSpan [0x4A#8, 0#8, 0#8, 3#8, 2#8, 0#8, 0#8, 7#8, 1#8, 0#8, 5#8, 3#8] 28#64 7#64) idle) =
        some [.ok (.span 21#64 7#13)] ∧
      responses (exec (.cplSpan [0x4A#8, 0#8, 0#8, 3#8, 2#8, 0#8, 0#8, 7#8, 1#8, 0#8, 5#8, 3#8] 27#64 6#64) idle) =
        some [errorResponse .invalidData .spanExceedsDatagram 28 27] := by decide

/-- E5. -/
theorem test_decReq :
    responses (exec (.decReq [0#8, 0#8, 0#8, 0x10#8, 1#8, 0#8, 5#8, 0xFF#8, 0#8, 0#8, 0x10#8, 0#8]) idle) =
      some [.ok (.reqFields ⟨0#8, false, false, 0#8, 0#6, 16#10, 0x0100#16, 5#8, 0xF#4, 0xF#4, 0x1000#64⟩)] := by
  decide

/-- R97's second example, and a first nibble with a hole in it. -/
theorem test_reqSpan :
    responses (exec (.reqSpan
        [0x20#8, 0#8, 0#8, 3#8, 1#8, 0#8, 5#8, 0x38#8, 0#8, 0#8, 0#8, 1#8, 0#8, 0#8, 0#8, 0#8]) idle) =
        some [.ok (.range 0x100000003#64 7#13)] ∧
      responses (exec (.reqSpan [0#8, 0#8, 0#8, 1#8, 1#8, 0#8, 5#8, 0x05#8, 0#8, 0#8, 0#8, 0#8]) idle) =
        some [errorResponse .invalidData .badByteEnable 5 0] := by decide

/-- R104's example; a second `OPEN` (section 2.10). -/
theorem test_open :
    responses (exec (.openSession 0x0100#64 5#64 512#64 0#64) idle) = some [.ok (.port 0x3005#16)] ∧
      responses (exec (.openSession 0x0100#64 5#64 512#64 0#64) opened) =
        some [errorResponse .state .badState 1 0] := by decide

theorem test_close :
    asked (exec .closeSession opened) = some [.closed] ∧
      responses (exec .closeSession idle) = some [errorResponse .state .badState 0 0] := by decide

/-- Program P2: the request emitted. -/
theorem test_dmaRead :
    asked (exec (.dmaRead 3#64 7#64) opened) =
      some [.sent [0#8, 0#8, 0#8, 0#8, 0#8, 0#8, 0#8, 0#8, 0#8, 3#8, 1#8, 0#8, 5#8, 0x38#8, 0#8, 0#8, 0#8, 0#8]
        .ok] := by decide

/-- Two `MWR32` requests across a page boundary, as in program P4 with 8 bytes; the refusal of program P5. -/
theorem test_dmaWrite :
    asked (exec (.dmaWrite 0xFFC#64 8#64) opened) =
        some
          [.sent [0#8, 0#8, 0#8, 0#8, 0#8, 0#8, 0x40#8, 0#8, 0#8, 1#8, 1#8, 0#8, 5#8, 0x0F#8, 0#8, 0#8, 0x0F#8, 0xFC#8,
              0#8, 1#8, 2#8, 3#8] .ok,
            .sent [0#8, 0#8, 0#8, 0#8, 0#8, 0#8, 0x40#8, 0#8, 0#8, 1#8, 1#8, 0#8, 5#8, 0x0F#8, 0#8, 0#8, 0x10#8, 0#8,
              4#8, 5#8, 6#8, 7#8] .ok] ∧
      responses (exec (.dmaWrite 1#64 4#64) opened) = some [errorResponse .precondition .badAlignment 1 4] := by
  decide

/-- Section 2.12: a request header received is malformed. -/
theorem test_mrd32 :
    responses (exec (.mrd32 nt0 head16 0x1000#32 []) reading) =
      some [errorResponse .invalidData .badFmtType 0 0] := by decide

theorem test_mrd64 :
    responses (exec (.mrd64 nt0 head16 0x1000#64 []) reading) =
      some [errorResponse .invalidData .badFmtType 0x20 0] := by decide

theorem test_mwr32 :
    responses (exec (.mwr32 nt0 head16 0x1000#32 []) reading) =
      some [errorResponse .invalidData .badFmtType 0x40 0] := by decide

theorem test_mwr64 :
    responses (exec (.mwr64 nt0 head16 0x1000#64 [1#8, 2#8]) reading) =
      some [errorResponse .invalidData .badFmtType 0x60 0] := by decide

/-- Programs P2 and P2b. -/
theorem test_cpld :
    dstAfter 8 (exec (.cpld nt0 (cplHdr 3#10 7#12 3#7)
        [0xAA#8, 0xAA#8, 0xAA#8, 0x13#8, 0x14#8, 0x15#8, 0x16#8, 0x17#8, 0x18#8, 0x19#8, 0xBB#8, 0xBB#8]) reading) =
        some [0x13#8, 0x14#8, 0x15#8, 0x16#8, 0x17#8, 0x18#8, 0x19#8, 0xEE#8] ∧
      responses (exec (.cpld nt0 (cplHdr 2#10 7#12 3#7)
        [0xAA#8, 0xAA#8, 0xAA#8, 0x13#8, 0x14#8, 0x15#8, 0x16#8, 0x17#8]) reading) = some [] := by decide

/-- Program P7. -/
theorem test_cpl :
    responses (exec (.cpl nt0 ⟨0#8, 0#6, 0#10, 0x0200#16, 1#3, 0#1, 8#12, 0x0100#16, 5#8, 0#1, 0#7⟩ []) reading) =
      some [errorResponse .invalidAddress .none 0x0A 0] := by decide

/-- R134: 17 bytes whose byte 6 is 0x0A are too short. -/
theorem test_nettlp :
    responses (exec (.nettlp nt0 (0x0A#8 :: zeros 10)) reading) =
      some [errorResponse .invalidData .tooShort 17 18] := by decide

/-! ### Steps that are no instruction -/

/-- Section 2.12: the empty datagram; and 18 bytes that are of no wire form. -/
theorem test_unclassified_datagrams :
    responses (step { reading with ports.rx := [.datagram []] }) = some [errorResponse .invalidData .tooShort 0 18] ∧
      responses (step { reading with ports.rx := [.datagram (zeros 6 ++ 0x4B#8 :: zeros 11)] }) =
        some [errorResponse .invalidData .badFmtType 0x4B 0] := by decide

/-- Section 2.11 and R116. -/
theorem test_illegalOp_and_timeout :
    responses (step { idle with ports.host := [.command [0xFF#8, 1#8]] }) =
        some [errorResponse .illegalOp .badOpcode 0xFF 0] ∧
      responses (step { reading with ports.rx := [.timeout] }) = some [errorResponse .timeout .none 0 0] := by decide

/-- R71: the notation of a response and of a command. -/
theorem test_notation :
    responseLine (errorResponse .precondition .badAlignment 1 4) =
        "=> ErrPrecondition cause=BadAlignment raw0=1 raw1=4" ∧
      instrLine (.portSel 0#1 5#8) = "PORT_SEL dir=0, tag=5" := by decide

/-! ### Witnesses: states and operands that meet the hypotheses of the statements

The theorem `witness_<Name>` is for `Obligations.<Name>`. Statements whose one hypothesis is that the block is
in IDLE share `witness_idle`; where they have clauses, a witness stands at the edge of each. -/

theorem witness_idle : idle.seq.state = .idle ∧ opened.seq.state = .idle := by decide

theorem witness_ResetStepClears : { reading with ports.resetPin := true }.ports.resetPin = true := by decide

theorem witness_DecodeEncode :
    (Instr.nettlp nt0 (zeros 11)).wellFormed = true ∧ (Instr.cpld nt0 (cplHdr 1023#10 4095#12 127#7) []).wellFormed = true := by
  decide

theorem witness_EncodeDecode :
    decode .command [0x06#8, 1#8, 0xFF#8] = .ok (.portSel 1#1 0xFF#8) ∧
      decode .rx (zeros 17) = .ok (.nettlp nt0 (zeros 11)) ∧
      decode .rx (zeros 18) = .ok (.mrd32 nt0 ⟨0#8, 0#6, 0#10, 0#16, 0#8, 0#4, 0#4⟩ 0#32 []) := by decide

/-- A host that presents `CLOSE`. -/
def presenting (a : HostAct) : State := { opened with ports.host := [a] }

/-- A transport that delivers one event to `reading`. -/
def delivering (e : RxEvent) : State := { reading with ports.rx := [e] }

theorem witness_StepRunsDecodedInstruction :
    let s := presenting (.command [0x31#8])
    let r := delivering (.datagram (zeros 6))
    (s.ports.resetPin = false ∧ s.seq.state = .idle ∧ s.ports.host = .command [0x31#8] :: [] ∧
      decodeCommand [0x31#8] = .ok .closeSession) ∧
    (r.ports.resetPin = false ∧ r.seq.state = .rdRecv ∧ r.ports.rx = .datagram (zeros 6) :: [] ∧
      decodeDatagram (zeros 6) = .ok (.nettlp nt0 [])) := by decide

/-- The empty datagram, which decodes to nothing, and one that decodes. -/
theorem witness_StepOnDatagramIsReassembly :
    let s := delivering (.datagram [])
    s.ports.resetPin = false ∧ s.seq.state = .rdRecv ∧ s.ports.rx = .datagram [] :: [] ∧
      (delivering (.datagram (zeros 18))).ports.rx = .datagram (zeros 18) :: [] := by decide

/-- The op bytes next to those of the map, 0x00 and 0x34 among them. -/
theorem witness_IllegalOpRaises :
    let s := presenting (.command [0x00#8])
    s.ports.resetPin = false ∧ s.seq.state = .idle ∧ s.ports.host = .command (0x00#8 :: []) :: [] ∧
      ∀ op ∈ [0x00, 0x07, 0x0F, 0x13, 0x1F, 0x25, 0x27, 0x2A, 0x2F, 0x34, 0xFF],
        op ∉ [0x01, 0x02, 0x03, 0x04, 0x05, 0x06, 0x10, 0x11, 0x12, 0x20, 0x21, 0x22, 0x23, 0x24, 0x28, 0x29,
          0x30, 0x31, 0x32, 0x33] := by decide

theorem witness_CommandsHeldDuringRead :
    Instr.closeSession.port = .command ∧ reading.seq.state = .rdRecv := by decide

theorem witness_EventsStayWithTransport :
    (Instr.nettlp nt0 []).port = .rx ∧ idle.seq.state = .idle ∧ step idle = .next idle := by
  refine ⟨by decide, by decide, rfl⟩

theorem witness_HostHeldDuringRead :
    (delivering .timeout).seq.state = .rdRecv ∧ (∃ t, step (delivering .timeout) = .next t) ∧
      (idle.ports.resetPin = false ∧ idle.seq.state = .idle ∧ idle.ports.host = []) := by
  refine ⟨by decide, ⟨_, rfl⟩, by decide⟩

/-- A receive that an input answers, and one that only a free event answers. -/
theorem witness_EveryReceiveIsAnswered :
    ((delivering .timeout).ports.resetPin = false ∧ (delivering .timeout).seq.state = .rdRecv ∧
      (delivering .timeout).Inv) ∧
      reading.ports.resetPin = false ∧ reading.seq.state = .rdRecv ∧ reading.ports.rx = [] ∧ reading.Inv := by
  decide

/-- In range at every bound, and out of range by one in each operand. -/
theorem witness_ReqidPackResult :
    ((255#64).toNat ≤ 255 ∧ (31#64).toNat ≤ 31 ∧ (7#64).toNat ≤ 7) ∧ ¬(256#64).toNat ≤ 255 ∧ ¬(32#64).toNat ≤ 31 ∧
      ¬(8#64).toNat ≤ 7 := by decide

/-- Sums of exactly `2^64` and of one more: both clauses of CALC_LENGTH, CALC_LASTBE, ENC_MRD and ENC_MWR. -/
theorem witness_CalcLengthResult :
    (0xFFFFFFFFFFFFFFFF#64).toNat + (1#64).toNat ≤ 2 ^ 64 ∧ ¬(0xFFFFFFFFFFFFFFFF#64).toNat + (2#64).toNat ≤ 2 ^ 64 := by
  decide

theorem witness_CalcLastbeResult :
    (1#64).toNat + (0xFFFFFFFFFFFFFFFF#64).toNat ≤ 2 ^ 64 ∧ ¬(2#64).toNat + (0xFFFFFFFFFFFFFFFF#64).toNat ≤ 2 ^ 64 := by
  decide

theorem witness_ByteEnablesCoverExactly :
    idle.seq.state = .idle ∧ (1#64).toNat + (0xFFFFFFFFFFFFFFFF#64).toNat ≤ 2 ^ 64 := by decide

theorem witness_ChunkLenIsLongestLegal :
    idle.seq.state = .idle ∧ 1 ≤ (1#64).toNat ∧ 1 ≤ (0xFFFFFFFFFFFFFFFF#64).toNat := by decide

/-- R102's first example, and the empty transfer. -/
theorem witness_ChunksPartitionTransfer :
    1 ≤ 512 ∧ 0xFF8 + 16 ≤ 2 ^ 64 ∧ chunks 0xFF8 16 512 = [(0xFF8, 8)] ++ (0x1000, 8) :: [] ∧
      2 ^ 64 - 1 + 1 ≤ 2 ^ 64 ∧ chunks (2 ^ 64 - 1) 1 1 = [(2 ^ 64 - 1, 1)] ∧ chunks 5 0 1 = [] := by decide

theorem witness_EncNettlpResult :
    idle.seq.state = .idle ∧ (zeros 11).length < 12 ∧ (zeros 6).length = 6 ∧
      [1#8, 2#8, 3#8, 4#8, 5#8, 6#8].length = 6 ∧ reading.ports.resetPin = false ∧ reading.seq.state = .rdRecv := by
  decide

/-- Overflow by one; 1025 DWs; 1024 DWs on both sides of the 4 GiB line. -/
theorem witness_EncMrdResult :
    2 ^ 64 < (0xFFFFFFFFFFFFFFFF#64).toNat + (2#64).toNat ∧ 1024 < dwCount 0 4097 ∧ dwCount 0 4096 = 1024 ∧
      (0xFFFFFFFF#64).toNat ≤ 0xFFFFFFFF ∧ ¬(0x100000000#64).toNat ≤ 0xFFFFFFFF := by decide

theorem witness_EncMwrResult :
    2 ^ 64 < (2#64).toNat + (0xFFFFFFFFFFFFFFFF#64).toNat ∧ 1024 < dwCount 1 4096 ∧ dwCount 3 4093 = 1024 := by decide

/-- 11 and 12 bytes; a completion without data, a byte 0 that is neither, a failing status, success. -/
theorem witness_DecCplResult :
    (zeros 11).length < 12 ∧ ¬(zeros 12).length < 12 ∧
      (0x4B#8 ≠ 0x0A#8 ∧ 0x4B#8 ≠ 0x4A#8) ∧ 1#3 ≠ 0#3 ∧
      (encodeCplHdr 0x4A#8 (cplHdr 0#10 0#12 0#7)).take 12 = encodeCplHdr 0x4A#8 (cplHdr 0#10 0#12 0#7) := by decide

/-- 11 and 12 bytes: both clauses of CPL_LENGTH, CPL_COUNT and CPL_IS_LAST. -/
theorem witness_CplLengthAndCountResult_CplIsLastResult :
    idle.seq.state = .idle ∧ (zeros 11).length < 12 ∧ ¬(zeros 12).length < 12 := by decide

/-- The clauses of CPL_SPAN at their edges: length 0 with offset 1, a span one byte too long for the datagram,
one byte too long for the window, and one that fits both exactly. -/
theorem witness_CplSpanResult :
    0 * 4 < 1 ∧ (¬3 * 4 < 3 ∧ (27#64).toNat < 18 + 3 + min 7 (3 * 4 - 3)) ∧
      (¬(28#64).toNat < 18 + 3 + min 7 (3 * 4 - 3) ∧ (6#64).toNat < min 7 (3 * 4 - 3)) ∧
      ¬(7#64).toNat < min 7 (3 * 4 - 3) := by decide

/-- Both outcomes of the header check, at the lengths where they meet. -/
theorem witness_DecReqResult :
    requestHeaderError (zeros 11) = some (errorResponse .invalidData .tooShort 11 12) ∧
      requestHeaderError (zeros 12) = none ∧
      requestHeaderError (0x20#8 :: zeros 14) = some (errorResponse .invalidData .tooShort 15 16) ∧
      requestHeaderError (0x20#8 :: zeros 15) = none ∧
      requestHeaderError (0x4A#8 :: zeros 15) = some (errorResponse .invalidData .badFmtType 0x4A 0) := by decide

/-- A header of each kind of span: none, inside one DW, of 1024 DWs; and one of no kind. -/
theorem witness_ReqSpanResult :
    SpanOf ⟨0#8, 0#6, 0#10, 0#16, 0#8, 0#4, 0#4⟩ 0 0 ∧ SpanOf ⟨0#8, 0#6, 1#10, 0#16, 0#8, 0#4, 0b1000#4⟩ 3 1 ∧
      SpanOf ⟨0#8, 0#6, 0#10, 0#16, 0#8, 0xF#4, 0xF#4⟩ 0 4096 ∧
      ∀ lead n, ¬SpanOf ⟨0#8, 0#6, 1#10, 0#16, 0#8, 1#4, 0#4⟩ lead n := by
  refine ⟨⟨rfl, rfl, rfl⟩, ⟨by decide, by decide, by decide, by decide⟩, ⟨by decide, 4, by decide⟩, ?_⟩
  rintro lead n ⟨h, -⟩
  exact absurd h (by decide)

theorem witness_RequestHeaderRoundTrip :
    idle.seq.state = .idle ∧
      Answers (exec (if false then .encMwr 0#16 0#8 0#64 0#64 else .encMrd 0#16 0#8 0#64 0#64) idle) idle
        (.ok (.hdr (zeros 12))) ∧
      Answers (exec (if true then .encMwr 0#16 0#8 0#64 4#64 else .encMrd 0#16 0#8 0#64 4#64) idle) idle
        (.ok (.hdr [0x40#8, 0#8, 0#8, 1#8, 0#8, 0#8, 0#8, 0x0F#8, 0#8, 0#8, 0#8, 0#8])) :=
  ⟨rfl, rfl, rfl⟩

theorem witness_PureCommandsTouchNothing :
    (Instr.reqSpan []).port = .command ∧ ((encode (.reqSpan [])).headD 0#8).toNat ≤ 0x29 := by decide

/-- Each clause of OPEN at the first value that takes it. -/
theorem witness_OpenResult :
    opened.sess.isOpen = true ∧ ¬idle.sess.isOpen = true ∧ 0xFFFF < (0x10000#64).toNat ∧ ¬0xFFFF < (0xFFFF#64).toNat ∧
      0xFF < (0x100#64).toNat ∧ ¬0xFF < (0xFF#64).toNat ∧ 1#64 ≠ 0#64 ∧ 1 < (2#64).toNat ∧ ¬1 < (1#64).toNat ∧
      idle.nextAnswer = .ok ∧ { idle with ports.txAnswers := [.ioError] }.nextAnswer = .ioError := by decide

theorem witness_CloseResult : opened.sess.isOpen = true ∧ ¬idle.sess.isOpen = true := by decide

/-- No session; no bytes; one byte past the top of the address space; one byte past the end of DST. -/
theorem witness_DmaReadRefused :
    idle.sess.isOpen = false ∧ opened.sess.isOpen = true ∧ 2#64 ≠ 0#64 ∧
      2 ^ 64 < (0xFFFFFFFFFFFFFFFF#64).toNat + (2#64).toNat ∧ (0#64).toNat + (17#64).toNat ≤ 2 ^ 64 ∧
      opened.dst.size < (17#64).toNat := by decide

/-- A read that fills DST and ends at the top of the address space, with either answer of the transport. -/
theorem witness_DmaReadStarts :
    opened.seq.state = .idle ∧ opened.sess.isOpen = true ∧ 16#64 ≠ 0#64 ∧
      (0xFFFFFFFFFFFFFFF0#64).toNat + (16#64).toNat ≤ 2 ^ 64 ∧ (16#64).toNat ≤ opened.dst.size ∧
      opened.nextAnswer = .ok ∧ { opened with ports.txAnswers := [.ioError] }.nextAnswer = .ioError := by decide

/-- No session; a low address bit, a low length bit; an MRRS of 510; one DW past the top of the address space;
one DW past the end of SRC. -/
theorem witness_DmaWriteRefused :
    idle.sess.isOpen = false ∧ opened.sess.isOpen = true ∧ (1#64).toNat % 4 ≠ 0 ∧ (4#64).toNat % 4 = 0 ∧
      { opened with sess.mrrs := 510#64 }.sess.mrrs.toNat % 4 ≠ 0 ∧ opened.sess.mrrs.toNat % 4 = 0 ∧
      2 ^ 64 < (0xFFFFFFFFFFFFFFFC#64).toNat + (8#64).toNat ∧ (0#64).toNat + (20#64).toNat ≤ 2 ^ 64 ∧
      opened.src.size < (20#64).toNat := by decide

theorem canWrite_opened : CanWrite 0xFFC#64 8#64 opened := by
  unfold CanWrite
  decide

/-- Two chunks, both taken. -/
theorem witness_DmaWriteEmitsChunks :
    opened.seq.state = .idle ∧ CanWrite 0xFFC#64 8#64 opened ∧
      opened.ports.txAnswers = List.replicate (chunks (0xFFC#64).toNat (8#64).toNat opened.sess.mrrs.toNat).length .ok ++ [] :=
  ⟨rfl, canWrite_opened, by decide⟩

/-- Two chunks, the second refused. -/
theorem witness_DmaWriteStopsAtFailure :
    let s := { opened with ports.txAnswers := [.ok, .ioError] }
    s.seq.state = .idle ∧ CanWrite 0xFFC#64 8#64 s ∧
      chunks (0xFFC#64).toNat (8#64).toNat s.sess.mrrs.toNat = [(0xFFC, 4)] ++ (0x1000, 4) :: [] ∧
      s.ports.txAnswers = List.replicate [(0xFFC, 4)].length .ok ++ .ioError :: [] :=
  ⟨rfl, canWrite_opened, by decide, by decide⟩

theorem witness_DmaWriteAnswers : opened.seq.state = .idle ∧ CanWrite 0xFFC#64 8#64 opened :=
  ⟨rfl, canWrite_opened⟩

theorem witness_TypedWriteNeedsWholeDws :
    let s := { opened with ports.host := writeT 0x2000#64 [0x78#8, 0x56#8] ++ [] }
    s.ports.resetPin = false ∧ s.seq.state = .idle ∧ s.sess.isOpen = true ∧
      s.ports.host = writeT 0x2000#64 [0x78#8, 0x56#8] ++ [] ∧ [0x78#8, 0x56#8].length ≤ s.src.size ∧
      [0x78#8, 0x56#8].length < 2 ^ 64 ∧ [0x78#8, 0x56#8].length % 4 ≠ 0 := by decide

/-- A request form; a header of 18 bytes of no form, and a 64-bit request header cut to 15 bytes. -/
theorem witness_RequestReceivedFails :
    (reading.seq.state = .rdRecv ∧ reading.seq.len.toNat ≤ reading.dst.size) ∧
      ∀ d ∈ [zeros 6 ++ 0x4B#8 :: zeros 11, zeros 6 ++ 0x20#8 :: zeros 14],
        (delivering (.datagram d)).ports.resetPin = false ∧ (delivering (.datagram d)).seq.state = .rdRecv ∧
          (delivering (.datagram d)).ports.rx = .datagram d :: [] ∧
          (delivering (.datagram d)).seq.len.toNat ≤ (delivering (.datagram d)).dst.size ∧ 18 ≤ d.length ∧
          byteAt d 6 ≠ 0x4A#8 ∧ byteAt d 6 ≠ 0x0A#8 := by decide

theorem witness_CplReceivedFails :
    reading.seq.state = .rdRecv ∧ reading.seq.len.toNat ≤ reading.dst.size := by decide

/-- The longest bare transport header; the empty datagram, and those of 5 and of 17 bytes. -/
theorem witness_NettlpReceivedFails :
    (reading.seq.state = .rdRecv ∧ reading.seq.len.toNat ≤ reading.dst.size ∧ (zeros 11).length < 12) ∧
      ∀ d ∈ [[], zeros 5, zeros 17],
        (delivering (.datagram d)).ports.resetPin = false ∧ (delivering (.datagram d)).seq.state = .rdRecv ∧
          (delivering (.datagram d)).ports.rx = .datagram d :: [] ∧
          (delivering (.datagram d)).seq.len.toNat ≤ (delivering (.datagram d)).dst.size ∧ d.length < 18 := by
  decide

theorem inv_reading : reading.Inv := by decide

theorem inv_reading2 : reading2.Inv := by decide

/-- Each refusal of R114 steps 5 to 7 at its edge, in a state with 7 bytes of space. -/
theorem witness_CpldRefused :
    reading.Inv ∧ reading.seq.state = .rdRecv ∧ 1#3 ≠ 0#3 ∧ (cplHdr 0#10 5#12 1#7).status = 0#3 ∧
      0 * 4 < 1 ∧ (1 ≤ 1 * 4 ∧ (zeros 3).length < 1 + min 5 (1 * 4 - 1)) ∧
      (0 ≤ 2 * 4 ∧ 0 + min 8 (2 * 4 - 0) ≤ (zeros 8).length ∧ 7 - 0 < min 8 (2 * 4 - 0)) := by decide

/-- Program P2b: five of seven bytes, not the last fragment. -/
theorem witness_CpldFragmentCopied :
    reading.Inv ∧ reading.seq.state = .rdRecv ∧ Accepted (cplHdr 2#10 7#12 3#7) (zeros 8) reading ∧
      (cplHdr 2#10 7#12 3#7).length.toNat ≠ (3 + 7 + 3) / 4 :=
  ⟨inv_reading, rfl, by unfold Accepted; decide, by decide⟩

/-- Program P2: the last fragment of the last chunk, the span ending with the datagram and with the window. -/
theorem witness_CpldLastFinishes :
    reading.Inv ∧ reading.seq.state = .rdRecv ∧ Accepted (cplHdr 3#10 7#12 3#7) (zeros 10) reading ∧
      (cplHdr 3#10 7#12 3#7).length.toNat = (3 + 7 + 3) / 4 ∧
      reading.seq.received.toNat + reading.seq.chunk.toNat = reading.seq.len.toNat ∧
      reading.seq.p.toNat + reading.seq.chunk.toNat < 2 ^ 64 :=
  ⟨inv_reading, rfl, by unfold Accepted; decide, by decide, by decide, by decide⟩

/-- Program P8: the last fragment of the first of two chunks. -/
theorem witness_CpldLastRequestsNext :
    reading2.Inv ∧ reading2.seq.state = .rdRecv ∧ Accepted (cplHdr 1#10 2#12 0x7E#7) (zeros 4) reading2 ∧
      (cplHdr 1#10 2#12 0x7E#7).length.toNat = (0x7E % 4 + 2 + 3) / 4 ∧
      reading2.seq.received.toNat + reading2.seq.chunk.toNat < reading2.seq.len.toNat ∧
      reading2.nextAnswer = .ok ∧ { reading2 with ports.txAnswers := [.ioError] }.nextAnswer = .ioError :=
  ⟨inv_reading2, rfl, by unfold Accepted; decide, by decide, by decide, by decide, by decide⟩

theorem witness_TimeoutFailsRead :
    let s := delivering .timeout
    s.ports.resetPin = false ∧ s.seq.state = .rdRecv ∧ s.ports.rx = .timeout :: [] ∧
      s.seq.len.toNat ≤ s.dst.size := by decide

theorem witness_IoErrorFailsRead :
    let s := delivering .ioError
    s.ports.resetPin = false ∧ s.seq.state = .rdRecv ∧ s.ports.rx = .ioError :: [] ∧
      s.seq.len.toNat ≤ s.dst.size := by decide

/-- The last byte of each buffer, and the byte past it. -/
theorem witness_HostWritesBuffers :
    opened.ports.resetPin = false ∧ opened.seq.state = .idle ∧ [1#8] ≠ [] ∧
      (presenting (.writeDst 15 [1#8])).ports.host = .writeDst 15 [1#8] :: [] ∧ 15 + [1#8].length ≤ opened.dst.size ∧
      (presenting (.writeDst 16 [1#8])).ports.host = .writeDst 16 [1#8] :: [] ∧ opened.dst.size < 16 + [1#8].length ∧
      (presenting (.writeSrc 15 [1#8])).ports.host = .writeSrc 15 [1#8] :: [] ∧ 15 + [1#8].length ≤ opened.src.size ∧
      (presenting (.writeSrc 16 [1#8])).ports.host = .writeSrc 16 [1#8] :: [] ∧ opened.src.size < 16 + [1#8].length := by
  decide

/-- A step that goes on, from a state with the invariant. -/
theorem witness_StepKeepsInvariant :
    (delivering .ioError).Inv ∧ ∃ t, step (delivering .ioError) = .next t :=
  ⟨by decide, ⟨_, rfl⟩⟩

theorem witness_OnlyTheHostCanStopTheBlock : opened.Inv ∧ reading.Inv := by decide

theorem witness_InstructionFrame :
    exec .closeSession idle = .next (respond (errorResponse .state .badState 0 0) idle) := rfl

/-- A session that closes, and one that opens. -/
theorem witness_SessionIsImmutable :
    (∃ t, step (presenting (.command [0x31#8])) = .next t ∧ t.sess ≠ opened.sess) ∧
      ∃ t, step { idle with ports.host := [.command (encode (.openSession 1#64 2#64 4#64 0#64))] } = .next t ∧
        t.sess ≠ idle.sess :=
  ⟨⟨_, rfl, by decide⟩, ⟨_, rfl, by decide⟩⟩

/-- The datagram of program P2b, and the first byte past the window. -/
theorem witness_WritesStayInWindow :
    let s := delivering (.datagram (encode (.cpld nt0 (cplHdr 2#10 7#12 3#7) (zeros 8))))
    s.Inv ∧ s.ports.resetPin = false ∧ s.seq.state = .rdRecv ∧ (∃ t, step s = .next t) ∧
      s.seq.received.toNat + s.seq.chunk.toNat ≤ 7 := by
  refine ⟨by decide, by decide, by decide, ⟨_, rfl⟩, by decide⟩

/-- A step that emits a request. -/
theorem witness_EmittedRequestsAreLegal :
    (presenting (.command (encode (.dmaRead 3#64 7#64)))).Inv ∧
      asked (step (presenting (.command (encode (.dmaRead 3#64 7#64))))) =
        some [.sent (requestDatagram opened.sess false 3 7 []) .ok] := by
  refine ⟨by decide, by decide⟩

/-- Program P8: two chunks, one fragment each. -/
theorem witness_ConformingReadDelivers :
    let remote : Nat → Byte := fun a => BitVec.ofNat 8 (0x10 + a)
    let fragments : List Bytes :=
      [encode (.cpld nt0 (cplHdr 1#10 2#12 0x7E#7) [0xAA#8, 0xAA#8, 0x0E#8, 0x0F#8]),
        encode (.cpld nt0 (cplHdr 1#10 4#12 0#7) [0x10#8, 0x11#8, 0x12#8, 0x13#8])]
    let s : State :=
      { opened with
        ports.host := [.command (encode (.dmaRead 0xFFE#64 6#64))]
        ports.rx := fragments.map .datagram }
    s.Inv ∧ s.ports.resetPin = false ∧ s.seq.state = .idle ∧ s.sess.isOpen = true ∧ 6#64 ≠ 0#64 ∧
      (0xFFE#64).toNat + (6#64).toNat ≤ 2 ^ 64 ∧ (6#64).toNat ≤ s.dst.size ∧
      s.ports.host = .command (encode (.dmaRead 0xFFE#64 6#64)) :: [] ∧
      s.ports.rx = fragments.map .datagram ++ [] ∧
      s.ports.txAnswers =
        List.replicate (chunks (0xFFE#64).toNat (6#64).toNat s.sess.mrrs.toNat).length .ok ++ [] ∧
      ConformingAnswers remote (chunks (0xFFE#64).toNat (6#64).toNat s.sess.mrrs.toNat) fragments := by
  refine ⟨by decide, by decide, by decide, by decide, by decide, by decide, by decide, by decide, by decide,
    by decide, ?_⟩
  show ConformingAnswers _ [(0xFFE, 2), (0x1000, 4)] _
  refine ⟨[_], [_], rfl, ⟨0x1000, ⟨by decide, by decide, by decide, _, _, _, rfl, by decide⟩, rfl⟩,
    ⟨[_], [], rfl, ⟨0x1004, ⟨by decide, by decide, by decide, _, _, _, rfl, by decide⟩, rfl⟩, rfl⟩⟩

end Sys2Proof.Tests
end

section
/-! PROOFS. The answer of a command in IDLE, and the commands of 40_byte_enable_alignment.md: REQID_PACK,
CALC_LENGTH, CALC_FIRSTBE, CALC_LASTBE. -/

namespace Sys2Proof.Machine

/-! ### What a command answers in IDLE -/

/-- In IDLE a command that answers a result changes nothing but the response port. -/
theorem answers_ok {s : State} (hs : s.seq.state = .idle) (r : Result) :
    Answers (onCommand s (answer (.ok r) s)) s (.ok r) :=
  onCommand_idle hs _

/-- In IDLE a command that raises an error changes nothing but the response port. -/
theorem answers_error {s : State} (hs : s.seq.state = .idle) (kind : ErrKind) (cause : Cause) (raw0 raw1 : Nat) :
    Answers (onCommand s (answer (.error (mkErr kind cause raw0 raw1)) s)) s (errorResponse kind cause raw0 raw1) :=
  onCommand_idle hs _

/-! ### Which instruction has which meaning -/

theorem exec_reqidPack (bus dev fn : BitVec 64) (s : State) :
    exec (.reqidPack bus dev fn) s = execReqidPack bus dev fn s := rfl
theorem exec_calcLength (addr count : BitVec 64) (s : State) :
    exec (.calcLength addr count) s = execCalcLength addr count s := rfl
theorem exec_calcFirstbe (addr count : BitVec 64) (s : State) :
    exec (.calcFirstbe addr count) s = execCalcFirstbe addr count s := rfl
theorem exec_calcLastbe (addr count : BitVec 64) (s : State) :
    exec (.calcLastbe addr count) s = execCalcLastbe addr count s := rfl

/-! ### The requester id (R72) -/

/-- R72's OR of shifted numbers is the concatenation of the fields: a device below 32 and a function below 8 stay
inside theirs, and what exceeds 8 bits of the bus is cut off on both sides. -/
theorem reqid_fields (bus : BitVec 64) {dev fn : BitVec 64} (hdev : dev.toNat ≤ 31) (hfn : fn.toNat ≤ 7) :
    BitVec.ofNat 16 ((bus.toNat <<< 8) ||| (dev.toNat <<< 3) ||| fn.toNat) =
      bus.setWidth 8 ++ dev.setWidth 5 ++ fn.setWidth 3 := by
  have hlow : (dev.toNat <<< 3) ||| fn.toNat = dev.toNat * 8 + fn.toNat := by
    rw [← Nat.shiftLeft_add_eq_or_of_lt (by omega), Nat.shiftLeft_eq]
  have hall : (bus.toNat <<< 8) ||| (dev.toNat * 8 + fn.toNat) = bus.toNat * 256 + (dev.toNat * 8 + fn.toNat) := by
    rw [← Nat.shiftLeft_add_eq_or_of_lt (by omega), Nat.shiftLeft_eq]
  apply BitVec.eq_of_toNat_eq
  rw [Nat.or_assoc, hlow, hall, toNat_fields, toNat_fields]
  simp only [BitVec.toNat_ofNat, BitVec.toNat_setWidth]
  omega

/-- Cut to 64 bits, the OR of R72's refusal is the one of the 64-bit operands. -/
theorem reqid_raw_cut (bus dev fn : BitVec 64) :
    BitVec.ofNat 64 ((bus.toNat <<< 16) ||| (dev.toNat <<< 8) ||| fn.toNat) = bus <<< 16 ||| dev <<< 8 ||| fn := by
  apply BitVec.eq_of_toNat_eq
  simp only [BitVec.toNat_ofNat, BitVec.toNat_or, BitVec.toNat_shiftLeft, Nat.or_mod_two_pow,
    Nat.mod_eq_of_lt fn.isLt]

theorem badOperand_reqid_raw (bus dev fn : BitVec 64) :
    mkErr .precondition .badOperand ((bus.toNat <<< 16) ||| (dev.toNat <<< 8) ||| fn.toNat) 0 =
      mkErr .precondition .badOperand (bus <<< 16 ||| dev <<< 8 ||| fn).toNat 0 := by
  simp only [mkErr, reqid_raw_cut, BitVec.ofNat_toNat, BitVec.setWidth_eq]

/-! ### The DW length (R73) -/

/-- R73's result width holds every DW length of a transfer inside the address space. -/
theorem dwLength_lt {addr count : Nat} (h : addr + count ≤ Config.addressTop) : dwLength addr count < 2 ^ 63 := by
  rw [dwLength_eq, dwCount]
  unfold Config.addressTop at h
  omega

/-- R73's first form: the DWs of `[align4 addr, addr + count)`. -/
theorem dwCount_eq_ceil4 (addr count : Nat) :
    dwCount addr count = (addr + count - (addr - addr % 4) + 3) / 4 := by
  rw [dwCount]
  omega

/-- The length answered is the DW length itself, not truncated. -/
theorem calcLength_len_toNat {addr count : Nat} (h : addr + count ≤ Config.addressTop) :
    (BitVec.ofNat 63 (dwLength addr count)).toNat = dwCount addr count := by
  rw [BitVec.toNat_ofNat, Nat.mod_eq_of_lt (dwLength_lt h), dwLength_eq]

/-! ### What each command answers -/

theorem calcLength_ok {addr count : Nat} (h : addr + count ≤ Config.addressTop) :
    calcLength addr count = .ok (.len (BitVec.ofNat 63 (dwLength addr count))) := if_pos h

theorem calcLength_overflow {addr count : Nat} (h : ¬ addr + count ≤ Config.addressTop) :
    calcLength addr count = .error (mkErr .range .addrOverflow addr count) := if_neg h

theorem calcLastbe_ok {addr count : Nat} (h : addr + count ≤ Config.addressTop) :
    calcLastbe addr count = .ok (.be (lastbe addr count)) := if_pos h

theorem calcLastbe_overflow {addr count : Nat} (h : ¬ addr + count ≤ Config.addressTop) :
    calcLastbe addr count = .error (mkErr .range .addrOverflow addr count) := if_neg h

theorem reqidPack_ok {bus dev fn : BitVec 64} (h : bus.toNat ≤ 255 ∧ dev.toNat ≤ 31 ∧ fn.toNat ≤ 7) :
    reqidPack bus.toNat dev.toNat fn.toNat =
      .ok (.reqid (bus.setWidth 8 ++ dev.setWidth 5 ++ fn.setWidth 3)) := by
  rw [reqidPack, if_pos h]
  obtain ⟨-, hdev, hfn⟩ := h
  rw [reqid_fields bus hdev hfn]

theorem reqidPack_refused {bus dev fn : BitVec 64} (h : ¬(bus.toNat ≤ 255 ∧ dev.toNat ≤ 31 ∧ fn.toNat ≤ 7)) :
    reqidPack bus.toNat dev.toNat fn.toNat =
      .error (mkErr .precondition .badOperand (bus <<< 16 ||| dev <<< 8 ||| fn).toNat 0) := by
  rw [reqidPack, if_neg h, badOperand_reqid_raw]

/-! ### The obligations -/

/-- Settles O16: the shift by `addr & 3` moves the mask of the `count` low bytes to the first byte of the
transfer (`firstbe_bit`). -/
theorem calcFirstbeResult : Obligations.CalcFirstbeResult := by
  intro addr count s hs
  exact ⟨rfl, firstbe addr.toNat count.toNat, answers_ok hs _, firstbe_bit addr.toNat count.toNat⟩

/-- Settles O17, by the two branches of the range check; the nibble is read off bit by bit in `lastbe_bit`. -/
theorem calcLastbeResult : Obligations.CalcLastbeResult := by
  intro addr count s hs
  refine ⟨rfl, ?_⟩
  rw [exec_calcLastbe, execCalcLastbe]
  split
  case isTrue h =>
    rw [calcLastbe_ok h]
    exact ⟨lastbe addr.toNat count.toNat, answers_ok hs _, lastbe_bit addr.toNat count.toNat⟩
  case isFalse h =>
    rw [calcLastbe_overflow h]
    exact answers_error hs ..

/-- Settles O14: operands in range are packed without overlap (`reqid_fields`), the others are reported cut to
64 bits (`reqid_raw_cut`). -/
theorem reqidPackResult : Obligations.ReqidPackResult := by
  intro bus dev fn s hs
  refine ⟨rfl, ?_⟩
  rw [exec_reqidPack, execReqidPack]
  split
  case isTrue h =>
    rw [reqidPack_ok h]
    exact answers_ok hs _
  case isFalse h =>
    rw [reqidPack_refused h]
    exact answers_error hs ..

/-- Settles O15: inside the address space the 63-bit result holds the whole DW length
(`calcLength_len_toNat`), for which R73's two forms agree. -/
theorem calcLengthResult : Obligations.CalcLengthResult := by
  intro addr count s hs
  refine ⟨rfl, ?_⟩
  rw [exec_calcLength, execCalcLength]
  split
  case isTrue h =>
    rw [calcLength_ok h]
    have hlen := calcLength_len_toNat h
    exact ⟨_, answers_ok hs _, hlen, hlen.trans (dwCount_eq_ceil4 ..)⟩
  case isFalse h =>
    rw [calcLength_overflow h]
    exact answers_error hs ..

end Sys2Proof.Machine
end

section
/-! PROOFS. The commands of 41_header_encoder.md (ENC_MRD, ENC_MWR, ENC_NETTLP), and that a receive does not look
at the transport header. -/

namespace Sys2Proof.Machine

/-! ### Which instruction has which meaning -/

theorem exec_encNettlp (s : State) : exec .encNettlp s = execEncNettlp s := rfl
theorem exec_encMrd (reqid : BitVec 16) (tag : BitVec 8) (addr count : BitVec 64) (s : State) :
    exec (.encMrd reqid tag addr count) s = execEncMrd reqid tag addr count s := rfl
theorem exec_encMwr (reqid : BitVec 16) (tag : BitVec 8) (addr count : BitVec 64) (s : State) :
    exec (.encMwr reqid tag addr count) s = execEncMwr reqid tag addr count s := rfl

/-! ### The request header (R79, R80, R81) -/

/-- The header of `enc_req` is what stands behind the transport header of the wire form. -/
theorem requestHeader_eq_drop (write : Bool) (reqid : BitVec 16) (tag : BitVec 8) (addr count : Nat) :
    requestHeader write reqid tag addr count = (encode (requestForm write reqid tag addr count [])).drop 6 := by
  rw [requestHeader_eq, List.append_nil]
  exact (List.drop_left (l₁ := nettlpHeader)).symm

/-- Three DWs of header when the address fits 32 bits, four otherwise (R53). -/
theorem requestHeader_length (write : Bool) (reqid : BitVec 16) (tag : BitVec 8) (addr count : Nat) :
    (requestHeader write reqid tag addr count).length = if addr ≤ 0xFFFFFFFF then 12 else 16 := by
  unfold requestHeader
  by_cases h : addr ≤ 0xFFFFFFFF
  · rw [if_pos h, if_neg (Nat.not_lt.mpr h)]
    rfl
  · rw [if_neg h, if_pos (Nat.lt_of_not_le h)]
    rfl

theorem encodedHeader_addrOverflow (write : Bool) (reqid : BitVec 16) (tag : BitVec 8) {addr count : Nat}
    (h : Config.addressTop < addr + count) :
    encodedHeader write reqid tag addr count = .error (mkErr .range .addrOverflow addr count) := by
  rw [encodedHeader, encReq, if_pos h]
  rfl

theorem encodedHeader_lengthOverflow (write : Bool) (reqid : BitVec 16) (tag : BitVec 8) {addr count : Nat}
    (hfit : ¬ Config.addressTop < addr + count) (hlen : Config.maxDw < dwCount addr count) :
    encodedHeader write reqid tag addr count =
      .error (mkErr .range .lengthOverflow (dwCount addr count) count) := by
  rw [encodedHeader, encReq, if_neg hfit, dwLength_eq, if_pos hlen]

theorem encodedHeader_ok (write : Bool) (reqid : BitVec 16) (tag : BitVec 8) {addr count : Nat}
    (hfit : ¬ Config.addressTop < addr + count) (hlen : ¬ Config.maxDw < dwCount addr count) :
    encodedHeader write reqid tag addr count = .ok (.hdr (requestHeader write reqid tag addr count)) := by
  rw [encodedHeader, encReq, if_neg hfit, dwLength_eq, if_neg hlen]

/-- R79 and R80 at once: R81's two refusals in their order, and then the header of the wire form. -/
theorem answers_encodedHeader (write : Bool) (reqid : BitVec 16) (tag : BitVec 8) (addr count : Nat) {s : State}
    (hs : s.seq.state = .idle) :
    let o := onCommand s (answer (encodedHeader write reqid tag addr count) s)
    if 2 ^ 64 < addr + count then Answers o s (errorResponse .range .addrOverflow addr count)
    else if 1024 < dwCount addr count then
      Answers o s (errorResponse .range .lengthOverflow (dwCount addr count) count)
    else
      ∃ hdr : Bytes, Answers o s (.ok (.hdr hdr)) ∧
        hdr = (encode (requestForm write reqid tag addr count [])).drop 6 ∧
        hdr.length = if addr ≤ 0xFFFFFFFF then 12 else 16 := by
  dsimp only
  split
  case isTrue hover =>
    rw [encodedHeader_addrOverflow write reqid tag hover]
    exact answers_error hs ..
  case isFalse hfit =>
    split
    case isTrue hlen =>
      rw [encodedHeader_lengthOverflow write reqid tag hfit hlen]
      exact answers_error hs ..
    case isFalse hlen =>
      rw [encodedHeader_ok write reqid tag hfit hlen]
      exact ⟨_, answers_ok hs _, requestHeader_eq_drop .., requestHeader_length ..⟩

/-- Settles O24, the read case of `answers_encodedHeader`. -/
theorem encMrdResult : Obligations.EncMrdResult := by
  intro reqid tag addr count s hs
  rw [exec_encMrd, execEncMrd]
  exact ⟨rfl, answers_encodedHeader false reqid tag addr.toNat count.toNat hs⟩

/-- Settles O25, the write case of `answers_encodedHeader`. -/
theorem encMwrResult : Obligations.EncMwrResult := by
  intro reqid tag addr count s hs
  rw [exec_encMwr, execEncMwr]
  exact ⟨rfl, answers_encodedHeader true reqid tag addr.toNat count.toNat hs⟩

/-! ### The transport header on receive (R78)

The reassembly looks at a datagram through its length and through slices that begin behind the first six bytes, so
two datagrams that differ only there are received alike. -/

/-- A slice that begins behind the transport header is a slice of what follows the header. -/
theorem slice_behind_header {header : Bytes} (d : Bytes) {a : Nat} (n : Nat) (h : header.length = 6) (ha : 6 ≤ a) :
    slice (header ++ d) a n = slice d (a - 6) n := by
  rw [slice, slice, List.drop_append, h, List.drop_eq_nil_of_le (h ▸ ha), List.nil_append]

/-- The reassembly step of R114 never examines the transport header. -/
theorem rxDatagram_header {header header' : Bytes} (d : Bytes) (s : State) (h : header.length = 6)
    (h' : header'.length = 6) : rxDatagram (header ++ d) s = rxDatagram (header' ++ d) s := by
  have hlen : (header ++ d).length = (header' ++ d).length := by
    rw [List.length_append, List.length_append, h, h']
  have hcpl : slice (header ++ d) Config.nettlpLen Config.cplLen =
      slice (header' ++ d) Config.nettlpLen Config.cplLen := by
    rw [slice_behind_header d _ h (Nat.le_refl 6), slice_behind_header d _ h' (Nat.le_refl 6)]
  simp only [rxDatagram, hlen, hcpl]
  split
  · rfl
  split
  · rfl
  split
  · rfl
  next start size hspan =>
    obtain ⟨hstart, -⟩ := cplSpan_ok hspan
    have hbehind : 6 ≤ start := by omega
    rw [acceptFragment, acceptFragment, slice_behind_header d size h hbehind, slice_behind_header d size h' hbehind]

/-- The same instruction behind another transport header; a command has none. -/
def withNettlp (nt : NettlpHdr) (i : Instr) : Instr :=
  match i with
  | .mrd32 _ head address rest => .mrd32 nt head address rest
  | .mrd64 _ head address rest => .mrd64 nt head address rest
  | .mwr32 _ head address rest => .mwr32 nt head address rest
  | .mwr64 _ head address rest => .mwr64 nt head address rest
  | .cpld _ hdr rest => .cpld nt hdr rest
  | .cpl _ hdr rest => .cpl nt hdr rest
  | .nettlp _ rest => .nettlp nt rest
  | command => command

/-- A wire form is received alike behind every transport header. -/
theorem onReceive_rxDatagram_nettlp (nt nt' : NettlpHdr) (bytes : Bytes) (s : State) :
    onReceive s (rxDatagram (encodeNettlp nt ++ bytes) s) = onReceive s (rxDatagram (encodeNettlp nt' ++ bytes) s) := by
  rw [rxDatagram_header bytes s (encodeNettlp_length nt) (encodeNettlp_length nt')]

/-- The effect of an instruction does not depend on its transport header. -/
theorem exec_withNettlp (nt : NettlpHdr) (i : Instr) (s : State) : exec (withNettlp nt i) s = exec i s := by
  cases i
  case mrd32 nt' head a rest => exact onReceive_rxDatagram_nettlp nt nt' (encodeReqHead 0x00#8 head ++ be32 a ++ rest) s
  case mrd64 nt' head a rest => exact onReceive_rxDatagram_nettlp nt nt' (encodeReqHead 0x20#8 head ++ be64 a ++ rest) s
  case mwr32 nt' head a rest => exact onReceive_rxDatagram_nettlp nt nt' (encodeReqHead 0x40#8 head ++ be32 a ++ rest) s
  case mwr64 nt' head a rest => exact onReceive_rxDatagram_nettlp nt nt' (encodeReqHead 0x60#8 head ++ be64 a ++ rest) s
  case cpld nt' hdr rest => exact onReceive_rxDatagram_nettlp nt nt' (encodeCplHdr 0x4A#8 hdr ++ rest) s
  case cpl nt' hdr rest => exact onReceive_rxDatagram_nettlp nt nt' (encodeCplHdr 0x0A#8 hdr ++ rest) s
  case nettlp nt' rest => exact onReceive_rxDatagram_nettlp nt nt' rest s
  all_goals rfl

/-! ### Received datagrams -/

/-- Behind another transport header the decoder answers the same form, or the same refusal. -/
theorem decodeHeader_withNettlp (nt nt' : NettlpHdr) (h : Bytes) :
    decodeHeader nt' h = (decodeHeader nt h).map (withNettlp nt') := by
  unfold decodeHeader
  split
  case h_5 | h_6 => split <;> rfl
  all_goals rfl

theorem decodeDatagram_header {header header' : Bytes} (d : Bytes) (h : header.length = 6) (h' : header'.length = 6) :
    decodeDatagram (header' ++ d) = (decodeDatagram (header ++ d)).map (withNettlp (decodeNettlp (header' ++ d))) := by
  have hrest : ∀ p : Bytes, p.length = 6 → (p ++ d).drop Config.nettlpLen = d := fun p hp => List.drop_left' hp
  simp only [decodeDatagram, hrest header h, hrest header' h', List.length_append, h, h']
  split
  · rfl
  split
  · rfl
  exact decodeHeader_withNettlp ..

/-- Receiving a datagram of at least six bytes, of a wire form or of none, does not depend on the first six. -/
theorem rxStep_header {header header' : Bytes} (d : Bytes) (s : State) (h : header.length = 6)
    (h' : header'.length = 6) : rxStep (.datagram (header ++ d)) s = rxStep (.datagram (header' ++ d)) s := by
  simp only [rxStep, decodeDatagram_header d h h']
  cases decodeDatagram (header ++ d) with
  | ok i => exact (exec_withNettlp _ i s).symm
  | error e =>
    show rxUnclassified _ s = rxUnclassified _ s
    rw [rxUnclassified, rxUnclassified, rxDatagram_header d s h h']

/-- In RD_RECV a step takes the transport's next event and acts on it. -/
theorem step_of_event {s : State} {event : RxEvent} {rest : List RxEvent} (hpin : s.ports.resetPin = false)
    (hs : s.seq.state = .rdRecv) (hrx : s.ports.rx = event :: rest) :
    step s = rxStep event { s with ports.rx := rest } := by
  simp [step, fetch, hpin, hs, receive_of_cons hrx]

/-- Settles O23: R78's six zero bytes are `nettlpHeader`; the effect of a wire form is `exec_withNettlp`, and the
receive of any datagram is `rxStep_header`. -/
theorem encNettlpResult : Obligations.EncNettlpResult := by
  refine ⟨?_, ?_, ?_⟩
  · intro s hs
    rw [exec_encNettlp, execEncNettlp]
    exact ⟨rfl, answers_ok hs (.hdr nettlpHeader)⟩
  · intro nt nt' hdr head a b rest s
    have same (i : Instr) : exec (withNettlp nt i) s = exec i s := exec_withNettlp nt i s
    exact ⟨same (.cpld nt' hdr rest), same (.cpl nt' hdr rest), same (.mrd32 nt' head a rest),
      same (.mrd64 nt' head b rest), same (.mwr32 nt' head a rest), same (.mwr64 nt' head b rest),
      fun _ => same (.nettlp nt' rest)⟩
  · intro header header' d rest s h h' hpin hs
    have hstep (event : RxEvent) :
        step { s with ports.rx := event :: rest } = rxStep event { s with ports.rx := rest } :=
      step_of_event (s := { s with ports.rx := event :: rest }) hpin hs rfl
    rw [hstep, hstep]
    exact rxStep_header d _ h h'

end Sys2Proof.Machine
end

section
/-! PROOFS. The commands of 42_header_decoder.md: DEC_CPL, CPL_LENGTH, CPL_COUNT, CPL_IS_LAST, CPL_SPAN on
completion headers, DEC_REQ and REQ_SPAN on request headers. -/

namespace Sys2Proof.Machine

/-! ### Which instruction has which meaning -/

theorem exec_decCpl (buf : Bytes) (s : State) : exec (.decCpl buf) s = execDecCpl buf s := rfl
theorem exec_cplLength (buf : Bytes) (s : State) : exec (.cplLength buf) s = execCplLength buf s := rfl
theorem exec_cplCount (buf : Bytes) (s : State) : exec (.cplCount buf) s = execCplCount buf s := rfl
theorem exec_cplIsLast (buf : Bytes) (s : State) : exec (.cplIsLast buf) s = execCplIsLast buf s := rfl
theorem exec_cplSpan (buf : Bytes) (dgramLen space : BitVec 64) (s : State) :
    exec (.cplSpan buf dgramLen space) s = execCplSpan buf dgramLen space s := rfl
theorem exec_decReq (buf : Bytes) (s : State) : exec (.decReq buf) s = execDecReq buf s := rfl
theorem exec_reqSpan (buf : Bytes) (s : State) : exec (.reqSpan buf) s = execReqSpan buf s := rfl

/-! ### Every byte string of its length is a header

The fields of a header leave no bit out, so the decoder's fields, encoded again, are the bytes themselves. -/

/-- The first bytes of a string that is long enough, one by one. -/
theorem take_eq_map_byteAt {s : Bytes} {n : Nat} (h : n ≤ s.length) : s.take n = (List.range n).map (byteAt s) := by
  apply List.ext_getElem
  · simp [h]
  · intro i hi _
    have hs : i < s.length := by simp at hi; omega
    simp [byteAt, hs]

/-- A byte is its fields put back side by side, for each way R51 and R60 cut one. -/
theorem byte_6_2 (b : Byte) : b.extractLsb' 2 6 ++ b.extractLsb' 0 2 = b := by
  rw [BitVec.extractLsb'_append_extractLsb'_eq_extractLsb' (by decide), BitVec.extractLsb'_eq_self]
theorem byte_1_7 (b : Byte) : b.extractLsb' 7 1 ++ b.extractLsb' 0 7 = b := by
  rw [BitVec.extractLsb'_append_extractLsb'_eq_extractLsb' (by decide), BitVec.extractLsb'_eq_self]
theorem byte_4_4 (b : Byte) : b.extractLsb' 4 4 ++ b.extractLsb' 0 4 = b := by
  rw [BitVec.extractLsb'_append_extractLsb'_eq_extractLsb' (by decide), BitVec.extractLsb'_eq_self]
theorem byte_3_1_4 (b : Byte) : b.extractLsb' 5 3 ++ b.extractLsb' 4 1 ++ b.extractLsb' 0 4 = b := by
  rw [BitVec.extractLsb'_append_extractLsb'_eq_extractLsb' (by decide), byte_4_4]

theorem encodeCplHdr_decode (d : Bytes) :
    encodeCplHdr (byteAt d 0) (decodeCplHdr d) = (List.range 12).map (byteAt d) := by
  simp only [encodeCplHdr, decodeCplHdr, be16, extract_append, byte_6_2, byte_3_1_4, byte_1_7]
  rfl

theorem encodeReqHead_decode (d : Bytes) :
    encodeReqHead (byteAt d 0) (decodeReqHead d) = (List.range 8).map (byteAt d) := by
  simp only [encodeReqHead, decodeReqHead, be16, extract_append, byte_6_2, byte_4_4]
  rfl

theorem be16_append (x y : Byte) : be16 (x ++ y) = [x, y] := by
  simp only [be16, extract_append]

theorem be32_append (x y : BitVec 16) : be32 (x ++ y) = be16 x ++ be16 y := by
  rw [be32, BitVec.extractLsb'_append_eq_of_le (start := 24) (by decide),
    BitVec.extractLsb'_append_eq_of_le (start := 16) (by decide),
    BitVec.extractLsb'_append_eq_of_add_le (start := 8) (by decide),
    BitVec.extractLsb'_append_eq_of_add_le (start := 0) (by decide)]
  rfl

theorem be64_append (x y : BitVec 32) : be64 (x ++ y) = be32 x ++ be32 y := by
  simp only [be64, extract_append]

/-- A completion header in full: byte 0, the fields, and whatever follows. -/
theorem eq_encodeCplHdr_append {d : Bytes} (h : 12 ≤ d.length) :
    d = encodeCplHdr (byteAt d 0) (decodeCplHdr d) ++ d.drop 12 := by
  rw [encodeCplHdr_decode, ← take_eq_map_byteAt h, List.take_append_drop]

/-- The first eight bytes of a request header in full, and whatever follows. -/
theorem eq_encodeReqHead_append {d : Bytes} (h : 8 ≤ d.length) :
    d = encodeReqHead (byteAt d 0) (decodeReqHead d) ++ d.drop 8 := by
  rw [encodeReqHead_decode, ← take_eq_map_byteAt h, List.take_append_drop]

theorem exists_be32 {d : Bytes} (h : 4 ≤ d.length) : ∃ v rest, d = be32 v ++ rest := by
  refine ⟨(byteAt d 0 ++ byteAt d 1) ++ (byteAt d 2 ++ byteAt d 3), d.drop 4, ?_⟩
  rw [be32_append, be16_append, be16_append]
  exact (List.take_append_drop 4 d).symm.trans (congrArg (· ++ d.drop 4) (take_eq_map_byteAt h))

theorem exists_be64 {d : Bytes} (h : 8 ≤ d.length) : ∃ v rest, d = be64 v ++ rest := by
  obtain ⟨hi, rest, rfl⟩ := exists_be32 (d := d) (by omega)
  rw [List.length_append, be32_length] at h
  obtain ⟨lo, rest, rfl⟩ := exists_be32 (d := rest) (by omega)
  exact ⟨hi ++ lo, rest, by rw [be64_append, List.append_assoc]⟩

/-! ### What every completion command does with its buffer (R89 to R93) -/

theorem withCplFields_short {buf : Bytes} (h : buf.length < 12) (k : CplFields → Except Err Result) :
    withCplFields buf k = .error (mkErr .invalidData .tooShort buf.length 12) := if_pos h

/-- A buffer of 12 bytes starts with a header, and the command goes by that header's fields (R88). -/
theorem withCplFields_whole {buf : Bytes} (h : ¬ buf.length < 12) :
    ∃ (b : Byte) (hdr : CplHdr), buf.take 12 = encodeCplHdr b hdr ∧ ∀ k, withCplFields buf k =
      k ⟨b, hdr.tc, hdr.length, hdr.cplid, hdr.status, hdr.count, hdr.reqid, hdr.tag, hdr.lowaddr⟩ := by
  have hbuf := eq_encodeCplHdr_append (Nat.le_of_not_lt h)
  refine ⟨byteAt buf 0, decodeCplHdr buf, ?_, fun k => ?_⟩
  · rw [encodeCplHdr_decode, take_eq_map_byteAt (Nat.le_of_not_lt h)]
  · rw [withCplFields, if_neg h]
    conv_lhs => rw [hbuf, cplFields_encode]

/-! ### DEC_CPL (R89) -/

/-- R89's checks, a completion without data told apart first. -/
theorem cplValidate_eq (f : CplFields) :
    cplValidate f =
      if f.fmtType = 0x0A#8 then some (mkErr .invalidAddress .none 0x0A 0)
      else if f.fmtType ≠ 0x4A#8 then some (mkErr .invalidData .badFmtType f.fmtType.toNat 0)
      else if f.status ≠ 0#3 then some (mkErr .invalidData .badStatus f.status.toNat 0)
      else none := by
  by_cases h : f.fmtType = 0x0A#8 <;> simp [cplValidate, h]

/-- Settles O26: a whole header is the encoding of its fields, and R89's checks are `cplValidate_eq`. -/
theorem decCplResult : Obligations.DecCplResult := by
  intro buf s hs
  refine ⟨rfl, ?_⟩
  rw [exec_decCpl, execDecCpl]
  split
  case isTrue h =>
    rw [withCplFields_short h]
    exact answers_error hs ..
  case isFalse h =>
    obtain ⟨b, hdr, hbuf, hk⟩ := withCplFields_whole h
    refine ⟨b, hdr, hbuf, ?_⟩
    rw [hk]
    simp only [cplValidate_eq]
    split
    · exact answers_error hs ..
    split
    · exact answers_error hs ..
    split
    · exact answers_error hs ..
    · exact answers_ok hs _

/-! ### The accessors (R90 to R92) -/

/-- Settles O27: both commands answer a field of the one header. -/
theorem cplLengthAndCountResult : Obligations.CplLengthAndCountResult := by
  intro buf s hs
  refine ⟨rfl, rfl, ?_⟩
  rw [exec_cplLength, execCplLength, exec_cplCount, execCplCount]
  split
  case isTrue h =>
    rw [withCplFields_short h, withCplFields_short h]
    exact ⟨answers_error hs .., answers_error hs ..⟩
  case isFalse h =>
    obtain ⟨b, hdr, hbuf, hk⟩ := withCplFields_whole h
    rw [hk, hk]
    exact ⟨b, hdr, hbuf, answers_ok hs _, answers_ok hs _⟩

/-- R92's comparison, its shift written as a division. -/
theorem cplIsLast_eq (f : CplFields) :
    cplIsLast f = decide (f.length.toNat = (f.lowaddr.toNat % 4 + f.count.toNat + 3) / 4) := by
  rw [cplIsLast, ceil4, lowTwo, Nat.shiftRight_eq_div_pow]
  rfl

/-- Settles O28, with R92's comparison in `cplIsLast_eq`. -/
theorem cplIsLastResult : Obligations.CplIsLastResult := by
  intro buf s hs
  refine ⟨rfl, ?_⟩
  rw [exec_cplIsLast, execCplIsLast]
  split
  case isTrue h =>
    rw [withCplFields_short h]
    exact answers_error hs ..
  case isFalse h =>
    obtain ⟨b, hdr, hbuf, hk⟩ := withCplFields_whole h
    rw [hk, cplIsLast_eq]
    exact ⟨b, hdr, hbuf, answers_ok hs _⟩

/-! ### CPL_SPAN (R93) -/

theorem spanAnswer_of_error {f : CplFields} {dgramLen space : Nat} {e : Err} (h : cplSpan f dgramLen space = .error e) :
    spanAnswer f dgramLen space = .error e := by
  rw [spanAnswer, h]

theorem spanAnswer_of_ok {f : CplFields} {dgramLen space start size : Nat}
    (h : cplSpan f dgramLen space = .ok (start, size)) :
    spanAnswer f dgramLen space = .ok (.span (BitVec.ofNat 64 start) (BitVec.ofNat 13 size)) := by
  rw [spanAnswer, h]

/-- R93's three refusals in order, and then the span. -/
theorem spanAnswer_eq (f : CplFields) (dgramLen space : Nat) :
    spanAnswer f dgramLen space =
      let offset := f.lowaddr.toNat % 4
      let size := min f.count.toNat (f.length.toNat * 4 - offset)
      if f.length.toNat * 4 < offset then .error (mkErr .invalidData .lengthUnderflow f.length.toNat offset)
      else if dgramLen < 18 + offset + size then
        .error (mkErr .invalidData .spanExceedsDatagram (18 + offset + size) dgramLen)
      else if space < size then .error (mkErr .invalidData .spanExceedsDest size space)
      else .ok (.span (BitVec.ofNat 64 (18 + offset)) (BitVec.ofNat 13 size)) := by
  dsimp only
  split
  case isTrue hunder => exact spanAnswer_of_error (if_pos hunder)
  case isFalse hunder =>
    split
    case isTrue hdgram => exact spanAnswer_of_error ((if_neg hunder).trans (if_pos hdgram))
    case isFalse hdgram =>
      split
      case isTrue hdest =>
        exact spanAnswer_of_error ((if_neg hunder).trans ((if_neg hdgram).trans (if_pos hdest)))
      case isFalse hdest =>
        exact spanAnswer_of_ok ((if_neg hunder).trans ((if_neg hdgram).trans (if_neg hdest)))

/-- Settles O29: R93's checks are `spanAnswer_eq`; a start of at most 21 and a size below 4096 fit their results. -/
theorem cplSpanResult : Obligations.CplSpanResult := by
  intro buf dgramLen space s hs
  refine ⟨rfl, ?_⟩
  rw [exec_cplSpan, execCplSpan]
  split
  case isTrue h =>
    rw [withCplFields_short h]
    exact answers_error hs ..
  case isFalse h =>
    obtain ⟨b, hdr, hbuf, hk⟩ := withCplFields_whole h
    refine ⟨b, hdr, hbuf, ?_⟩
    rw [hk, spanAnswer_eq]
    dsimp only
    split
    · exact answers_error hs ..
    split
    · exact answers_error hs ..
    split
    · exact answers_error hs ..
    · have hcount := hdr.count.isLt
      exact ⟨_, _, answers_ok hs _, by rw [BitVec.toNat_ofNat]; omega, by rw [BitVec.toNat_ofNat]; omega⟩

/-! ### Request headers (R96) -/

/-- The eleven fields `DEC_REQ` answers for a header of byte 0 `b`, fields `h` and address `a`. -/
def requestFields (b : Byte) (h : ReqHead) (a : BitVec 64) : ReqFields :=
  ⟨b, b = 0x40#8 || b = 0x60#8, b = 0x20#8 || b = 0x60#8, h.tc, h.flags, h.length, h.reqid, h.tag, h.lastbe,
    h.firstbe, a⟩

theorem isRequestFmtType_eq_false (b : Byte) :
    isRequestFmtType b = false ↔ b ≠ 0x00#8 ∧ b ≠ 0x20#8 ∧ b ≠ 0x40#8 ∧ b ≠ 0x60#8 := by
  simp [isRequestFmtType, and_assoc]

/-- Bit 5 of the four forms tells a header with a 64-bit address (R53). -/
theorem bit5_iff {b : Byte} (h : ¬ (b ≠ 0x00#8 ∧ b ≠ 0x20#8 ∧ b ≠ 0x40#8 ∧ b ≠ 0x60#8)) :
    b.getLsbD 5 = true ↔ b = 0x20#8 ∨ b = 0x60#8 := by
  revert b
  decide

/-- The fields `DEC_REQ` finds in a header with a 32-bit address (R51). -/
theorem reqFieldsOf_32 {b : Byte} (hb : b = 0x00#8 ∨ b = 0x40#8) (h : ReqHead) (v : BitVec 32) (rest : Bytes) :
    reqFieldsOf (encodeReqHead b h ++ (be32 v ++ rest)) = requestFields b h (v.setWidth 64) := by
  simp only [reqFieldsOf, requestFields, reqHead_fields b h (be32 v ++ rest), reqHead_address, u32be_be32,
    BitVec.ofNat_toNat]
  rcases hb with rfl | rfl <;> rfl

/-- The fields `DEC_REQ` finds in a header with a 64-bit address (R52). -/
theorem reqFieldsOf_64 {b : Byte} (hb : b = 0x20#8 ∨ b = 0x60#8) (h : ReqHead) (v : BitVec 64) (rest : Bytes) :
    reqFieldsOf (encodeReqHead b h ++ (be64 v ++ rest)) = requestFields b h v := by
  simp only [reqFieldsOf, requestFields, reqHead_fields b h (be64 v ++ rest), reqHead_address, u64be_be64,
    BitVec.ofNat_toNat, BitVec.setWidth_eq]
  rcases hb with rfl | rfl <;> rfl

/-- A buffer that passes R96's checks starts with a request header, and its fields are read off there. -/
theorem reqFieldsOf_header {buf : Bytes}
    (h : ((byteAt buf 0 = 0x00#8 ∨ byteAt buf 0 = 0x40#8) ∧ 12 ≤ buf.length) ∨
      ((byteAt buf 0 = 0x20#8 ∨ byteAt buf 0 = 0x60#8) ∧ 16 ≤ buf.length)) :
    ∃ (b : Byte) (hd : ReqHead) (a : BitVec 64), IsRequestHeader buf b hd a ∧ reqFieldsOf buf = requestFields b hd a := by
  obtain ⟨b, hd, rest, rfl⟩ : ∃ b hd rest, buf = encodeReqHead b hd ++ rest :=
    ⟨_, _, _, eq_encodeReqHead_append (by omega)⟩
  have h0 : byteAt (encodeReqHead b hd ++ rest) 0 = b := rfl
  rw [h0, List.length_append, encodeReqHead_length] at h
  rcases h with ⟨hb, hlen⟩ | ⟨hb, hlen⟩
  · obtain ⟨v, rest, rfl⟩ := exists_be32 (d := rest) (by omega)
    refine ⟨b, hd, v.setWidth 64, .inl ⟨hb, ?_, ?_⟩, reqFieldsOf_32 hb hd v rest⟩
    · have := v.isLt
      rw [BitVec.toNat_setWidth]
      omega
    · rw [BitVec.setWidth_setWidth_of_le _ (by decide), BitVec.setWidth_eq]
      rfl
  · obtain ⟨v, rest, rfl⟩ := exists_be64 (d := rest) (by omega)
    exact ⟨b, hd, v, .inr ⟨hb, rfl⟩, reqFieldsOf_64 hb hd v rest⟩

/-- R96 in full: the first error of its order, or the fields of the header at the start of the buffer. -/
theorem decReqFields_cases (buf : Bytes) :
    (∃ e, requestHeaderError buf = some (.error e) ∧ decReqFields buf = .error e) ∨
    (requestHeaderError buf = none ∧ ∃ (b : Byte) (hd : ReqHead) (a : BitVec 64),
      IsRequestHeader buf b hd a ∧ decReqFields buf = .ok (requestFields b hd a)) := by
  by_cases hshort : buf.length < 12
  · exact .inl ⟨_, if_pos hshort, if_pos hshort⟩
  by_cases hfmt : byteAt buf 0 ≠ 0x00#8 ∧ byteAt buf 0 ≠ 0x20#8 ∧ byteAt buf 0 ≠ 0x40#8 ∧ byteAt buf 0 ≠ 0x60#8
  · exact .inl ⟨_, (if_neg hshort).trans (if_pos hfmt),
      (if_neg hshort).trans (if_pos ((isRequestFmtType_eq_false _).2 hfmt))⟩
  have hknown := mt (isRequestFmtType_eq_false _).1 hfmt
  by_cases hcut : (byteAt buf 0 = 0x20#8 ∨ byteAt buf 0 = 0x60#8) ∧ buf.length < 16
  · exact .inl ⟨_, (if_neg hshort).trans ((if_neg hfmt).trans (if_pos hcut)),
      (if_neg hshort).trans ((if_neg hknown).trans (if_pos (hcut.imp_left (bit5_iff hfmt).2)))⟩
  · obtain ⟨b, hd, a, hhdr, hfields⟩ := reqFieldsOf_header (buf := buf) (by grind)
    refine .inr ⟨(if_neg hshort).trans ((if_neg hfmt).trans (if_neg hcut)), b, hd, a, hhdr, ?_⟩
    rw [← hfields]
    exact (if_neg hshort).trans ((if_neg hknown).trans (if_neg (mt (And.imp_left (bit5_iff hfmt).1) hcut)))

/-- Settles O30: R96's checks and fields are `decReqFields_cases`. -/
theorem decReqResult : Obligations.DecReqResult := by
  intro buf s hs
  refine ⟨rfl, ?_⟩
  rw [exec_decReq, execDecReq, decReqAnswer]
  rcases decReqFields_cases buf with ⟨e, herr, hf⟩ | ⟨hnone, b, hd, a, hhdr, hf⟩
  · rw [herr, hf]
    exact onCommand_idle hs _
  · rw [hnone, hf]
    exact ⟨b, hd, a, hhdr, answers_ok hs _⟩

/-! ### Byte-enable nibbles (R97) -/

/-- A nibble is the run of `n` bits from bit `lead` on when its bits say so. -/
theorem bits_iff_run (x : BitVec 4) {lead n : Nat} (h : lead + n ≤ 4) :
    (∀ i, i < 4 → x.getLsbD i = decide (lead ≤ i ∧ i < lead + n)) ↔ x = lowmask n <<< lead := by
  have hrun : ∀ lead ≤ 4, ∀ n ≤ 4 - lead, ∀ i < 4,
      (lowmask n <<< lead).getLsbD i = decide (lead ≤ i ∧ i < lead + n) := by decide
  have hbit := hrun lead (by omega) n (by omega)
  constructor
  · intro hx
    apply BitVec.eq_of_getLsbD_eq
    intro i hi
    rw [hx i hi, hbit i hi]
  · rintro rfl
    exact hbit

/-- The bits from `lead` up. -/
theorem bits_iff_upper (x : BitVec 4) {lead : Nat} (h : lead < 4) :
    (∀ i, i < 4 → x.getLsbD i = decide (lead ≤ i)) ↔ x = 0xF#4 <<< lead := by
  have hF : 0xF#4 <<< lead = lowmask (4 - lead) <<< lead := by
    revert lead
    decide
  rw [hF, ← bits_iff_run x (by omega)]
  refine forall₂_congr fun i hi => ?_
  rw [decide_eq_decide.mpr (show (lead ≤ i ∧ i < lead + (4 - lead)) ↔ lead ≤ i by omega)]

/-- The `k` low bits. -/
theorem bits_iff_lower (x : BitVec 4) {k : Nat} (h : k ≤ 4) :
    (∀ i, i < 4 → x.getLsbD i = decide (i < k)) ↔ x = lowmask k := by
  simpa using bits_iff_run x (lead := 0) (n := k) (by omega)

/-- A run that is not empty is found again from its lowest bit and its number of bits. -/
theorem run_ctz4_popcount4 {lead n : Nat} (hn : 1 ≤ n) (h : lead + n ≤ 4) :
    ctz4 (lowmask n <<< lead) = lead ∧ popcount4 (lowmask n <<< lead) = n := by
  have hall : ∀ lead ≤ 3, ∀ n ≤ 4 - lead, 1 ≤ n →
      ctz4 (lowmask n <<< lead) = lead ∧ popcount4 (lowmask n <<< lead) = n := by decide
  exact hall lead (by omega) n (by omega) hn

theorem upper_ctz4 {lead : Nat} (h : lead < 4) : ctz4 (0xF#4 <<< lead) = lead := by
  revert lead
  decide

theorem lower_popcount4 {k : Nat} (hk : k ≤ 4) : popcount4 (lowmask k) = k := by
  have hall : ∀ k < 5, popcount4 (lowmask k) = k := by decide
  exact hall k (by omega)

theorem ctz4_lt (x : BitVec 4) : ctz4 x < 4 := by
  revert x
  decide

/-- The set bits of a nibble that is not zero lie from its lowest one up. -/
theorem popcount4_bounds {x : BitVec 4} (h : x ≠ 0#4) : 1 ≤ popcount4 x ∧ ctz4 x + popcount4 x ≤ 4 := by
  revert x
  decide

theorem popcount4_le (x : BitVec 4) : popcount4 x ≤ 4 := by
  revert x
  decide

/-! ### The range a request header describes (R97) -/

/-- The length in DWs of a request that enables some byte of its first DW: a length field of 0 stands for 1024. -/
def headerDws (h : ReqHead) : Nat := if h.length = 0#10 then 1024 else h.length.toNat

theorem headerDws_bounds (h : ReqHead) : 1 ≤ headerDws h ∧ headerDws h ≤ 1024 := by
  unfold headerDws
  split
  case isTrue => decide
  case isFalse hne =>
    have hlt := h.length.isLt
    have hpos : h.length.toNat ≠ 0 := fun h0 => hne (BitVec.eq_of_toNat_eq h0)
    omega

section
variable (h : ReqHead) (lead n : Nat)

/-- No byte enabled in the first DW. -/
theorem spanOf_empty (hf : h.firstbe = 0#4) : SpanOf h lead n ↔ h.lastbe = 0#4 ∧ lead = 0 ∧ n = 0 := by
  simp [SpanOf, hf]

/-- Inside one DW: the nibble is a run, and it is the run that its lowest bit and its number of bits tell. -/
theorem spanOf_single (hf : h.firstbe ≠ 0#4) (hd : headerDws h = 1) :
    SpanOf h lead n ↔
      (h.lastbe = 0#4 ∧ h.firstbe = lowmask (popcount4 h.firstbe) <<< ctz4 h.firstbe) ∧
        lead = ctz4 h.firstbe ∧ n = popcount4 h.firstbe := by
  rw [SpanOf, if_neg hf]
  change (if headerDws h = 1 then _ else _) ↔ _
  rw [if_pos hd]
  constructor
  · rintro ⟨hn, hfit, hlast, hbits⟩
    have hrun := (bits_iff_run _ hfit).1 hbits
    obtain ⟨hctz, hpop⟩ := run_ctz4_popcount4 hn hfit
    rw [hrun, hctz, hpop]
    exact ⟨⟨hlast, rfl⟩, rfl, rfl⟩
  · rintro ⟨⟨hlast, hrun⟩, rfl, rfl⟩
    obtain ⟨hn, hfit⟩ := popcount4_bounds hf
    exact ⟨hn, hfit, hlast, (bits_iff_run _ hfit).2 hrun⟩

/-- Over several DWs: the first nibble's bits reach up to bit 3 and the last nibble's down to bit 0. -/
theorem spanOf_many (hf : h.firstbe ≠ 0#4) (hd : headerDws h ≠ 1) :
    SpanOf h lead n ↔
      (h.firstbe = 0xF#4 <<< ctz4 h.firstbe ∧ 1 ≤ popcount4 h.lastbe ∧ h.lastbe = lowmask (popcount4 h.lastbe)) ∧
        lead = ctz4 h.firstbe ∧ n = 4 * headerDws h - ctz4 h.firstbe - (4 - popcount4 h.lastbe) := by
  rw [SpanOf, if_neg hf]
  change (if headerDws h = 1 then _ else _) ↔ _
  rw [if_neg hd]
  constructor
  · rintro ⟨hlead, k, hk, hk4, hn, hfirst, hlast⟩
    rw [(bits_iff_upper _ hlead).1 hfirst, (bits_iff_lower _ hk4).1 hlast, upper_ctz4 hlead, lower_popcount4 hk4]
    refine ⟨⟨rfl, hk, rfl⟩, rfl, ?_⟩
    change n + lead + (4 - k) = 4 * headerDws h at hn
    omega
  · rintro ⟨⟨hfirst, hk, hlast⟩, rfl, rfl⟩
    have hlead := ctz4_lt h.firstbe
    have hk4 := popcount4_le h.lastbe
    have hdws := headerDws_bounds h
    refine ⟨hlead, popcount4 h.lastbe, hk, hk4, ?_, (bits_iff_upper _ hlead).2 hfirst, (bits_iff_lower _ hk4).2 hlast⟩
    change _ = 4 * headerDws h
    omega
end

section
variable (b : Byte) (h : ReqHead) (a : BitVec 64)

theorem requestRange_empty (hf : h.firstbe = 0#4) :
    requestRange (requestFields b h a) =
      if h.lastbe = 0#4 then .ok (a.toNat - a.toNat % 4 + 0, 0)
      else .error (mkErr .invalidData .badByteEnable h.firstbe.toNat h.lastbe.toNat) := if_pos hf

/-- The DW length that `REQ_SPAN` goes by when the first nibble is not zero. -/
theorem requestRange_dws (hf : h.firstbe ≠ 0#4) :
    (if h.length = 0#10 ∧ h.firstbe ≠ 0#4 then Config.maxDw else h.length.toNat) = headerDws h := by
  simp [headerDws, hf]

theorem requestRange_single (hf : h.firstbe ≠ 0#4) (hd : headerDws h = 1) :
    requestRange (requestFields b h a) =
      if h.lastbe = 0#4 ∧ h.firstbe = lowmask (popcount4 h.firstbe) <<< ctz4 h.firstbe then
        .ok (a.toNat - a.toNat % 4 + ctz4 h.firstbe, popcount4 h.firstbe)
      else .error (mkErr .invalidData .badByteEnable h.firstbe.toNat h.lastbe.toNat) := by
  exact (if_neg hf).trans (if_pos ((requestRange_dws h hf).trans hd))

theorem requestRange_many (hf : h.firstbe ≠ 0#4) (hd : headerDws h ≠ 1) :
    requestRange (requestFields b h a) =
      if h.firstbe = 0xF#4 <<< ctz4 h.firstbe ∧ 1 ≤ popcount4 h.lastbe ∧ h.lastbe = lowmask (popcount4 h.lastbe) then
        .ok (a.toNat - a.toNat % 4 + ctz4 h.firstbe, 4 * headerDws h - ctz4 h.firstbe - (4 - popcount4 h.lastbe))
      else .error (mkErr .invalidData .badByteEnable h.firstbe.toNat h.lastbe.toNat) := by
  rw [← requestRange_dws h hf] at hd ⊢
  exact (if_neg hf).trans (if_neg hd)

/-- R97: a header describes one range or none, and `requestRange` finds it or raises `BadByteEnable`. -/
theorem requestRange_cases :
    (∃ l m, l < 4 ∧ m ≤ 4096 ∧ (∀ lead n, SpanOf h lead n ↔ lead = l ∧ n = m) ∧
      requestRange (requestFields b h a) = .ok (a.toNat - a.toNat % 4 + l, m)) ∨
    ((∀ lead n, ¬ SpanOf h lead n) ∧
      requestRange (requestFields b h a) =
        .error (mkErr .invalidData .badByteEnable h.firstbe.toNat h.lastbe.toNat)) := by
  have hlead := ctz4_lt h.firstbe
  by_cases hf : h.firstbe = 0#4
  · rw [requestRange_empty b h a hf]
    simp only [spanOf_empty h _ _ hf]
    split
    case isTrue hlast => exact .inl ⟨0, 0, by omega, by omega, fun _ _ => and_iff_right hlast, rfl⟩
    case isFalse hlast => exact .inr ⟨fun _ _ hs => hlast hs.1, rfl⟩
  by_cases hd : headerDws h = 1
  · rw [requestRange_single b h a hf hd]
    simp only [spanOf_single h _ _ hf hd]
    have hpop := popcount4_le h.firstbe
    split
    case isTrue hrun => exact .inl ⟨_, _, hlead, by omega, fun _ _ => and_iff_right hrun, rfl⟩
    case isFalse hrun => exact .inr ⟨fun _ _ hs => hrun hs.1, rfl⟩
  · rw [requestRange_many b h a hf hd]
    simp only [spanOf_many h _ _ hf hd]
    have hdws := headerDws_bounds h
    split
    case isTrue hrun => exact .inl ⟨_, _, hlead, by omega, fun _ _ => and_iff_right hrun, rfl⟩
    case isFalse hrun => exact .inr ⟨fun _ _ hs => hrun hs.1, rfl⟩
end

/-- Settles O31: R96's checks are `decReqFields_cases`, and the range is `requestRange_cases`; its first byte lies
below the top of the address space, since the DW-aligned address is at most `2^64 - 4`. -/
theorem reqSpanResult : Obligations.ReqSpanResult := by
  intro buf s hs
  refine ⟨rfl, ?_⟩
  rw [exec_reqSpan, execReqSpan, reqSpanAnswer]
  rcases decReqFields_cases buf with ⟨e, herr, hf⟩ | ⟨hnone, b, hd, a, hhdr, hf⟩
  · rw [herr, hf]
    exact onCommand_idle hs _
  rw [hnone, hf]
  refine ⟨b, hd, a, hhdr, ?_⟩
  dsimp only
  rcases requestRange_cases b hd a with ⟨l, m, hl, hm, hspan, hrange⟩ | ⟨hno, hrange⟩
  · rw [hrange]
    constructor
    · intro lead n hs'
      obtain ⟨rfl, rfl⟩ := (hspan lead n).1 hs'
      have ha := a.isLt
      exact ⟨_, _, answers_ok hs _, by rw [BitVec.toNat_ofNat]; omega, by rw [BitVec.toNat_ofNat]; omega⟩
    · intro hno
      exact absurd ((hspan l m).2 ⟨rfl, rfl⟩) (hno l m)
  · rw [hrange]
    exact ⟨fun lead n hs' => absurd hs' (hno lead n), fun _ => answers_error hs ..⟩

end Sys2Proof.Machine
end

section
/-! PROOFS. The commands of 43_chunking.md (CHUNK_LEN, PORT_SEL) and the chunk sequence of a transfer. -/

namespace Sys2Proof.Machine

/-! ### Which instruction has which meaning -/

theorem exec_chunkLen (addr remaining mrrs : BitVec 64) (s : State) :
    exec (.chunkLen addr remaining mrrs) s = execChunkLen addr remaining mrrs s := rfl
theorem exec_portSel (dir : BitVec 1) (tag : BitVec 8) (s : State) :
    exec (.portSel dir tag) s = execPortSel dir tag s := rfl

/-! ### The length of one chunk (R100) -/

theorem chunkLength_le_remaining (addr remaining mrrs : Nat) : chunkLength addr remaining mrrs ≤ remaining :=
  Nat.min_le_left ..

/-- A chunk ends at the latest where the page of its first byte ends. -/
theorem chunkLength_le_pageRest (addr remaining mrrs : Nat) :
    chunkLength addr remaining mrrs ≤ 0x1000 - addr % 0x1000 :=
  (Nat.min_le_right ..).trans (Nat.min_le_right ..)

/-- While bytes remain, a chunk is not empty: no address is at its page's end. -/
theorem chunkLength_pos {addr remaining mrrs : Nat} (hr : 1 ≤ remaining) (hm : 1 ≤ mrrs) :
    1 ≤ chunkLength addr remaining mrrs := by
  have hpage : addr % Config.page < Config.page := Nat.mod_lt _ (by decide)
  exact Nat.le_min.2 ⟨hr, Nat.le_min.2 ⟨hm, by omega⟩⟩

/-- R100's result width holds every chunk length: a chunk is at most a page long. -/
theorem chunkLength_ofNat_toNat (addr remaining mrrs : Nat) :
    (BitVec.ofNat 13 (chunkLength addr remaining mrrs)).toNat = chunkLength addr remaining mrrs := by
  have hpage := chunkLength_le_pageRest addr remaining mrrs
  rw [BitVec.toNat_ofNat, Nat.mod_eq_of_lt (by omega)]

/-- The top of the address space is a page's end, so no chunk passes it. -/
theorem add_chunkLength_le_top {addr : Nat} (remaining mrrs : Nat) (h : addr < 2 ^ 64) :
    addr + chunkLength addr remaining mrrs ≤ 2 ^ 64 := by
  have hpage := chunkLength_le_pageRest addr remaining mrrs
  omega

/-! ### The port number (R103) -/

theorem portNumber_directionOf (dir : BitVec 1) (tag : Nat) :
    portNumber (directionOf dir) tag = if dir = 0#1 then 0x3000 + tag else 0x4000 + tag % 16 := by
  unfold directionOf
  split <;> rfl

/-- R103's result width holds every port number. -/
theorem portNumber_lt (dir : DmaDirection) (tag : BitVec 8) : portNumber dir tag.toNat < 2 ^ 16 := by
  have htag := tag.isLt
  cases dir with
  | issuedByCore => exact (show 0x3000 + tag.toNat < 2 ^ 16 by omega)
  | issuedByAdapter => exact (show 0x4000 + tag.toNat % 16 < 2 ^ 16 by omega)

/-! ### The chunks of a transfer (R102) -/

/-- Fuel of one for each byte is enough: how much more there is does not change the chunks. -/
theorem chunksFrom_fuel_irrel {f g remaining mrrs : Nat} (p : Nat) (hm : 1 ≤ mrrs) (hf : remaining ≤ f)
    (hg : remaining ≤ g) : chunksFrom f p remaining mrrs = chunksFrom g p remaining mrrs := by
  induction f generalizing g p remaining with
  | zero =>
    obtain rfl : remaining = 0 := by omega
    cases g <;> rfl
  | succ f ih =>
    cases g with
    | zero =>
      obtain rfl : remaining = 0 := by omega
      rfl
    | succ g =>
      rw [chunksFrom, chunksFrom]
      split
      case isTrue => rfl
      case isFalse hr =>
        have hpos := chunkLength_pos (addr := p) (Nat.one_le_iff_ne_zero.2 hr) hm
        rw [ih (g := g) _ (by omega) (by omega)]

theorem chunks_zero (p mrrs : Nat) : chunks p 0 mrrs = [] := rfl

/-- The first chunk is the one R100 gives, and the others are the chunks of what it leaves. -/
theorem chunks_cons {len mrrs : Nat} (p : Nat) (hl : 1 ≤ len) (hm : 1 ≤ mrrs) :
    chunks p len mrrs =
      (p, chunkLength p len mrrs) ::
        chunks (p + chunkLength p len mrrs) (len - chunkLength p len mrrs) mrrs := by
  obtain ⟨fuel, rfl⟩ : ∃ fuel, len = fuel + 1 := ⟨len - 1, by omega⟩
  have hpos := chunkLength_pos (addr := p) hl hm
  rw [chunks, chunksFrom, if_neg (Nat.succ_ne_zero fuel), chunks,
    chunksFrom_fuel_irrel _ hm (by omega) (Nat.le_refl _)]

/-- Where the chunks of a transfer are cut in two, the first part covers a front of the transfer and the second part
is the chunks of the rest of it. -/
theorem chunks_append {addr len mrrs : Nat} {before after : List (Nat × Nat)} (hm : 1 ≤ mrrs)
    (h : chunks addr len mrrs = before ++ after) :
    (before.map Prod.snd).sum ≤ len ∧
      after = chunks (addr + (before.map Prod.snd).sum) (len - (before.map Prod.snd).sum) mrrs := by
  induction before generalizing addr len with
  | nil => exact ⟨Nat.zero_le len, h.symm⟩
  | cons c before ih =>
    cases len with
    | zero => cases h
    | succ k =>
      rw [chunks_cons addr (Nat.le_add_left 1 k) hm, List.cons_append, List.cons.injEq] at h
      obtain ⟨rfl, hrest⟩ := h
      have hn := chunkLength_le_remaining addr (k + 1) mrrs
      obtain ⟨hsum, hafter⟩ := ih hrest
      rw [List.map_cons, List.sum_cons, ← Nat.add_assoc, ← Nat.sub_sub]
      exact ⟨by omega, hafter⟩

/-- The chunks cover the whole transfer: the rest behind all of them has no chunks, so it is empty. -/
theorem chunks_sum {mrrs : Nat} (addr len : Nat) (hm : 1 ≤ mrrs) :
    ((chunks addr len mrrs).map Prod.snd).sum = len := by
  obtain ⟨hle, hrest⟩ := chunks_append hm (List.append_nil (chunks addr len mrrs)).symm
  by_contra hne
  rw [chunks_cons _ (by omega) hm] at hrest
  cases hrest

/-- A chunk is the one R100 gives at its place, for what the chunks before it leave of the transfer. -/
theorem chunk_of_chunks_append {addr len mrrs p n : Nat} {before after : List (Nat × Nat)} (hm : 1 ≤ mrrs)
    (h : chunks addr len mrrs = before ++ (p, n) :: after) :
    p = addr + (before.map Prod.snd).sum ∧ p < addr + len ∧ n = chunkLength p (len - (p - addr)) mrrs := by
  obtain ⟨hsum, hrest⟩ := chunks_append hm h
  have hlt : (before.map Prod.snd).sum < len := by
    by_contra hge
    rw [Nat.sub_eq_zero_of_le (Nat.not_lt.1 hge), chunks_zero] at hrest
    cases hrest
  rw [chunks_cons _ (by omega) hm] at hrest
  cases hrest
  rw [Nat.add_sub_cancel_left]
  exact ⟨rfl, by omega, rfl⟩

/-! ### The obligations -/

/-- Settles O21: the sum is `chunks_sum`, and each chunk with what is before it is `chunk_of_chunks_append`. -/
theorem chunksPartitionTransfer : Obligations.ChunksPartitionTransfer := by
  intro addr len mrrs hm _
  have hsum := chunks_sum addr len hm
  refine ⟨hsum, ?_, ?_, ?_⟩
  · intro hl
    rw [chunks_cons addr hl hm]
    exact List.cons_ne_nil _ _
  · rintro rfl
    exact chunks_zero addr mrrs
  · intro before after p n h
    obtain ⟨hp, hlt, hn⟩ := chunk_of_chunks_append hm h
    have hpos : 1 ≤ n := hn ▸ chunkLength_pos (by omega) hm
    have hle : n ≤ len - (p - addr) := hn ▸ chunkLength_le_remaining ..
    exact ⟨hp, hn, hpos, by omega⟩

/-- Settles O19: R100's formula is the model's, the 13-bit result holds it (`chunkLength_ofNat_toNat`), and the page
bound keeps the chunk inside the address space (`add_chunkLength_le_top`). -/
theorem chunkLenResult : Obligations.ChunkLenResult := by
  intro addr remaining mrrs s hs
  rw [exec_chunkLen, execChunkLen]
  have hn := chunkLength_ofNat_toNat addr.toNat remaining.toNat mrrs.toNat
  refine ⟨rfl, _, answers_ok hs _, hn, ?_⟩
  rw [hn]
  exact add_chunkLength_le_top _ _ addr.isLt

/-- Settles O22: R103's number for either direction (`portNumber_directionOf`), which 16 bits hold. -/
theorem portSelResult : Obligations.PortSelResult := by
  intro dir tag s hs
  rw [exec_portSel, execPortSel]
  refine ⟨rfl, _, answers_ok hs _, ?_⟩
  rw [BitVec.toNat_ofNat, Nat.mod_eq_of_lt (portNumber_lt ..), portNumber_directionOf]

end Sys2Proof.Machine
end

section
/-! PROOFS. The receive events of 45_completion_reassembly.md that are no datagram (RX_TIMEOUT, RX_IOERROR). -/

namespace Sys2Proof.Machine

/-! ### A receive that fails the read (R118) -/

/-- In RD_RECV, with the read inside DST, a receive that raises an error is R118's failure of the whole read. -/
theorem onReceive_fail_failsRead {s : State} (hs : s.seq.state = .rdRecv) (hlen : s.seq.len.toNat ≤ s.dst.size)
    (kind : ErrKind) (cause : Cause) (raw0 raw1 : Nat) :
    FailsRead (onReceive s (fail (mkErr kind cause raw0 raw1) s)) s (errorResponse kind cause raw0 raw1) := by
  rw [onReceive_rdRecv hs]
  exact fail_failsRead (mkErr kind cause raw0 raw1) s hlen

/-- R116: the raw values say how far the read had come, the chunks done and the bytes of the outstanding one. -/
theorem rxStep_timeout_failsRead {s : State} (hs : s.seq.state = .rdRecv) (hlen : s.seq.len.toNat ≤ s.dst.size) :
    FailsRead (rxStep .timeout s) s (errorResponse .timeout .none s.seq.received.toNat s.seq.cursor.toNat) := by
  rw [rxStep, rxTimeout]
  exact onReceive_fail_failsRead hs hlen ..

/-- R117: stage 2 is the receive, and only the chunks done are counted. -/
theorem rxStep_ioError_failsRead {s : State} (hs : s.seq.state = .rdRecv) (hlen : s.seq.len.toNat ≤ s.dst.size) :
    FailsRead (rxStep .ioError s) s (errorResponse .io .none 2 s.seq.received.toNat) := by
  rw [rxStep, rxIoError]
  exact onReceive_fail_failsRead hs hlen ..

/-! ### The obligations -/

/-- Settles O50: the step takes the event (`step_of_event`), which changes neither the sequencer nor DST, and the
timeout fails the read. -/
theorem timeoutFailsRead : Obligations.TimeoutFailsRead := by
  intro s rest hpin hs hrx hlen
  rw [step_of_event hpin hs hrx]
  exact rxStep_timeout_failsRead (s := { s with ports.rx := rest }) hs hlen

/-- Settles O51: the step takes the event (`step_of_event`), which changes neither the sequencer nor DST, and the
receive failure fails the read. -/
theorem ioErrorFailsRead : Obligations.IoErrorFailsRead := by
  intro s rest hpin hs hrx hlen
  rw [step_of_event hpin hs hrx]
  exact rxStep_ioError_failsRead (s := { s with ports.rx := rest }) hs hlen

end Sys2Proof.Machine
end

section
/-! PROOFS. The op byte outside the opcode map, 60_exceptions.md R133. -/

namespace Sys2Proof.Machine

/-- Past the twenty op bytes of R69 the decoder has one answer, and it does not look at the operand bytes. -/
theorem decodeOperands_badOpcode {op : Byte} (a : Bytes)
    (h : op.toNat ∉ [0x01, 0x02, 0x03, 0x04, 0x05, 0x06, 0x10, 0x11, 0x12, 0x20, 0x21, 0x22, 0x23, 0x24, 0x28, 0x29,
      0x30, 0x31, 0x32, 0x33]) :
    decodeOperands op a = .error (.badOpcode op) := by
  unfold decodeOperands
  split
  case h_21 => rfl
  -- Each other arm is an op byte of the map.
  all_goals next hop => simp [hop] at h

/-- In IDLE the step takes the host's next act and acts on it. -/
theorem step_of_hostAct {s : State} {act : HostAct} {rest : List HostAct} (hpin : s.ports.resetPin = false)
    (hs : s.seq.state = .idle) (hhost : s.ports.host = act :: rest) :
    step s = hostStep act { s with ports.host := rest } := by
  simp [step, fetch, hpin, hs, hhost]

/-- A command whose bytes do not decode has the effect of their refusal. -/
theorem hostStep_command_error {image : Bytes} {e : DecodeError} (h : decodeCommand image = .error e) (s : State) :
    hostStep (.command image) s = rejectedCommand e s := by
  simp [hostStep, h]

/-- R70, R133: in IDLE the refusal of an op byte is an answer like that of a command that raises an error. -/
theorem rejectedCommand_badOpcode {s : State} (hs : s.seq.state = .idle) (op : Byte) :
    Answers (rejectedCommand (.badOpcode op) s) s (errorResponse .illegalOp .badOpcode op.toNat 0) :=
  answers_error hs ..

/-- Settles O9: the step takes the command (`step_of_hostAct`), its op byte does not decode
(`decodeOperands_badOpcode`), and the refusal answers ErrIllegalOp (`rejectedCommand_badOpcode`). -/
theorem illegalOpRaises : Obligations.IllegalOpRaises := by
  intro s op a rest hpin hs hhost hop
  have hdecode : decodeCommand (op :: a) = .error (.badOpcode op) := decodeOperands_badOpcode a hop
  rw [step_of_hostAct hpin hs hhost, hostStep_command_error hdecode]
  exact rejectedCommand_badOpcode (s := { s with ports.host := rest }) hs op

end Sys2Proof.Machine
end

section
/-! PROOFS. The encoder and the decoder of both ports are inverse to each other (30_encoding.md). -/

namespace Sys2Proof.Machine

/-! ### Operands of a command (R69)

A command's operands are fields side by side; the operand behind a field is the operand of what follows it. -/

@[simp] theorem operand64_behind_be64 (v : BitVec 64) (t : Bytes) (i : Nat) :
    operand64 (be64 v ++ t) (i + 8) = operand64 t i := by
  rw [Nat.add_comm]
  exact operand64_append_right (be64 v) t i

@[simp] theorem operand64_first (v : BitVec 64) (t : Bytes) : operand64 (be64 v ++ t) 0 = v := operand64_be64 v t

@[simp] theorem operand64_only (v : BitVec 64) : operand64 (be64 v) 0 = v := by
  simpa using operand64_be64 v []

/-- The operands behind the 16-bit and the 8-bit operand of ENC_MRD and ENC_MWR. -/
@[simp] theorem operand64_behind_reqid_tag (reqid : BitVec 16) (tag : Byte) (t : Bytes) (i : Nat) :
    operand64 (be16 reqid ++ tag :: t) (i + 3) = operand64 t i := by
  rw [Nat.add_comm, List.append_cons]
  exact operand64_append_right (be16 reqid ++ [tag]) t i

@[simp] theorem operand16_first (v : BitVec 16) (t : Bytes) : operand16 (be16 v ++ t) 0 = v := operand16_be16 v t

@[simp] theorem byteAt_behind_reqid (reqid : BitVec 16) (tag : Byte) (t : Bytes) :
    byteAt (be16 reqid ++ tag :: t) 2 = tag := rfl

/-- PORT_SEL's direction is the low bit of its byte. -/
theorem direction_byte (dir : BitVec 1) : (dir.setWidth 8).toNat < 2 ∧ (dir.setWidth 8).extractLsb' 0 1 = dir := by
  revert dir
  decide

/-- A byte below 2 is a direction. -/
theorem exists_direction {b : Byte} (h : b.toNat < 2) : ∃ dir : BitVec 1, b = dir.setWidth 8 := by
  revert b
  decide

/-! ### Headers: decoding what the encoder has written -/

/-- A bit vector is its upper and its lower part side by side. -/
theorem parts_10 (x : BitVec 10) : x.extractLsb' 8 2 ++ x.extractLsb' 0 8 = x := by
  rw [BitVec.extractLsb'_append_extractLsb'_eq_extractLsb' (by decide), BitVec.extractLsb'_eq_self]
theorem parts_12 (x : BitVec 12) : x.extractLsb' 8 4 ++ x.extractLsb' 0 8 = x := by
  rw [BitVec.extractLsb'_append_extractLsb'_eq_extractLsb' (by decide), BitVec.extractLsb'_eq_self]
theorem parts_16 (x : BitVec 16) : x.extractLsb' 8 8 ++ x.extractLsb' 0 8 = x := by
  rw [BitVec.extractLsb'_append_extractLsb'_eq_extractLsb' (by decide), BitVec.extractLsb'_eq_self]
/-- A field of a field. -/
theorem extract_extract {w : Nat} (x : BitVec w) {i m j n : Nat} (h : j + n ≤ m) :
    (x.extractLsb' i m).extractLsb' j n = x.extractLsb' (i + j) n := by
  ext k hk
  have hm : j + k < m := by omega
  simp [hm, Nat.add_assoc]
theorem parts_32 (x : BitVec 32) :
    x.extractLsb' 24 8 ++ x.extractLsb' 16 8 ++ x.extractLsb' 8 8 ++ x.extractLsb' 0 8 = x := by
  simp (disch := decide) only [BitVec.extractLsb'_append_extractLsb'_eq_extractLsb', BitVec.extractLsb'_eq_self]
theorem parts_64 (x : BitVec 64) :
    x.extractLsb' 56 8 ++ x.extractLsb' 48 8 ++ x.extractLsb' 40 8 ++ x.extractLsb' 32 8 ++ x.extractLsb' 24 8 ++
      x.extractLsb' 16 8 ++ x.extractLsb' 8 8 ++ x.extractLsb' 0 8 = x := by
  simp (disch := decide) only [BitVec.extractLsb'_append_extractLsb'_eq_extractLsb', BitVec.extractLsb'_eq_self]

/-- The three fields of one byte of a completion header (R60). -/
theorem extract_3_1_4 (x : BitVec 3) (y : BitVec 1) (z : BitVec 4) :
    (x ++ y ++ z : BitVec 8).extractLsb' 5 3 = x ∧ (x ++ y ++ z : BitVec 8).extractLsb' 4 1 = y ∧
      (x ++ y ++ z : BitVec 8).extractLsb' 0 4 = z := by
  revert x y z
  decide

theorem decodeNettlp_encode (nt : NettlpHdr) (rest : Bytes) : decodeNettlp (encodeNettlp nt ++ rest) = nt :=
  congrArg₂ NettlpHdr.mk (parts_16 nt.seq) (parts_32 nt.timestamp)

theorem decodeReqHead_encode (b : Byte) (h : ReqHead) (rest : Bytes) :
    decodeReqHead (encodeReqHead b h ++ rest) = h := by
  obtain ⟨tc, flags, length, reqid, tag, lastbe, firstbe⟩ := h
  simp only [decodeReqHead, encodeReqHead, be16, List.cons_append, List.nil_append, byteAt_zero, byteAt_succ,
    extract_append, parts_10, parts_16]

theorem decodeCplHdr_encode (b : Byte) (h : CplHdr) (rest : Bytes) : decodeCplHdr (encodeCplHdr b h ++ rest) = h := by
  obtain ⟨tc, u2, length, cplid, status, u6, count, reqid, tag, r11, lowaddr⟩ := h
  obtain ⟨hu2, hlength⟩ := extract_append u2 (length.extractLsb' 8 2)
  obtain ⟨hstatus, hu6, hcount⟩ := extract_3_1_4 status u6 (count.extractLsb' 8 4)
  obtain ⟨hr11, hlowaddr⟩ := extract_append r11 lowaddr
  rw [decodeCplHdr, CplHdr.mk.injEq]
  exact ⟨rfl, hu2, (congrArg (· ++ _) hlength).trans (parts_10 length), parts_16 cplid, hstatus, hu6,
    (congrArg (· ++ _) hcount).trans (parts_12 count), parts_16 reqid, rfl, hr11, hlowaddr⟩

theorem decodeAddress32_encode (b : Byte) (h : ReqHead) (a : BitVec 32) (rest : Bytes) :
    decodeAddress32 (encodeReqHead b h ++ (be32 a ++ rest)) = a := parts_32 a

theorem decodeAddress64_encode (b : Byte) (h : ReqHead) (a : BitVec 64) (rest : Bytes) :
    decodeAddress64 (encodeReqHead b h ++ (be64 a ++ rest)) = a := by
  have hbytes : be64 a = [a.extractLsb' 56 8, a.extractLsb' 48 8, a.extractLsb' 40 8, a.extractLsb' 32 8,
      a.extractLsb' 24 8, a.extractLsb' 16 8, a.extractLsb' 8 8, a.extractLsb' 0 8] := by
    simp [be64, be32, extract_extract]
  rw [hbytes]
  exact parts_64 a

/-! ### Decoding an encoded instruction -/

theorem decodeCommand_encode (i : Instr) (h : i.port = .command) : decodeCommand (encode i) = .ok i := by
  cases i
  case portSel dir tag =>
    obtain ⟨hlt, hdir⟩ := direction_byte dir
    exact (if_pos hlt).trans (congrArg (fun d => Except.ok (Instr.portSel d tag)) hdir)
  case cplSpan buf dgramLen space =>
    have hlen : ¬ 8 + (8 + buf.length) < 16 := by omega
    have hdrop : (be64 dgramLen ++ (be64 space ++ buf)).drop 16 = buf := rfl
    simp [encode, decodeCommand, decodeOperands, hlen, hdrop]
  case mrd32 | mrd64 | mwr32 | mwr64 | cpld | cpl | nettlp => cases h
  all_goals simp [encode, decodeCommand, decodeOperands, withExactly, operandBytes]

/-- The decoder splits a datagram with a whole header behind the transport header. -/
theorem decodeDatagram_append (nt : NettlpHdr) {h : Bytes} (hlen : 12 ≤ h.length) :
    decodeDatagram (encodeNettlp nt ++ h) = decodeHeader nt h := by
  have hdrop : (encodeNettlp nt ++ h).drop 6 = h := List.drop_left' (encodeNettlp_length nt)
  have hlen6 : ¬ (encodeNettlp nt ++ h).length < 6 := by simp
  have hlen18 : ¬ (encodeNettlp nt ++ h).length < 18 := by simp; omega
  rw [decodeDatagram, if_neg hlen6, if_neg hlen18, hdrop, decodeNettlp_encode]

/-- A header with a 64-bit address is whole when eight bytes follow its first eight. -/
theorem header64_length (b : Byte) (head : ReqHead) (a : BitVec 64) (rest : Bytes) :
    ¬ (encodeReqHead b head ++ (be64 a ++ rest)).length < 16 := by
  simp only [List.length_append, encodeReqHead_length, be64_length]
  omega

section
variable (nt : NettlpHdr) (head : ReqHead) (hdr : CplHdr) (a : BitVec 32) (b : BitVec 64) (rest : Bytes)

theorem decodeHeader_mrd32 :
    decodeHeader nt (encodeReqHead 0x00#8 head ++ (be32 a ++ rest)) = .ok (.mrd32 nt head a rest) :=
  congrArg₂ (fun x y => Except.ok (Instr.mrd32 nt x y rest)) (decodeReqHead_encode ..)
    (decodeAddress32_encode _ head ..)

theorem decodeHeader_mwr32 :
    decodeHeader nt (encodeReqHead 0x40#8 head ++ (be32 a ++ rest)) = .ok (.mwr32 nt head a rest) :=
  congrArg₂ (fun x y => Except.ok (Instr.mwr32 nt x y rest)) (decodeReqHead_encode ..)
    (decodeAddress32_encode _ head ..)

theorem decodeHeader_mrd64 :
    decodeHeader nt (encodeReqHead 0x20#8 head ++ (be64 b ++ rest)) = .ok (.mrd64 nt head b rest) := by
  have hb : byteAt (encodeReqHead 0x20#8 head ++ (be64 b ++ rest)) 0 = 0x20#8 := rfl
  have hdrop : (encodeReqHead 0x20#8 head ++ (be64 b ++ rest)).drop 16 = rest := rfl
  simp only [decodeHeader, hb, if_neg (header64_length 0x20#8 head b rest), decodeReqHead_encode,
    decodeAddress64_encode, hdrop]
  rfl

theorem decodeHeader_mwr64 :
    decodeHeader nt (encodeReqHead 0x60#8 head ++ (be64 b ++ rest)) = .ok (.mwr64 nt head b rest) := by
  have hb : byteAt (encodeReqHead 0x60#8 head ++ (be64 b ++ rest)) 0 = 0x60#8 := rfl
  have hdrop : (encodeReqHead 0x60#8 head ++ (be64 b ++ rest)).drop 16 = rest := rfl
  simp only [decodeHeader, hb, if_neg (header64_length 0x60#8 head b rest), decodeReqHead_encode,
    decodeAddress64_encode, hdrop]
  rfl

theorem decodeHeader_cpld : decodeHeader nt (encodeCplHdr 0x4A#8 hdr ++ rest) = .ok (.cpld nt hdr rest) :=
  congrArg (fun x => Except.ok (Instr.cpld nt x rest)) (decodeCplHdr_encode ..)

theorem decodeHeader_cpl : decodeHeader nt (encodeCplHdr 0x0A#8 hdr ++ rest) = .ok (.cpl nt hdr rest) :=
  congrArg (fun x => Except.ok (Instr.cpl nt x rest)) (decodeCplHdr_encode ..)

/-- A datagram below 18 bytes is its transport header and what follows it. -/
theorem decodeDatagram_nettlp (h : rest.length < 12) :
    decodeDatagram (encodeNettlp nt ++ rest) = .ok (.nettlp nt rest) := by
  have hdrop : (encodeNettlp nt ++ rest).drop 6 = rest := List.drop_left' (encodeNettlp_length nt)
  have hlen6 : ¬ (encodeNettlp nt ++ rest).length < 6 := by simp
  have hlen18 : (encodeNettlp nt ++ rest).length < 18 := by simp; omega
  rw [decodeDatagram, if_neg hlen6, if_pos hlen18, hdrop, decodeNettlp_encode]

end

theorem decodeDatagram_encode (i : Instr) (h : i.port = .rx) (hwf : i.wellFormed = true) :
    decodeDatagram (encode i) = .ok i := by
  cases i
  case nettlp nt rest => exact decodeDatagram_nettlp nt rest (of_decide_eq_true hwf)
  case cpld nt hdr rest =>
    rw [encode, List.append_assoc, decodeDatagram_append nt (by simp), decodeHeader_cpld]
  case cpl nt hdr rest =>
    rw [encode, List.append_assoc, decodeDatagram_append nt (by simp), decodeHeader_cpl]
  case mrd32 nt head a rest =>
    rw [encode, List.append_assoc, List.append_assoc, decodeDatagram_append nt (by simp; omega), decodeHeader_mrd32]
  case mrd64 nt head a rest =>
    rw [encode, List.append_assoc, List.append_assoc, decodeDatagram_append nt (by simp; omega), decodeHeader_mrd64]
  case mwr32 nt head a rest =>
    rw [encode, List.append_assoc, List.append_assoc, decodeDatagram_append nt (by simp; omega), decodeHeader_mwr32]
  case mwr64 nt head a rest =>
    rw [encode, List.append_assoc, List.append_assoc, decodeDatagram_append nt (by simp; omega), decodeHeader_mwr64]
  all_goals cases h

/-- Settles O5: on the command port the operands are read back where the encoder put them; on the RX port the
fields of each header are (`decodeReqHead_encode`, `decodeCplHdr_encode`). -/
theorem decodeEncode : Obligations.DecodeEncode := by
  intro i hwf
  cases hport : i.port with
  | command => exact decodeCommand_encode i hport
  | rx => exact decodeDatagram_encode i hport hwf

/-! ### Encoding a decoded instruction

What the decoder accepts is the encoding of some well-formed instruction; by `decodeEncode` it is the one the
decoder answers. -/

theorem withExactly_ok {op : Byte} {a : Bytes} {i j : Instr} (h : withExactly op a i = .ok j) :
    a.length = operandBytes op := by
  unfold withExactly at h
  split at h
  · assumption
  · cases h

theorem exists_be16 {d : Bytes} (h : 2 ≤ d.length) : ∃ v rest, d = be16 v ++ rest := by
  refine ⟨byteAt d 0 ++ byteAt d 1, d.drop 2, ?_⟩
  rw [be16_append]
  exact (List.take_append_drop 2 d).symm.trans (congrArg (· ++ d.drop 2) (take_eq_map_byteAt h))

/-- Operand bytes that are two 64-bit operands, and below three and four of them. -/
theorem exists_operands2 {d : Bytes} (h : d.length = 16) : ∃ v w, d = be64 v ++ be64 w := by
  obtain ⟨v, d, rfl⟩ := exists_be64 (d := d) (by omega)
  obtain ⟨w, d, rfl⟩ := exists_be64 (d := d) (by simp at h; omega)
  obtain rfl : d = [] := List.length_eq_zero_iff.1 (by simp at h; omega)
  exact ⟨v, w, by simp⟩

theorem exists_operands3 {d : Bytes} (h : d.length = 24) : ∃ u v w, d = be64 u ++ be64 v ++ be64 w := by
  obtain ⟨u, d, rfl⟩ := exists_be64 (d := d) (by omega)
  obtain ⟨v, w, rfl⟩ := exists_operands2 (d := d) (by simp at h; omega)
  exact ⟨u, v, w, by simp⟩

theorem exists_operands4 {d : Bytes} (h : d.length = 32) : ∃ t u v w, d = be64 t ++ be64 u ++ be64 v ++ be64 w := by
  obtain ⟨t, d, rfl⟩ := exists_be64 (d := d) (by omega)
  obtain ⟨u, v, w, rfl⟩ := exists_operands3 (d := d) (by simp at h; omega)
  exact ⟨t, u, v, w, by simp⟩

/-- The operand bytes of ENC_MRD and ENC_MWR. -/
theorem exists_requestOperands {d : Bytes} (h : d.length = 19) :
    ∃ reqid tag addr count, d = be16 reqid ++ [tag] ++ be64 addr ++ be64 count := by
  obtain ⟨reqid, d, rfl⟩ := exists_be16 (d := d) (by omega)
  cases d with
  | nil => simp at h
  | cons tag d =>
    obtain ⟨addr, count, rfl⟩ := exists_operands2 (d := d) (by simp at h; omega)
    exact ⟨reqid, tag, addr, count, by simp⟩

/-- The byte string is the encoding of a well-formed instruction of the port. -/
def IsEncoding (port : Port) (bytes : Bytes) : Prop :=
  ∃ i : Instr, encode i = bytes ∧ i.port = port ∧ i.wellFormed = true

theorem isEncoding_of_decodeCommand {image : Bytes} {i : Instr} (h : decodeCommand image = .ok i) :
    IsEncoding .command image := by
  cases image with
  | nil => cases h
  | cons op a =>
    replace h : decodeOperands op a = .ok i := h
    unfold decodeOperands at h
    have hop {n : Nat} (hn : op.toNat = n) : op = BitVec.ofNat 8 n := by
      rw [← hn, BitVec.ofNat_toNat, BitVec.setWidth_eq]
    split at h
    case h_21 => cases h
    case h_1 hn =>
      obtain rfl := hop hn
      obtain ⟨u, v, w, rfl⟩ := exists_operands3 (withExactly_ok h)
      exact ⟨.reqidPack u v w, rfl, rfl, rfl⟩
    case h_2 hn =>
      obtain rfl := hop hn
      obtain ⟨v, w, rfl⟩ := exists_operands2 (withExactly_ok h)
      exact ⟨.calcLength v w, rfl, rfl, rfl⟩
    case h_3 hn =>
      obtain rfl := hop hn
      obtain ⟨v, w, rfl⟩ := exists_operands2 (withExactly_ok h)
      exact ⟨.calcFirstbe v w, rfl, rfl, rfl⟩
    case h_4 hn =>
      obtain rfl := hop hn
      obtain ⟨v, w, rfl⟩ := exists_operands2 (withExactly_ok h)
      exact ⟨.calcLastbe v w, rfl, rfl, rfl⟩
    case h_5 hn =>
      obtain rfl := hop hn
      obtain ⟨u, v, w, rfl⟩ := exists_operands3 (withExactly_ok h)
      exact ⟨.chunkLen u v w, rfl, rfl, rfl⟩
    case h_6 hn =>
      obtain rfl := hop hn
      split at h
      case isFalse => cases h
      case isTrue hdir =>
        obtain ⟨x, tag, rfl⟩ := List.length_eq_two.1 (withExactly_ok h)
        obtain ⟨dir, rfl⟩ := exists_direction hdir
        exact ⟨.portSel dir tag, rfl, rfl, rfl⟩
    case h_7 hn =>
      obtain rfl := hop hn
      obtain rfl : a = [] := List.length_eq_zero_iff.1 (withExactly_ok h)
      exact ⟨.encNettlp, rfl, rfl, rfl⟩
    case h_8 hn =>
      obtain rfl := hop hn
      obtain ⟨reqid, tag, addr, count, rfl⟩ := exists_requestOperands (withExactly_ok h)
      exact ⟨.encMrd reqid tag addr count, rfl, rfl, rfl⟩
    case h_9 hn =>
      obtain rfl := hop hn
      obtain ⟨reqid, tag, addr, count, rfl⟩ := exists_requestOperands (withExactly_ok h)
      exact ⟨.encMwr reqid tag addr count, rfl, rfl, rfl⟩
    case h_10 hn =>
      obtain rfl := hop hn
      exact ⟨.decCpl a, rfl, rfl, rfl⟩
    case h_11 hn =>
      obtain rfl := hop hn
      exact ⟨.cplLength a, rfl, rfl, rfl⟩
    case h_12 hn =>
      obtain rfl := hop hn
      exact ⟨.cplCount a, rfl, rfl, rfl⟩
    case h_13 hn =>
      obtain rfl := hop hn
      exact ⟨.cplIsLast a, rfl, rfl, rfl⟩
    case h_14 hn =>
      obtain rfl := hop hn
      split at h
      case isTrue => cases h
      case isFalse hlen =>
        obtain ⟨dgramLen, a, rfl⟩ := exists_be64 (d := a) (by omega)
        obtain ⟨space, buf, rfl⟩ := exists_be64 (d := a) (by simp at hlen; omega)
        exact ⟨.cplSpan buf dgramLen space, by simp [encode], rfl, rfl⟩
    case h_15 hn =>
      obtain rfl := hop hn
      exact ⟨.decReq a, rfl, rfl, rfl⟩
    case h_16 hn =>
      obtain rfl := hop hn
      exact ⟨.reqSpan a, rfl, rfl, rfl⟩
    case h_17 hn =>
      obtain rfl := hop hn
      obtain ⟨t, u, v, w, rfl⟩ := exists_operands4 (withExactly_ok h)
      exact ⟨.openSession t u v w, rfl, rfl, rfl⟩
    case h_18 hn =>
      obtain rfl := hop hn
      obtain rfl : a = [] := List.length_eq_zero_iff.1 (withExactly_ok h)
      exact ⟨.closeSession, rfl, rfl, rfl⟩
    case h_19 hn =>
      obtain rfl := hop hn
      obtain ⟨v, w, rfl⟩ := exists_operands2 (withExactly_ok h)
      exact ⟨.dmaRead v w, rfl, rfl, rfl⟩
    case h_20 hn =>
      obtain rfl := hop hn
      obtain ⟨v, w, rfl⟩ := exists_operands2 (withExactly_ok h)
      exact ⟨.dmaWrite v w, rfl, rfl, rfl⟩

theorem isEncoding_of_decodeHeader {nt : NettlpHdr} {h : Bytes} {i : Instr} (hlen : 12 ≤ h.length)
    (hi : decodeHeader nt h = .ok i) : IsEncoding .rx (encodeNettlp nt ++ h) := by
  have hb {n : Nat} (hn : (byteAt h 0).toNat = n) : byteAt h 0 = BitVec.ofNat 8 n := by
    rw [← hn, BitVec.ofNat_toNat, BitVec.setWidth_eq]
  have hcpl := eq_encodeCplHdr_append hlen
  have hreq := eq_encodeReqHead_append (d := h) (by omega)
  unfold decodeHeader at hi
  split at hi
  case h_7 => cases hi
  case h_1 hn =>
    rw [hb hn] at hcpl
    exact ⟨.cpld nt (decodeCplHdr h) (h.drop 12), by rw [encode, List.append_assoc, ← hcpl], rfl, rfl⟩
  case h_2 hn =>
    rw [hb hn] at hcpl
    exact ⟨.cpl nt (decodeCplHdr h) (h.drop 12), by rw [encode, List.append_assoc, ← hcpl], rfl, rfl⟩
  case h_3 hn =>
    obtain ⟨a, rest, ha⟩ := exists_be32 (d := h.drop 8) (by simp; omega)
    rw [hb hn, ha] at hreq
    exact ⟨.mrd32 nt (decodeReqHead h) a rest, by rw [encode, List.append_assoc, List.append_assoc, ← hreq], rfl, rfl⟩
  case h_4 hn =>
    obtain ⟨a, rest, ha⟩ := exists_be32 (d := h.drop 8) (by simp; omega)
    rw [hb hn, ha] at hreq
    exact ⟨.mwr32 nt (decodeReqHead h) a rest, by rw [encode, List.append_assoc, List.append_assoc, ← hreq], rfl, rfl⟩
  case h_5 hn =>
    split at hi
    case isTrue => cases hi
    case isFalse hwhole =>
      obtain ⟨a, rest, ha⟩ := exists_be64 (d := h.drop 8) (by simp; omega)
      rw [hb hn, ha] at hreq
      exact ⟨.mrd64 nt (decodeReqHead h) a rest, by rw [encode, List.append_assoc, List.append_assoc, ← hreq], rfl, rfl⟩
  case h_6 hn =>
    split at hi
    case isTrue => cases hi
    case isFalse hwhole =>
      obtain ⟨a, rest, ha⟩ := exists_be64 (d := h.drop 8) (by simp; omega)
      rw [hb hn, ha] at hreq
      exact ⟨.mwr64 nt (decodeReqHead h) a rest, by rw [encode, List.append_assoc, List.append_assoc, ← hreq], rfl, rfl⟩

theorem exists_encodeNettlp {d : Bytes} (h : 6 ≤ d.length) : ∃ nt rest, d = encodeNettlp nt ++ rest := by
  obtain ⟨seq, d, rfl⟩ := exists_be16 (d := d) (by omega)
  obtain ⟨timestamp, d, rfl⟩ := exists_be32 (d := d) (by simp at h; omega)
  exact ⟨⟨seq, timestamp⟩, d, by rw [encodeNettlp, List.append_assoc]⟩

theorem isEncoding_of_decodeDatagram {d : Bytes} {i : Instr} (hi : decodeDatagram d = .ok i) : IsEncoding .rx d := by
  by_cases hshort : d.length < 6
  · rw [decodeDatagram, if_pos hshort] at hi
    cases hi
  obtain ⟨nt, h, rfl⟩ := exists_encodeNettlp (Nat.le_of_not_lt hshort)
  by_cases hlen : h.length < 12
  · exact ⟨.nettlp nt h, rfl, rfl, decide_eq_true hlen⟩
  · rw [decodeDatagram_append _ (by omega)] at hi
    exact isEncoding_of_decodeHeader (by omega) hi

/-- Settles O6: the accepted bytes are the encoding of an instruction of the port, and decoding them gives that
instruction back (`decodeEncode`). -/
theorem encodeDecode : Obligations.EncodeDecode := by
  intro port bytes i hi
  have henc : IsEncoding port bytes := by
    cases port with
    | command => exact isEncoding_of_decodeCommand hi
    | rx => exact isEncoding_of_decodeDatagram hi
  obtain ⟨j, rfl, rfl, hwf⟩ := henc
  rw [decodeEncode j hwf] at hi
  cases hi
  exact ⟨rfl, rfl, hwf⟩

/-- Settles O4: the decoder evaluated on the written-out bytes. -/
theorem wordsDecode : Obligations.WordsDecode :=
  ⟨by decide, by decide, by decide, by decide, by decide⟩

end Sys2Proof.Machine
end

section
/-! PROOFS. Reset (10_state.md R28, 70_reset_and_hazards.md R142) and the numbers of 60_exceptions.md R124. -/

namespace Sys2Proof.Machine

/-- Settles O1: each register is a field of `State.resetSized`, and a byte that nothing has written is a free byte. -/
theorem resetRegisters : Obligations.ResetRegisters :=
  ⟨rfl, fun _ _ => ⟨rfl, rfl, rfl, rfl, rfl, rfl, rfl, rfl, rfl, rfl, rfl, rfl, rfl, fun _ => rfl, fun _ => rfl, rfl⟩⟩

/-- A closed session with its reset values is a legal one. -/
theorem sessionInv_reset : SessionInv Session.reset := ⟨fun _ => rfl, fun h => nomatch h⟩

theorem inv_resetSized (dstSize srcSize : Nat) : State.Inv (State.resetSized dstSize srcSize) :=
  ⟨sessionInv_reset, fun h => (nomatch h), Nat.le_refl 0, Nat.zero_le _, buffer_empty_wf .., buffer_empty_wf ..⟩

/-- Settles O2: after reset the session is closed, no read is in progress and nothing has been written. -/
theorem resetSatisfiesInvariant : Obligations.ResetSatisfiesInvariant :=
  ⟨inv_resetSized 4096 4096, inv_resetSized⟩

/-- The reset input comes before all else. -/
theorem step_of_resetPin {s : State} (h : s.ports.resetPin = true) : step s = .next (resetStep s) := by
  simp [step, fetch, h]

/-- Settles O3: the step is `resetStep`, which leaves no byte written. -/
theorem resetStepClears : Obligations.ResetStepClears := by
  intro s h
  exact ⟨resetStep s, step_of_resetPin h, rfl, rfl, rfl, rfl, fun _ => rfl, fun _ => rfl, rfl, rfl⟩

/-- Settles O10: the codes of R124's tables, by evaluation. -/
theorem statusAndCauseCodes : Obligations.StatusAndCauseCodes :=
  ⟨fun _ => rfl, rfl, rfl, fun _ => ⟨rfl, rfl⟩⟩

end Sys2Proof.Machine
end

section
/-! PROOFS. Which input a step takes and which port an instruction needs: the commands held in RD_RECV
(44_dma_session.md R110), the events held in IDLE (45_completion_reassembly.md R121), and the sixteen commands that
answer and do nothing else (10_state.md R13). -/

namespace Sys2Proof.Machine

/-! ### The meaning of a wire form -/

/-- A wire form is its datagram received (log 1). -/
theorem exec_wireForm {i : Instr} (h : i.port = .rx) (s : State) :
    exec i s = onReceive s (rxDatagram (encode i) s) := by
  cases i
  case mrd32 | mrd64 | mwr32 | mwr64 | cpld | cpl | nettlp => rfl
  all_goals cases h

/-- In RD_RECV the transport's datagram is received by R114, whether it is a wire form or not. -/
theorem rxStep_datagram {s : State} (hs : s.seq.state = .rdRecv) (d : Bytes) :
    rxStep (.datagram d) s = rxDatagram d s := by
  cases hd : decodeDatagram d with
  | error e => simp only [rxStep, hd, rxUnclassified, onReceive_rdRecv hs]
  | ok i =>
    obtain ⟨henc, hport, -⟩ := encodeDecode .rx d i hd
    simp only [rxStep, hd, exec_wireForm hport, henc, onReceive_rdRecv hs]

theorem hostStep_command_ok {image : Bytes} {i : Instr} (h : decodeCommand image = .ok i) (s : State) :
    hostStep (.command image) s = exec i s := by
  simp [hostStep, h]

/-- Settles O7: the step takes the input and decodes it. -/
theorem stepRunsDecodedInstruction : Obligations.StepRunsDecodedInstruction := by
  constructor
  · intro s image rest i hpin hs hhost hi
    rw [step_of_hostAct hpin hs hhost, hostStep_command_ok hi]
  · intro s d rest i hpin hs hrx hi
    rw [step_of_event hpin hs hrx]
    simp [rxStep, hi]

/-- Settles O8: a wire form's meaning is the reassembly of its encoding, which is the datagram itself
(`encodeDecode`). -/
theorem stepOnDatagramIsReassembly : Obligations.StepOnDatagramIsReassembly := by
  intro s d rest hpin hs hrx
  rw [step_of_event hpin hs hrx]
  exact rxStep_datagram (s := { s with ports.rx := rest }) hs d

/-! ### Held inputs -/

/-- In RD_RECV a command is held. -/
theorem exec_command_rdRecv {i : Instr} {s : State} (h : i.port = .command) (hs : s.seq.state = .rdRecv) :
    exec i s = .next s := by
  cases i
  case mrd32 | mrd64 | mwr32 | mwr64 | cpld | cpl | nettlp => cases h
  all_goals exact onCommand_rdRecv hs _

/-- Settles O11. -/
theorem commandsHeldDuringRead : Obligations.CommandsHeldDuringRead :=
  fun _ _ h hs => exec_command_rdRecv h hs

/-- In IDLE a wire form stays with the transport. -/
theorem exec_wireForm_idle {i : Instr} {s : State} (h : i.port = .rx) (hs : s.seq.state = .idle) :
    exec i s = .next s := by
  rw [exec_wireForm h, onReceive_idle hs]

/-! ### The pure commands -/

/-- In IDLE the instruction answers one response, the same in every state, and does nothing else. -/
def IsPure (i : Instr) : Prop := ∃ r : Response, ∀ s : State, s.seq.state = .idle → Answers (exec i s) s r

/-- An instruction whose meaning is the answer of its operands is pure. -/
theorem isPure_of_answer {i : Instr} (a : Except Err Result) (h : ∀ s, exec i s = onCommand s (answer a s)) :
    IsPure i := by
  cases a with
  | ok r =>
    refine ⟨.ok r, fun s hs => ?_⟩
    rw [h s]
    exact answers_ok hs r
  | error e =>
    refine ⟨.error e, fun s hs => ?_⟩
    rw [h s]
    exact onCommand_idle hs _

/-- A command is pure, or one of the four of the session. -/
theorem command_cases {i : Instr} (h : i.port = .command) :
    IsPure i ∨ (∃ reqid tag mrrs dir, i = .openSession reqid tag mrrs dir) ∨ i = .closeSession ∨
      (∃ addr len, i = .dmaRead addr len) ∨ (∃ addr len, i = .dmaWrite addr len) := by
  cases i
  case mrd32 | mrd64 | mwr32 | mwr64 | cpld | cpl | nettlp => cases h
  case openSession reqid tag mrrs dir => exact .inr (.inl ⟨reqid, tag, mrrs, dir, rfl⟩)
  case closeSession => exact .inr (.inr (.inl rfl))
  case dmaRead addr len => exact .inr (.inr (.inr (.inl ⟨addr, len, rfl⟩)))
  case dmaWrite addr len => exact .inr (.inr (.inr (.inr ⟨addr, len, rfl⟩)))
  all_goals exact .inl (isPure_of_answer _ fun s => rfl)

/-- Settles O33: the four commands of the session have op bytes above 0x29. -/
theorem pureCommandsTouchNothing : Obligations.PureCommandsTouchNothing := by
  intro i hport hop
  obtain hpure | ⟨reqid, tag, mrrs, dir, rfl⟩ | rfl | ⟨addr, len, rfl⟩ | ⟨addr, len, rfl⟩ := command_cases hport
  · exact hpure
  all_goals exact absurd hop (by simp [encode])

end Sys2Proof.Machine
end

section
/-! PROOFS. The coverage law of 40_byte_enable_alignment.md (R76), the laws of CHUNK_LEN (43_chunking.md R101), and
the round trip of a request header (42_header_decoder.md R98). -/

namespace Sys2Proof.Machine

/-! ### The byte enables (R76) -/

/-- The first nibble enables the bytes of the transfer that lie in the first DW. -/
theorem enabled_first_iff (addr count x : Nat) :
    (∃ i, i < 4 ∧ (firstbe addr count).getLsbD i = true ∧ x = addr - addr % 4 + i) ↔
      x < addr - addr % 4 + 4 ∧ addr ≤ x ∧ x < addr + count := by
  constructor
  · rintro ⟨i, hi, hbit, rfl⟩
    rw [firstbe_bit addr count i hi, decide_eq_true_eq] at hbit
    omega
  · intro hx
    refine ⟨x - (addr - addr % 4), by omega, ?_, by omega⟩
    rw [firstbe_bit addr count _ (by omega), decide_eq_true_eq]
    omega

/-- The last nibble enables the bytes of the transfer that lie in the last DW, when that is not the first. -/
theorem enabled_last_iff {addr count : Nat} (x : Nat) (h : 2 ≤ dwCount addr count) :
    (∃ i, i < 4 ∧ (lastbe addr count).getLsbD i = true ∧ x = addr - addr % 4 + 4 * (dwCount addr count - 1) + i) ↔
      addr - addr % 4 + 4 * (dwCount addr count - 1) ≤ x ∧ x < addr + count := by
  have hbit := lastbe_bit addr count
  constructor
  · rintro ⟨i, hi, hi', rfl⟩
    rw [hbit i hi, decide_eq_true_eq] at hi'
    simp only [dwCount] at *
    omega
  · intro hx
    have hi : x - (addr - addr % 4 + 4 * (dwCount addr count - 1)) < 4 := by
      simp only [dwCount] at *
      omega
    refine ⟨_, hi, ?_, by omega⟩
    rw [hbit _ hi, decide_eq_true_eq]
    simp only [dwCount] at *
    omega

/-- R76: first DW, whole DWs and last DW together are the transfer. -/
theorem enabled_iff (addr count x : Nat) :
    Enabled (addr - addr % 4) (dwCount addr count) (firstbe addr count) (lastbe addr count) x ↔
      addr ≤ x ∧ x < addr + count := by
  rw [Enabled, enabled_first_iff]
  by_cases h : 2 ≤ dwCount addr count
  · simp only [h, true_and, enabled_last_iff x h]
    simp only [dwCount] at *
    omega
  · simp only [h, false_and, or_false]
    simp only [dwCount] at *
    omega

/-- Settles O18: the three commands answer the length and the nibbles of `enabled_iff`. -/
theorem byteEnablesCoverExactly : Obligations.ByteEnablesCoverExactly := by
  intro addr count s hs h
  rw [exec_calcLength, execCalcLength, calcLength_ok h, exec_calcFirstbe, execCalcFirstbe, exec_calcLastbe,
    execCalcLastbe, calcLastbe_ok h]
  refine ⟨_, _, _, answers_ok hs _, answers_ok hs _, answers_ok hs _, fun x => ?_⟩
  rw [calcLength_len_toNat h]
  exact enabled_iff addr.toNat count.toNat x

/-! ### The chunk rule (R101) -/

theorem chunkLength_le_mrrs (addr remaining mrrs : Nat) : chunkLength addr remaining mrrs ≤ mrrs :=
  (Nat.min_le_right ..).trans (Nat.min_le_left ..)

/-- The chunk R100 gives is a request R38 allows. -/
theorem chunkLength_legal {p remaining mrrs : Nat} (hr : 1 ≤ remaining) (hm : 1 ≤ mrrs) (hp : p < 2 ^ 64) :
    LegalRequest mrrs p (chunkLength p remaining mrrs) := by
  have hpos := chunkLength_pos (addr := p) hr hm
  have hpage := chunkLength_le_pageRest p remaining mrrs
  exact ⟨hpos, chunkLength_le_mrrs .., by omega, add_chunkLength_le_top remaining mrrs hp⟩

/-- No longer request is legal: it would pass one of the three bounds. -/
theorem le_chunkLength {p remaining mrrs m : Nat} (hr : m ≤ remaining) (hm : m ≤ mrrs)
    (hpage : p / 4096 = (p + m - 1) / 4096) : m ≤ chunkLength p remaining mrrs := by
  have hrest : m ≤ 4096 - p % 4096 := by omega
  exact Nat.le_min.2 ⟨hr, Nat.le_min.2 ⟨hm, hrest⟩⟩

/-- A page holds 1024 DWs. -/
theorem dwCount_chunkLength_le (p remaining mrrs : Nat) : dwCount p (chunkLength p remaining mrrs) ≤ 1024 := by
  have hpage := chunkLength_le_pageRest p remaining mrrs
  rw [dwCount]
  omega

/-- Settles O20: legality is `chunkLength_legal`, maximality `le_chunkLength`. -/
theorem chunkLenIsLongestLegal : Obligations.ChunkLenIsLongestLegal := by
  intro addr remaining mrrs s hs hr hm
  rw [exec_chunkLen, execChunkLen]
  refine ⟨_, answers_ok hs _, ?_⟩
  rw [chunkLength_ofNat_toNat]
  exact ⟨chunkLength_le_remaining .., chunkLength_legal hr hm addr.isLt,
    fun m hmr _ hmm hpage => le_chunkLength hmr hmm hpage, dwCount_chunkLength_le ..⟩

/-! ### The round trip of a request header (R98) -/

/-- The fields of the header of a request, bytes 1 to 7. -/
def requestHead (reqid : BitVec 16) (tag : BitVec 8) (addr count : Nat) : ReqHead :=
  { tc := 0#8, flags := 0#6, length := BitVec.ofNat 10 (dwCount addr count), reqid := reqid, tag := tag,
    lastbe := lastbe addr count, firstbe := firstbe addr count }

/-- The header `enc_req` builds, as byte 0, the seven fields and the address. -/
theorem requestHeader_eq_fields (write : Bool) (reqid : BitVec 16) (tag : BitVec 8) (addr count : Nat) :
    requestHeader write reqid tag addr count =
      if addr ≤ 0xFFFFFFFF then
        encodeReqHead (if write then 0x40#8 else 0x00#8) (requestHead reqid tag addr count) ++
          (be32 (BitVec.ofNat 32 (addr - addr % 4)) ++ [])
      else
        encodeReqHead (if write then 0x60#8 else 0x20#8) (requestHead reqid tag addr count) ++
          (be64 (BitVec.ofNat 64 (addr - addr % 4)) ++ []) := by
  rw [requestHeader_eq_drop]
  by_cases h : addr ≤ 0xFFFFFFFF <;> cases write <;> simp only [requestForm, h, decide_true, decide_false] <;> rfl

/-- R96 of a header with a 32-bit address. -/
theorem decReqFields_32 {b : Byte} (hb : b = 0x00#8 ∨ b = 0x40#8) (h : ReqHead) (v : BitVec 32) (rest : Bytes) :
    decReqFields (encodeReqHead b h ++ (be32 v ++ rest)) = .ok (requestFields b h (v.setWidth 64)) := by
  have h0 : byteAt (encodeReqHead b h ++ (be32 v ++ rest)) 0 = b := rfl
  have hlen : ¬ (encodeReqHead b h ++ (be32 v ++ rest)).length < 12 := by simp; omega
  rw [← reqFieldsOf_32 hb h v rest, decReqFields, if_neg hlen, h0]
  rcases hb with rfl | rfl <;> rfl

/-- R96 of a header with a 64-bit address. -/
theorem decReqFields_64 {b : Byte} (hb : b = 0x20#8 ∨ b = 0x60#8) (h : ReqHead) (v : BitVec 64) (rest : Bytes) :
    decReqFields (encodeReqHead b h ++ (be64 v ++ rest)) = .ok (requestFields b h v) := by
  have h0 : byteAt (encodeReqHead b h ++ (be64 v ++ rest)) 0 = b := rfl
  have hlen : ¬ (encodeReqHead b h ++ (be64 v ++ rest)).length < 12 := by simp; omega
  have hwhole := header64_length b h v rest
  rw [← reqFieldsOf_64 hb h v rest, decReqFields, if_neg hlen, h0]
  rcases hb with rfl | rfl <;> simp only [hwhole, and_false, if_false] <;> rfl

/-- `DEC_REQ` of the header of a request finds its fields and its DW-aligned address (R96). -/
theorem decReqFields_requestHeader (write : Bool) (reqid : BitVec 16) (tag : BitVec 8) {addr : Nat} (count : Nat)
    (haddr : addr < 2 ^ 64) :
    ∃ (b : Byte) (a : BitVec 64),
      decReqFields (requestHeader write reqid tag addr count) =
        .ok (requestFields b (requestHead reqid tag addr count) a) ∧
      (decide (b = 0x40#8) || decide (b = 0x60#8)) = write ∧
      (decide (b = 0x20#8) || decide (b = 0x60#8)) = decide (0xFFFFFFFF < addr) ∧ a.toNat = addr - addr % 4 := by
  rw [requestHeader_eq_fields]
  split
  case isTrue h =>
    have hbyte : (if write then 0x40#8 else 0x00#8) = 0x00#8 ∨ (if write then 0x40#8 else 0x00#8) = 0x40#8 := by
      cases write <;> decide
    refine ⟨_, _, decReqFields_32 hbyte _ _ _, by cases write <;> rfl, ?_, ?_⟩
    · rw [decide_eq_false (Nat.not_lt.2 h)]
      cases write <;> rfl
    · rw [BitVec.toNat_setWidth, BitVec.toNat_ofNat]
      omega
  case isFalse h =>
    have hbyte : (if write then 0x60#8 else 0x20#8) = 0x20#8 ∨ (if write then 0x60#8 else 0x20#8) = 0x60#8 := by
      cases write <;> decide
    refine ⟨_, _, decReqFields_64 hbyte _ _ _, by cases write <;> rfl, ?_, ?_⟩
    · rw [decide_eq_true (Nat.lt_of_not_le h)]
      cases write <;> rfl
    · rw [BitVec.toNat_ofNat]
      omega

/-- A request of no byte enables none, a request of some bytes enables its first. -/
theorem firstbe_eq_zero_iff (addr count : Nat) : firstbe addr count = 0#4 ↔ count = 0 := by
  constructor
  · intro h
    have hbit := firstbe_bit addr count (addr % 4) (by omega)
    rw [h, BitVec.getLsbD_zero, eq_comm, decide_eq_false_iff_not] at hbit
    omega
  · rintro rfl
    apply BitVec.eq_of_getLsbD_eq
    intro i hi
    rw [firstbe_bit addr 0 i hi, BitVec.getLsbD_zero, decide_eq_false_iff_not]
    omega

/-- The ten bits of the length field hold the DW length, 1024 as 0. -/
theorem headerDws_requestHead (reqid : BitVec 16) (tag : BitVec 8) {addr count : Nat} (hcount : 1 ≤ count)
    (hlen : dwCount addr count ≤ 1024) : headerDws (requestHead reqid tag addr count) = dwCount addr count := by
  have hpos : 1 ≤ dwCount addr count := by
    rw [dwCount]
    omega
  by_cases h : dwCount addr count = 1024
  · simp [headerDws, requestHead, h]
  · have hne : BitVec.ofNat 10 (dwCount addr count) ≠ 0#10 := by
      intro h0
      have := congrArg BitVec.toNat h0
      rw [BitVec.toNat_ofNat, Nat.mod_eq_of_lt (by omega), BitVec.toNat_ofNat] at this
      omega
    simp only [headerDws, requestHead, if_neg hne, BitVec.toNat_ofNat]
    omega

/-- A request inside one DW has no last nibble (R75). -/
theorem lastbe_eq_zero {addr count : Nat} (h : dwCount addr count ≤ 1) : lastbe addr count = 0#4 :=
  if_pos (dwLength_eq addr count ▸ h)

/-- The byte enables and the length of a request describe its bytes (R97). -/
theorem spanOf_requestHead (reqid : BitVec 16) (tag : BitVec 8) {addr count : Nat} (hlen : dwCount addr count ≤ 1024) :
    SpanOf (requestHead reqid tag addr count) (if count = 0 then 0 else addr % 4) count := by
  by_cases hcount : count = 0
  · subst hcount
    have hlast : lastbe addr 0 = 0#4 := lastbe_eq_zero (by rw [dwCount]; omega)
    exact (spanOf_empty _ _ _ ((firstbe_eq_zero_iff addr 0).2 rfl)).2 ⟨hlast, rfl, rfl⟩
  have hfirst : (requestHead reqid tag addr count).firstbe ≠ 0#4 := mt (firstbe_eq_zero_iff addr count).1 hcount
  have hdws := headerDws_requestHead reqid tag (Nat.one_le_iff_ne_zero.2 hcount) hlen
  rw [SpanOf, if_neg hfirst, if_neg hcount]
  change if headerDws _ = 1 then _ else _ < 4 ∧ ∃ k, 1 ≤ k ∧ k ≤ 4 ∧ _ = 4 * headerDws _ ∧ _
  rw [hdws]
  split
  case isTrue hone =>
    rw [dwCount] at hone
    exact ⟨by omega, by omega, lastbe_eq_zero (by rw [dwCount]; omega), firstbe_bit addr count⟩
  case isFalse hmany =>
    refine ⟨by omega, (addr + count - 1) % 4 + 1, by omega, by omega, ?_, fun i hi => ?_, fun i hi => ?_⟩
    · rw [dwCount]
      omega
    · refine (firstbe_bit addr count i hi).trans (decide_eq_decide.mpr ?_)
      rw [dwCount] at hmany
      omega
    · refine (lastbe_bit addr count i hi).trans (decide_eq_decide.mpr ?_)
      rw [dwCount] at hmany ⊢
      omega

/-- A step has one response. -/
theorem answers_unique {o : Outcome} {s : State} {r r' : Response} (h : Answers o s r) (h' : Answers o s r') :
    r = r' := by
  rw [Answers] at h h'
  rw [h, Host.Outcome.next.injEq] at h'
  have hlist : s.ports.responses ++ [r] = s.ports.responses ++ [r'] := congrArg (fun t : State => t.ports.responses) h'
  simpa using hlist

/-- A header is answered only when it fits, and then it is the one `enc_req` builds (R81). -/
theorem header_of_answers {write : Bool} {reqid : BitVec 16} {tag : BitVec 8} {addr count : Nat} {hdr : Bytes}
    {s : State}
    (hs : s.seq.state = .idle)
    (h : Answers (onCommand s (answer (encodedHeader write reqid tag addr count) s)) s (.ok (.hdr hdr))) :
    dwCount addr count ≤ 1024 ∧ hdr = requestHeader write reqid tag addr count := by
  by_cases hfit : Config.addressTop < addr + count
  · rw [encodedHeader_addrOverflow write reqid tag hfit] at h
    cases answers_unique h (answers_error hs ..)
  by_cases hlen : Config.maxDw < dwCount addr count
  · rw [encodedHeader_lengthOverflow write reqid tag hfit hlen] at h
    cases answers_unique h (answers_error hs ..)
  rw [encodedHeader_ok write reqid tag hfit hlen] at h
  cases answers_unique h (answers_ok hs _)
  exact ⟨Nat.le_of_not_lt hlen, rfl⟩

/-- Settles O32: what ENC_MRD and ENC_MWR answer is `requestHeader`, whose fields are `decReqFields_requestHeader`
and whose range is the one of `spanOf_requestHead`. -/
theorem requestHeaderRoundTrip : Obligations.RequestHeaderRoundTrip := by
  intro write reqid tag addr count hdr s hs hans
  have henc : exec (if write then .encMwr reqid tag addr count else .encMrd reqid tag addr count) s =
      onCommand s (answer (encodedHeader write reqid tag addr.toNat count.toNat) s) := by cases write <;> rfl
  rw [henc] at hans
  obtain ⟨hlen, rfl⟩ := header_of_answers hs hans
  obtain ⟨b, a, hfields, hwrite, h64, ha⟩ := decReqFields_requestHeader write reqid tag count.toNat addr.isLt
  have hspan := spanOf_requestHead reqid tag hlen
  obtain ⟨l, m, hl, hm, hall, hrange⟩ | ⟨hno, -⟩ :=
    requestRange_cases b (requestHead reqid tag addr.toNat count.toNat) a
  case inr => exact absurd hspan (hno _ _)
  obtain ⟨rfl, rfl⟩ := (hall _ _).1 hspan
  rw [exec_decReq, execDecReq, decReqAnswer, exec_reqSpan, execReqSpan, reqSpanAnswer, hfields]
  dsimp only
  rw [hrange]
  refine ⟨_, _, _, answers_ok hs _, answers_ok hs _, hwrite, h64, rfl, rfl, rfl, rfl, ha, ?_, ?_, ?_⟩
  · exact BitVec.toNat_ofNat ..
  · rw [BitVec.toNat_ofNat]
    omega
  · have hlt := addr.isLt
    have hzero : count = 0#64 ↔ count.toNat = 0 := BitVec.toNat_inj.symm
    simp only [hzero, ha, BitVec.toNat_ofNat]
    split <;> omega

end Sys2Proof.Machine
end

section
/-! PROOFS. The commands of the session, 44_dma_session.md: OPEN, CLOSE, the command step of DMA_READ, the refusals of
DMA_WRITE. -/

namespace Sys2Proof.Machine

/-! ### What the four commands do in IDLE -/

theorem exec_openSession_idle (reqid tag mrrs dir : BitVec 64) {s : State} (hs : s.seq.state = .idle) :
    exec (.openSession reqid tag mrrs dir) s =
      if s.sess.isOpen then .next (raise (badState s) s)
      else
        match openOperandError reqid.toNat tag.toNat mrrs.toNat dir.toNat with
        | some e => .next (raise e s)
        | none => openPort (sessionOf reqid tag mrrs dir) s := onCommand_idle hs _

theorem exec_closeSession_idle {s : State} (hs : s.seq.state = .idle) :
    exec .closeSession s =
      if s.sess.isOpen then .next (respond (.ok .done) { record .closed s with sess := .reset })
      else .next (raise (badState s) s) := onCommand_idle hs _

/-- `s` with the registers of a read that starts (R106). -/
def withRead (addr len : BitVec 64) (s : State) : State :=
  { s with seq.p := addr, seq.len := len, seq.received := 0#64 }

theorem exec_dmaRead_idle (addr len : BitVec 64) {s : State} (hs : s.seq.state = .idle) :
    exec (.dmaRead addr len) s =
      if s.sess.isOpen = false then .next (raise (badState s) s)
      else if len = 0#64 then .next (respond (.ok .done) s)
      else if 2 ^ 64 < addr.toNat + len.toNat then .next (raise (addrOverflow addr.toNat len.toNat) s)
      else if s.dst.size < len.toNat then .next (raise (mkErr .range .bufferTooSmall len.toNat s.dst.size) s)
      else sendReadRequest (withRead addr len s) := onCommand_idle hs _

theorem exec_dmaWrite_idle (addr len : BitVec 64) {s : State} (hs : s.seq.state = .idle) :
    exec (.dmaWrite addr len) s =
      if s.sess.isOpen = false then .next (raise (badState s) s)
      else if addr.toNat % 4 ≠ 0 ∨ len.toNat % 4 ≠ 0 then
        .next (raise (mkErr .precondition .badAlignment addr.toNat len.toNat) s)
      else if s.sess.mrrs.toNat % 4 ≠ 0 then .next (raise (mkErr .precondition .badOperand 2 s.sess.mrrs.toNat) s)
      else if 2 ^ 64 < addr.toNat + len.toNat then .next (raise (addrOverflow addr.toNat len.toNat) s)
      else if s.src.size < len.toNat then .next (raise (mkErr .range .bufferTooSmall len.toNat s.src.size) s)
      else writeLoop len.toNat addr.toNat 0 len.toNat s := onCommand_idle hs _

/-- `BadState` reports whether a session is open (R132). -/
theorem badState_of_open {s : State} (h : s.sess.isOpen = true) : badState s = mkErr .state .badState 1 0 := by
  simp [badState, Session.openBit, h]

theorem badState_of_closed {s : State} (h : s.sess.isOpen = false) : badState s = mkErr .state .badState 0 0 := by
  simp [badState, Session.openBit, h]

/-- A raised error changes nothing but the response port. -/
theorem answers_raise (kind : ErrKind) (cause : Cause) (raw0 raw1 : Nat) (s : State) :
    Answers (.next (raise (mkErr kind cause raw0 raw1) s)) s (errorResponse kind cause raw0 raw1) := rfl

/-! ### OPEN and CLOSE -/

/-- A direction operand in range is its low bit (R18, R104). -/
theorem directionOf_setWidth {dir : BitVec 64} (h : ¬ 1 < dir.toNat) :
    directionOf (dir.setWidth 1) = if dir = 0#64 then .issuedByCore else .issuedByAdapter := by
  have hdir : dir.toNat = 0 ∨ dir.toNat = 1 := by omega
  rcases hdir with h | h
  · obtain rfl : dir = 0#64 := BitVec.eq_of_toNat_eq h
    rfl
  · obtain rfl : dir = 1#64 := BitVec.eq_of_toNat_eq h
    rfl

/-- A tag operand in range fits the register (R16, R104). -/
theorem tag_setWidth_toNat {tag : BitVec 64} (h : ¬ 0xFF < tag.toNat) : (tag.setWidth 8).toNat = tag.toNat := by
  rw [BitVec.toNat_setWidth, Nat.mod_eq_of_lt (by omega)]

/-- The port of the session that OPEN creates (R103). -/
theorem portNumber_sessionOf {reqid tag mrrs dir : BitVec 64} (htag : ¬ 0xFF < tag.toNat) (hdir : ¬ 1 < dir.toNat) :
    portNumber (sessionOf reqid tag mrrs dir).dir (sessionOf reqid tag mrrs dir).tag.toNat =
      if dir = 0#64 then 0x3000 + tag.toNat else 0x4000 + tag.toNat % 16 := by
  rw [sessionOf, directionOf_setWidth hdir, tag_setWidth_toNat htag]
  split <;> rfl

/-- OPEN with operands in range asks the transport for the port and goes by its answer (R104). -/
theorem openPort_eq (q : Session) (s : State) :
    openPort q s =
      match s.nextAnswer with
      | .ioError =>
        .next (raise (mkErr .io .none 0 (portNumber q.dir q.tag.toNat))
          (record (.opened (portNumber q.dir q.tag.toNat) s.nextAnswer) s.answerUsed))
      | .ok =>
        .next (respond (.ok (.port (BitVec.ofNat 16 (portNumber q.dir q.tag.toNat))))
          { record (.opened (portNumber q.dir q.tag.toNat) s.nextAnswer) s.answerUsed with sess := q }) := by
  simp only [openPort, transportOpen_eq]
  cases s.nextAnswer <;> rfl

/-- Settles O34: R104's refusals in their order, and then the transport's answer (`openPort_eq`). -/
theorem openResult : Obligations.OpenResult := by
  intro reqid tag mrrs dir s hs
  refine ⟨rfl, ?_⟩
  rw [exec_openSession_idle reqid tag mrrs dir hs]
  by_cases hopen : s.sess.isOpen = true
  · rw [if_pos hopen, if_pos hopen, badState_of_open hopen]
    exact answers_raise ..
  rw [if_neg hopen, if_neg hopen, openOperandError]
  by_cases hreqid : 0xFFFF < reqid.toNat
  · rw [if_pos hreqid, if_pos hreqid]
    exact answers_raise ..
  rw [if_neg hreqid, if_neg hreqid]
  by_cases htag : 0xFF < tag.toNat
  · rw [if_pos htag, if_pos htag]
    exact answers_raise ..
  rw [if_neg htag, if_neg htag]
  by_cases hmrrs : mrrs = 0#64
  · subst hmrrs
    exact answers_raise ..
  have hpos : ¬ mrrs.toNat < 1 := fun h => hmrrs (BitVec.eq_of_toNat_eq (Nat.lt_one_iff.1 h))
  rw [if_neg hmrrs, if_neg hpos]
  by_cases hdir : 1 < dir.toNat
  · rw [if_pos hdir, if_pos hdir]
    exact answers_raise ..
  rw [if_neg hdir, if_neg hdir]
  dsimp only
  rw [openPort_eq, portNumber_sessionOf htag hdir, sessionOf, directionOf_setWidth hdir]
  cases s.nextAnswer <;> rfl

/-- Settles O35, by the two branches of R105. -/
theorem closeResult : Obligations.CloseResult := by
  intro s hs
  refine ⟨rfl, ?_⟩
  rw [exec_closeSession_idle hs]
  split
  case isTrue => rfl
  case isFalse h =>
    rw [badState_of_closed (Bool.not_eq_true _ ▸ h)]
    exact answers_raise ..

/-! ### DMA_READ -/

/-- Settles O36, by R106's refusals in their order. -/
theorem dmaReadRefused : Obligations.DmaReadRefused := by
  intro addr len s hs
  rw [exec_dmaRead_idle addr len hs]
  refine ⟨fun hclosed => ?_, fun hopen hlen => ?_, fun hopen hlen hover => ?_, fun hopen hlen hfit hsize => ?_⟩
  · rw [if_pos hclosed, badState_of_closed hclosed]
    exact answers_raise ..
  all_goals rw [if_neg (by simp [hopen])]
  · rw [if_pos hlen]
    rfl
  · rw [if_neg hlen, if_pos hover]
    exact answers_raise ..
  · rw [if_neg hlen, if_neg (Nat.not_lt.2 hfit), if_pos hsize]
    exact answers_raise ..

/-- `fail` does not look at SEQ.state. -/
theorem fail_of_state (e : Err) (s : State) (q : SeqState) : fail e { s with seq.state := q } = fail e s := by
  simp only [fail, drawDst]
  split <;> rfl

/-- The length of the chunk that the next read request asks for (R107). -/
def nextChunk (s : State) : Nat :=
  chunkLength s.seq.p.toNat (s.seq.len.toNat - s.seq.received.toNat) s.sess.mrrs.toNat

/-- `s` with the request for the next chunk handed to the transport and the chunk outstanding (R107). -/
def requested (s : State) : State :=
  { record (.sent (requestDatagram s.sess false s.seq.p.toNat (nextChunk s) []) s.nextAnswer) s.answerUsed with
    seq := { s.seq with state := .rdRecv, chunk := BitVec.ofNat 13 (nextChunk s), cursor := 0#13 } }

/-- R107: the request is handed over, and the block waits or the read fails, as the transport answers. -/
theorem sendReadRequest_requested (s : State) :
    sendReadRequest s =
      match s.nextAnswer with
      | .ok => .next (requested s)
      | .ioError => fail (mkErr .io .none 1 s.seq.received.toNat) (requested s) := by
  rw [sendReadRequest_eq]
  dsimp only
  rw [requested, nextChunk, requestDatagram, requestHeader_eq]
  cases s.nextAnswer with
  | ok => rfl
  | ioError => exact (fail_of_state _ _ .rdRecv).symm

theorem sendReadRequest_ok {s : State} (h : s.nextAnswer = .ok) : sendReadRequest s = .next (requested s) := by
  rw [sendReadRequest_requested, h]

theorem sendReadRequest_ioError {s : State} (h : s.nextAnswer = .ioError) :
    sendReadRequest s = fail (mkErr .io .none 1 s.seq.received.toNat) (requested s) := by
  rw [sendReadRequest_requested, h]

/-- Settles O37: past R106's refusals the command is `send_read_request()` (`sendReadRequest_requested`). -/
theorem dmaReadStarts : Obligations.DmaReadStarts := by
  intro addr len s hs hopen hlen hfit hsize
  have hreq : requested (withRead addr len s) =
      { record (.sent (requestDatagram s.sess false addr.toNat (nextChunk (withRead addr len s)) []) s.nextAnswer)
          s.answerUsed with
        seq := ⟨.rdRecv, addr, len, 0#64, BitVec.ofNat 13 (nextChunk (withRead addr len s)), 0#13⟩ } := rfl
  rw [exec_dmaRead_idle addr len hs, if_neg (by simp [hopen]), if_neg hlen, if_neg (Nat.not_lt.2 hfit),
    if_neg (Nat.not_lt.2 hsize), sendReadRequest_requested, hreq,
    show (withRead addr len s).nextAnswer = s.nextAnswer from rfl]
  cases s.nextAnswer with
  | ok => rfl
  | ioError => exact fail_failsRead _ _ hsize

/-! ### DMA_WRITE -/

/-- Settles O38, by R108's refusals in their order. -/
theorem dmaWriteRefused : Obligations.DmaWriteRefused := by
  intro addr len s hs
  rw [exec_dmaWrite_idle addr len hs]
  refine ⟨fun hclosed => ?_, fun hopen halign => ?_, fun hopen haddr hlen hmrrs => ?_,
    fun hopen haddr hlen hmrrs hover => ?_, fun hopen haddr hlen hmrrs hfit hsize => ?_⟩
  · rw [if_pos hclosed, badState_of_closed hclosed]
    exact answers_raise ..
  all_goals rw [if_neg (by simp [hopen])]
  · rw [if_pos halign]
    exact answers_raise ..
  all_goals rw [if_neg (by simp [haddr, hlen])]
  · rw [if_pos hmrrs]
    exact answers_raise ..
  all_goals rw [if_neg (not_not.2 hmrrs)]
  · rw [if_pos hover]
    exact answers_raise ..
  · rw [if_neg (Nat.not_lt.2 hfit), if_pos hsize]
    exact answers_raise ..

end Sys2Proof.Machine
end

section
/-! PROOFS. The host's writes of the buffers (10_state.md R23) and the typed write (44_dma_session.md R109). -/

namespace Sys2Proof.Machine

/-! ### Writes of DST and SRC -/

theorem holds_iff (b : Buffer) (a n : Nat) : b.holds a n = true ↔ n = 0 ∨ a + n ≤ b.size := by
  simp [Buffer.holds]

/-- A write changes the bytes written and no other. -/
theorem writesBytes_write (b : Buffer) (a : Nat) (bs : Bytes) : WritesBytes b a bs (b.write a bs) :=
  ⟨rfl, fun i hi => byte_write_inside b a i bs hi, fun x hx => byte_write_outside b a x bs hx⟩

theorem hostWriteDst_holds {s : State} {a : Nat} {bs : Bytes} (h : s.dst.holds a bs.length = true) :
    hostWriteDst a bs s = .next { s with dst := s.dst.write a bs } := if_pos h

theorem hostWriteSrc_holds {s : State} {a : Nat} {bs : Bytes} (h : s.src.holds a bs.length = true) :
    hostWriteSrc a bs s = .next { s with src := s.src.write a bs } := if_pos h

/-- Settles O52: the step takes the act (`step_of_hostAct`), and the write is `writesBytes_write` or stops. -/
theorem hostWritesBuffers : Obligations.HostWritesBuffers := by
  intro s a bs rest hpin hs hbs
  have hlen : bs.length ≠ 0 := fun h => hbs (List.length_eq_zero_iff.1 h)
  refine ⟨fun hhost hfit => ?_, fun hhost hover => ?_, fun hhost hfit => ?_, fun hhost hover => ?_⟩
  all_goals rw [step_of_hostAct hpin hs hhost, hostStep]
  · exact ⟨_, hostWriteDst_holds ((holds_iff ..).2 (.inr hfit)), writesBytes_write ..⟩
  · exact if_neg (mt (holds_iff ..).1 (by dsimp only; omega))
  · exact ⟨_, hostWriteSrc_holds ((holds_iff ..).2 (.inr hfit)), writesBytes_write ..⟩
  · exact if_neg (mt (holds_iff ..).1 (by dsimp only; omega))

/-! ### The typed write -/

/-- A run goes on from where its first step leads. -/
theorem run_of_step_eq (M : Host.Core) {s t : M.State} (h : M.step s = .next t) (k : Nat) :
    M.run (k + 1) s = M.run k t := by
  simp only [Host.Core.run, h]

theorem run_succ {s t : State} (h : step s = .next t) (k : Nat) :
    Host.Core.run Sys2Proof.core (k + 1) s = Host.Core.run Sys2Proof.core k t :=
  run_of_step_eq Sys2Proof.core h k

/-- The host's next act, when it presents an instruction's own encoding, is that instruction. -/
theorem step_of_command {s : State} {i : Instr} {rest : List HostAct} (hpin : s.ports.resetPin = false)
    (hs : s.seq.state = .idle) (hi : i.port = .command) (hhost : s.ports.host = .command (encode i) :: rest) :
    step s = exec i { s with ports.host := rest } := by
  rw [step_of_hostAct hpin hs hhost, hostStep_command_ok (decodeCommand_encode i hi)]

/-- Settles O42: SRC takes the value, and the write of a length that is no multiple of 4 is refused
(`dmaWriteRefused`). -/
theorem typedWriteNeedsWholeDws : Obligations.TypedWriteNeedsWholeDws := by
  intro a value rest s hpin hs hopen hhost hfit hlt hlen
  have htoNat : (BitVec.ofNat 64 value.length).toNat = value.length := by
    rw [BitVec.toNat_ofNat, Nat.mod_eq_of_lt hlt]
  let write : Instr := .dmaWrite a (BitVec.ofNat 64 value.length)
  let stored : State := { s with src := s.src.write 0 value, ports.host := .command (encode write) :: rest }
  have hstore : step s = .next stored := by
    rw [step_of_hostAct hpin hs hhost]
    exact hostWriteSrc_holds ((holds_iff ..).2 (.inr (by dsimp only; omega)))
  have hwrite : step stored = exec write { stored with ports.host := rest } := step_of_command hpin hs rfl rfl
  obtain ⟨-, halign, -⟩ := dmaWriteRefused a (BitVec.ofNat 64 value.length) { stored with ports.host := rest } hs
  have hrefused := halign hopen (.inr (htoNat.symm ▸ hlen))
  rw [htoNat] at hrefused
  exact (run_succ hstore 1).trans (run_succ (hwrite.trans hrefused) 0)

end Sys2Proof.Machine
end

section
/-! PROOFS. The loop of DMA_WRITE (44_dma_session.md R108): one request for each chunk of the transfer, in order, up to
the first one that the transport refuses. -/

namespace Sys2Proof.Machine

/-! ### Handing over a list of requests -/

/-- Hand over the requests of the chunks, in order, up to the first one that the transport refuses; answered are that
chunk, if there is one, and the state after it. -/
def sendChunks (datagram : Nat × Nat → Bytes) (cs : List (Nat × Nat)) (s : State) : Option (Nat × Nat) × State :=
  match cs with
  | [] => (none, s)
  | c :: rest =>
    match s.nextAnswer with
    | .ok => sendChunks datagram rest (record (.sent (datagram c) .ok) s.answerUsed)
    | .ioError => (some c, record (.sent (datagram c) .ioError) s.answerUsed)

/-- The response of a write that starts at `addr`, by the chunk that was refused. -/
def writeResponse (addr : Nat) (refused : Option (Nat × Nat)) : Response :=
  match refused with
  | none => .ok .done
  | some c => errorResponse .io .none 1 (c.1 - addr)

section
variable {datagram : Nat × Nat → Bytes} {c : Nat × Nat} {s : State}

theorem sendChunks_cons_ok (cs : List (Nat × Nat)) (h : s.nextAnswer = .ok) :
    sendChunks datagram (c :: cs) s = sendChunks datagram cs (record (.sent (datagram c) .ok) s.answerUsed) := by
  rw [sendChunks, h]

theorem sendChunks_cons_ioError (cs : List (Nat × Nat)) (h : s.nextAnswer = .ioError) :
    sendChunks datagram (c :: cs) s = (some c, record (.sent (datagram c) .ioError) s.answerUsed) := by
  rw [sendChunks, h]

end

/-- The transport's answer, where it is an input. -/
theorem nextAnswer_of_cons {s : State} {a : TxAnswer} {rest : List TxAnswer} (h : s.ports.txAnswers = a :: rest) :
    s.nextAnswer = a ∧ s.answerUsed = { s with ports.txAnswers := rest } := by
  simp [State.nextAnswer, State.answerUsed, h]

/-- While the transport takes what it is given, the requests are on record and the answers used up. -/
theorem sendChunks_append {datagram : Nat × Nat → Bytes} {done : List (Nat × Nat)} (todo : List (Nat × Nat)) {s : State}
    {more : List TxAnswer} (h : s.ports.txAnswers = List.replicate done.length .ok ++ more) :
    sendChunks datagram (done ++ todo) s =
      sendChunks datagram todo { s with
        ports.txAnswers := more
        ports.transport := s.ports.transport ++ done.map fun c => .sent (datagram c) .ok } := by
  induction done generalizing s with
  | nil =>
    obtain rfl : s.ports.txAnswers = more := h
    simp
  | cons c done ih =>
    obtain ⟨hok, hused⟩ := nextAnswer_of_cons (rest := List.replicate done.length .ok ++ more) h
    rw [List.cons_append, sendChunks_cons_ok _ hok, hused, ih rfl]
    simp [record]

/-- What handing over requests leaves alone, and what it adds to the record. -/
theorem sendChunks_frame (datagram : Nat × Nat → Bytes) (cs : List (Nat × Nat)) (s : State) :
    ∃ refused t, sendChunks datagram cs s = (refused, t) ∧
      t.sess = s.sess ∧ t.seq = s.seq ∧ t.dst = s.dst ∧ t.src = s.src ∧ t.ports.responses = s.ports.responses ∧
      (∀ c, refused = some c → c ∈ cs) ∧
      ∃ acts, t.ports.transport = s.ports.transport ++ acts ∧
        ∀ d a, TransportAct.sent d a ∈ acts → ∃ c ∈ cs, d = datagram c := by
  induction cs generalizing s with
  | nil => exact ⟨none, s, rfl, rfl, rfl, rfl, rfl, rfl, by simp, [], by simp, by simp⟩
  | cons c cs ih =>
    cases h : s.nextAnswer with
    | ok =>
      rw [sendChunks_cons_ok _ h]
      obtain ⟨refused, t, heq, hsess, hseq, hdst, hsrc, hresp, hmem, acts, hacts, hsent⟩ :=
        ih (record (.sent (datagram c) .ok) s.answerUsed)
      refine ⟨refused, t, heq, hsess, hseq, hdst, hsrc, hresp, fun c' hc' => List.mem_cons_of_mem c (hmem c' hc'),
        .sent (datagram c) .ok :: acts, by simp [hacts], fun d a hd => ?_⟩
      rcases List.mem_cons.1 hd with hd | hd
      · cases hd
        exact ⟨c, List.mem_cons_self, rfl⟩
      · obtain ⟨c', hc', rfl⟩ := hsent d a hd
        exact ⟨c', List.mem_cons_of_mem c hc', rfl⟩
    | ioError =>
      rw [sendChunks_cons_ioError _ h]
      refine ⟨some c, _, rfl, rfl, rfl, rfl, rfl, rfl, fun c' hc' => ?_, [.sent (datagram c) .ioError], rfl,
        fun d a hd => ?_⟩
      · cases hc'
        exact List.mem_cons_self
      · cases List.mem_singleton.1 hd
        exact ⟨c, List.mem_cons_self, rfl⟩

/-! ### The chunks of a write -/

/-- A chunk of a transfer is the one R100 gives at its place. -/
theorem chunk_of_mem {addr len mrrs : Nat} {c : Nat × Nat} (hm : 1 ≤ mrrs) (h : c ∈ chunks addr len mrrs) :
    addr ≤ c.1 ∧ c.1 < addr + len ∧ c.2 = chunkLength c.1 (len - (c.1 - addr)) mrrs := by
  obtain ⟨before, after, hsplit⟩ := List.append_of_mem h
  obtain ⟨hp, hlt, hn⟩ := chunk_of_chunks_append hm hsplit
  exact ⟨by omega, hlt, hn⟩

theorem chunkLength_mod4 {p remaining mrrs : Nat} (hp : p % 4 = 0) (hr : remaining % 4 = 0) (hm : mrrs % 4 = 0) :
    chunkLength p remaining mrrs % 4 = 0 := by
  simp only [chunkLength, Config.page]
  omega

/-- A transfer of whole DWs, with whole DWs at most in each request, has chunks of whole DWs. -/
theorem chunks_mod4 {p len mrrs : Nat} (hm : 1 ≤ mrrs) (hp : p % 4 = 0) (hl : len % 4 = 0) (hm4 : mrrs % 4 = 0) :
    ∀ c ∈ chunks p len mrrs, c.1 % 4 = 0 ∧ c.2 % 4 = 0 := by
  induction len using Nat.strong_induction_on generalizing p with
  | _ len ih =>
    cases len with
    | zero => simp [chunks_zero]
    | succ k =>
      have hn4 := chunkLength_mod4 hp hl hm4
      have hpos := chunkLength_pos (addr := p) (Nat.le_add_left 1 k) hm
      rw [chunks_cons p (Nat.le_add_left 1 k) hm]
      intro c hc
      rcases List.mem_cons.1 hc with rfl | hc
      · exact ⟨hp, hn4⟩
      · exact ih _ (by omega) (by omega) (by omega) c hc

/-! ### The loop -/

/-- A request for a chunk always fits a header, so the write's datagram is the one of its wire form (R86). -/
theorem reqDatagram_write (q : Session) {p : Nat} (remaining mrrs : Nat) (payload : Bytes) (hp : p < 2 ^ 64) :
    reqDatagram true q p (chunkLength p remaining mrrs) payload =
      .ok (requestDatagram q true p (chunkLength p remaining mrrs) payload) := by
  rw [reqDatagram, encReq_chunk true q.reqid q.tag p remaining mrrs hp, requestDatagram, requestHeader_eq]
  rfl

/-- R108: from `sent` bytes on, the loop hands over the requests of the chunks of the rest and answers by the one that
was refused. -/
theorem writeLoop_eq {fuel addr sent len : Nat} {s : State} (hm : 1 ≤ s.sess.mrrs.toNat) (htop : addr + len ≤ 2 ^ 64)
    (hsent : sent ≤ len) (hfuel : len - sent ≤ fuel) :
    writeLoop fuel (addr + sent) sent len s =
      (let r := sendChunks (writeDatagram s addr) (chunks (addr + sent) (len - sent) s.sess.mrrs.toNat) s
       .next (respond (writeResponse addr r.1) r.2)) := by
  induction fuel generalizing sent s with
  | zero =>
    obtain rfl : sent = len := by omega
    rw [Nat.sub_self, chunks_zero, writeLoop, if_pos (Nat.le_refl _)]
    rfl
  | succ fuel ih =>
    by_cases hdone : len ≤ sent
    · obtain rfl : sent = len := by omega
      rw [Nat.sub_self, chunks_zero, writeLoop, if_pos (Nat.le_refl _)]
      rfl
    have hfit := reqDatagram_write s.sess (p := addr + sent) (len - sent) s.sess.mrrs.toNat
    have hn := chunkLength_le_remaining (addr + sent) (len - sent) s.sess.mrrs.toNat
    have hpos := chunkLength_pos (addr := addr + sent) (remaining := len - sent) (by omega) hm
    rw [writeLoop, if_neg hdone, chunks_cons _ (by omega) hm]
    dsimp only
    generalize chunkLength (addr + sent) (len - sent) s.sess.mrrs.toNat = n at *
    have hpayload : requestDatagram s.sess true (addr + sent) n (s.src.read sent n) =
        writeDatagram s addr (addr + sent, n) := by
      rw [writeDatagram, Nat.add_sub_cancel_left]
      rfl
    rw [hfit _ (by omega), hpayload]
    simp only [emit_eq]
    cases h : s.nextAnswer with
    | ok =>
      rw [sendChunks_cons_ok _ h, Nat.add_assoc, Nat.sub_sub]
      exact ih hm (by omega) (by omega)
    | ioError =>
      rw [sendChunks_cons_ioError _ h, writeResponse, Nat.add_sub_cancel_left]
      rfl

/-- The command step of a write that is allowed (R108). -/
theorem exec_dmaWrite_of_canWrite {addr len : BitVec 64} {s : State} (hs : s.seq.state = .idle)
    (h : CanWrite addr len s) :
    exec (.dmaWrite addr len) s =
      (let r := sendChunks (writeDatagram s addr.toNat) (chunks addr.toNat len.toNat s.sess.mrrs.toNat) s
       .next (respond (writeResponse addr.toNat r.1) r.2)) := by
  obtain ⟨hopen, hm, haddr, hlen, hm4, htop, hsize⟩ := h
  replace htop : ¬ 2 ^ 64 < addr.toNat + len.toNat := Nat.not_lt.2 htop
  rw [exec_dmaWrite_idle addr len hs, if_neg (by simp [hopen]), if_neg (by simp [haddr, hlen]), if_neg (not_not.2 hm4),
    if_neg htop, if_neg (Nat.not_lt.2 hsize)]
  exact writeLoop_eq (sent := 0) hm (Nat.not_lt.1 htop) (Nat.zero_le _) (Nat.le_refl _)

/-! ### The obligations -/

/-- Settles O39: all chunks are handed over (`sendChunks_append`). -/
theorem dmaWriteEmitsChunks : Obligations.DmaWriteEmitsChunks := by
  intro addr len s more hs hcan hans
  have hall := sendChunks_append (datagram := writeDatagram s addr.toNat) [] hans
  rw [List.append_nil] at hall
  rw [exec_dmaWrite_of_canWrite hs hcan, hall]
  rfl

/-- Settles O40: the chunks before the refused one are handed over (`sendChunks_append`), and there the write stops. -/
theorem dmaWriteStopsAtFailure : Obligations.DmaWriteStopsAtFailure := by
  intro addr len s done todo p n more hs hcan hchunks hans
  rw [exec_dmaWrite_of_canWrite hs hcan, hchunks, sendChunks_append _ hans, sendChunks_cons_ioError _ rfl]
  rfl

/-- Settles O41: whatever is answered, the loop hands over a front of the chunks (`sendChunks_frame`), and a chunk
begins inside the transfer, at a multiple of 4. -/
theorem dmaWriteAnswers : Obligations.DmaWriteAnswers := by
  intro addr len s hs hcan
  have hexec := exec_dmaWrite_of_canWrite hs hcan
  obtain ⟨-, hm, haddr, hlen, hm4, -, -⟩ := hcan
  obtain ⟨refused, t, heq, hsess, hseq, hdst, hsrc, hresp, hmem, -⟩ :=
    sendChunks_frame (writeDatagram s addr.toNat) (chunks addr.toNat len.toNat s.sess.mrrs.toNat) s
  rw [heq] at hexec
  refine ⟨_, _, hexec, hsess, hseq, hdst, hsrc, congrArg (· ++ _) hresp, ?_⟩
  cases refused with
  | none => exact .inl rfl
  | some c =>
    obtain ⟨hlow, hhigh, -⟩ := chunk_of_mem hm (hmem c rfl)
    obtain ⟨h4, -⟩ := chunks_mod4 hm haddr hlen hm4 c (hmem c rfl)
    exact .inr ⟨c.1 - addr.toNat, rfl, by omega, by omega⟩

end Sys2Proof.Machine
end

section
/-! PROOFS. The datagrams received during a read (45_completion_reassembly.md R114, R115): those that end it, and the
fragments that are copied. -/

namespace Sys2Proof.Machine

/-! ### The steps of R114 that end the read -/

theorem exec_wireForm_rdRecv {i : Instr} {s : State} (h : i.port = .rx) (hs : s.seq.state = .rdRecv) :
    exec i s = rxDatagram (encode i) s := by
  rw [exec_wireForm h, onReceive_rdRecv hs]

theorem rxDatagram_short {d : Bytes} (h : d.length < 18) (s : State) :
    rxDatagram d s = fail (mkErr .invalidData .tooShort d.length 18) s := if_pos h

theorem rxDatagram_invalid {d : Bytes} {e : Err} (h : 18 ≤ d.length)
    (hv : cplValidate (cplFields (slice d 6 12)) = some e) (s : State) : rxDatagram d s = fail e s := by
  simp only [rxDatagram, if_neg (Nat.not_lt.2 h), hv]

theorem rxDatagram_badSpan {d : Bytes} {e : Err} {s : State} (h : 18 ≤ d.length)
    (hv : cplValidate (cplFields (slice d 6 12)) = none)
    (hspan : cplSpan (cplFields (slice d 6 12)) d.length (s.seq.chunk.toNat - s.seq.cursor.toNat) = .error e) :
    rxDatagram d s = fail e s := by
  simp only [rxDatagram, if_neg (Nat.not_lt.2 h), hv, hspan]

theorem rxDatagram_fragment {d : Bytes} {start size : Nat} {s : State} (h : 18 ≤ d.length)
    (hv : cplValidate (cplFields (slice d 6 12)) = none)
    (hspan : cplSpan (cplFields (slice d 6 12)) d.length (s.seq.chunk.toNat - s.seq.cursor.toNat) = .ok (start, size)) :
    rxDatagram d s = acceptFragment (cplFields (slice d 6 12)) d start size s := by
  simp only [rxDatagram, if_neg (Nat.not_lt.2 h), hv, hspan]

/-- Byte 0 of the header is the byte behind the transport header. -/
theorem cplFields_fmtType {d : Bytes} (h : 18 ≤ d.length) : (cplFields (slice d 6 12)).fmtType = byteAt d 6 := by
  have h6 : 6 < d.length := by omega
  simp [cplFields, slice, byteAt, h6]

/-- R114 step 4: a header that is no completion. -/
theorem rxDatagram_badFmtType {d : Bytes} (h : 18 ≤ d.length) (hcpld : byteAt d 6 ≠ 0x4A#8) (hcpl : byteAt d 6 ≠ 0x0A#8)
    (s : State) : rxDatagram d s = fail (mkErr .invalidData .badFmtType (byteAt d 6).toNat 0) s := by
  refine rxDatagram_invalid h ?_ s
  rw [cplValidate_eq, cplFields_fmtType h, if_neg hcpl, if_pos hcpld]

/-- Settles O43: a request's byte 0 is no completion's, and neither is that of any other datagram
(`rxDatagram_badFmtType`). -/
theorem requestReceivedFails : Obligations.RequestReceivedFails := by
  constructor
  · intro nt head a b rest s hs hlen
    have hfail {i : Instr} (x : Byte) (hi : i.port = .rx) (hlong : 18 ≤ (encode i).length)
        (hx : byteAt (encode i) 6 = x) (hcpld : x ≠ 0x4A#8) (hcpl : x ≠ 0x0A#8) :
        FailsRead (exec i s) s (errorResponse .invalidData .badFmtType x.toNat 0) := by
      subst hx
      rw [exec_wireForm_rdRecv hi hs, rxDatagram_badFmtType hlong hcpld hcpl]
      exact fail_failsRead _ _ hlen
    exact ⟨hfail 0x00#8 rfl (by simp [encode]; omega) rfl (by decide) (by decide),
      hfail 0x20#8 rfl (by simp [encode]; omega) rfl (by decide) (by decide),
      hfail 0x40#8 rfl (by simp [encode]; omega) rfl (by decide) (by decide),
      hfail 0x60#8 rfl (by simp [encode]; omega) rfl (by decide) (by decide)⟩
  · intro s d rest hpin hs hrx hlen hlong hcpld hcpl
    rw [stepOnDatagramIsReassembly s d rest hpin hs hrx, rxDatagram_badFmtType hlong hcpld hcpl]
    exact fail_failsRead _ { s with ports.rx := rest } hlen

/-- Settles O44: byte 0 is 0x0A, which R89 looks at before the other fields. -/
theorem cplReceivedFails : Obligations.CplReceivedFails := by
  intro nt hdr rest s hs hlen
  have hlong : 18 ≤ (encode (.cpl nt hdr rest)).length := by simp [encode]; omega
  have hv : cplValidate (cplFields (slice (encode (.cpl nt hdr rest)) 6 12)) =
      some (mkErr .invalidAddress .none 0x0A 0) := by
    rw [cplValidate_eq]
    exact if_pos (congrArg CplFields.fmtType (cplFields_datagram nt 0x0A#8 hdr rest))
  rw [exec_wireForm_rdRecv rfl hs, rxDatagram_invalid hlong hv]
  exact fail_failsRead _ _ hlen

/-- Settles O45, by R114 step 2. -/
theorem nettlpReceivedFails : Obligations.NettlpReceivedFails := by
  constructor
  · intro nt rest s hs hlen hshort
    have hlength : (encode (.nettlp nt rest)).length = 6 + rest.length := List.length_append
    rw [exec_wireForm_rdRecv rfl hs, rxDatagram_short (by omega), hlength]
    exact fail_failsRead _ _ hlen
  · intro s d rest hpin hs hrx hlen hshort
    rw [stepOnDatagramIsReassembly s d rest hpin hs hrx, rxDatagram_short hshort]
    exact fail_failsRead _ { s with ports.rx := rest } hlen

/-! ### A completion with data: the checks (R114 steps 5 to 7) -/

/-- The fields of a completion with data. -/
def cpldFields (hdr : CplHdr) : CplFields :=
  ⟨0x4A#8, hdr.tc, hdr.length, hdr.cplid, hdr.status, hdr.count, hdr.reqid, hdr.tag, hdr.lowaddr⟩

theorem cpld_length (nt : NettlpHdr) (hdr : CplHdr) (rest : Bytes) :
    (encode (.cpld nt hdr rest)).length = 18 + rest.length := by
  simp only [encode, List.length_append, encodeNettlp_length, encodeCplHdr_length]

theorem cpld_fields (nt : NettlpHdr) (hdr : CplHdr) (rest : Bytes) :
    cplFields (slice (encode (.cpld nt hdr rest)) 6 12) = cpldFields hdr := cplFields_datagram nt 0x4A#8 hdr rest

/-- Of a completion with data R89 checks the status. -/
theorem cplValidate_cpld (hdr : CplHdr) :
    cplValidate (cpldFields hdr) =
      if hdr.status ≠ 0#3 then some (mkErr .invalidData .badStatus hdr.status.toNat 0) else none := rfl

section
variable (nt : NettlpHdr) (hdr : CplHdr) (rest : Bytes) {s : State}

theorem exec_cpld_badStatus (hs : s.seq.state = .rdRecv) (h : hdr.status ≠ 0#3) :
    exec (.cpld nt hdr rest) s = fail (mkErr .invalidData .badStatus hdr.status.toNat 0) s := by
  rw [exec_wireForm_rdRecv rfl hs]
  refine rxDatagram_invalid (by rw [cpld_length]; omega) ?_ s
  rw [cpld_fields, cplValidate_cpld, if_pos h]

theorem exec_cpld_badSpan {e : Err} (hs : s.seq.state = .rdRecv) (h : hdr.status = 0#3)
    (hspan : cplSpan (cpldFields hdr) (18 + rest.length) (s.seq.chunk.toNat - s.seq.cursor.toNat) = .error e) :
    exec (.cpld nt hdr rest) s = fail e s := by
  rw [exec_wireForm_rdRecv rfl hs]
  refine rxDatagram_badSpan (by rw [cpld_length]; omega) ?_ ?_
  · rw [cpld_fields, cplValidate_cpld, if_neg (not_not.2 h)]
  · rw [cpld_fields, cpld_length, hspan]

theorem exec_cpld_fragment {start size : Nat} (hs : s.seq.state = .rdRecv) (h : hdr.status = 0#3)
    (hspan : cplSpan (cpldFields hdr) (18 + rest.length) (s.seq.chunk.toNat - s.seq.cursor.toNat) = .ok (start, size)) :
    exec (.cpld nt hdr rest) s = acceptFragment (cpldFields hdr) (encode (.cpld nt hdr rest)) start size s := by
  rw [exec_wireForm_rdRecv rfl hs, ← cpld_fields nt hdr rest]
  refine rxDatagram_fragment (by rw [cpld_length]; omega) ?_ ?_
  · rw [cpld_fields, cplValidate_cpld, if_neg (not_not.2 h)]
  · rw [cpld_fields, cpld_length, hspan]

end

/-- While a read is in progress it lies inside DST. -/
theorem inv_len_le_dst {s : State} (h : s.Inv) (hs : s.seq.state = .rdRecv) : s.seq.len.toNat ≤ s.dst.size := by
  obtain ⟨-, hread, -⟩ := h
  obtain ⟨-, -, -, -, hlen, -⟩ := hread hs
  exact hlen

/-- Settles O46, by R93's three refusals after the status. -/
theorem cpldRefused : Obligations.CpldRefused := by
  intro nt hdr rest s hinv hs
  have hlen := inv_len_le_dst hinv hs
  refine ⟨fun hstatus => ?_, fun hstatus hunder => ?_, fun hstatus hoff hdgram => ?_,
    fun hstatus hoff hdgram hdest => ?_⟩
  · rw [exec_cpld_badStatus nt hdr rest hs hstatus]
    exact fail_failsRead _ _ hlen
  · rw [exec_cpld_badSpan nt hdr rest hs hstatus (if_pos hunder)]
    exact fail_failsRead _ _ hlen
  · have hspan : cplSpan (cpldFields hdr) (18 + rest.length) (s.seq.chunk.toNat - s.seq.cursor.toNat) = .error _ :=
      (if_neg (Nat.not_lt.2 hoff)).trans (if_pos (by simp only [lowTwo, cpldFields, Config.rxMin]; omega))
    rw [exec_cpld_badSpan nt hdr rest hs hstatus hspan]
    exact fail_failsRead _ _ hlen
  · have hspan : cplSpan (cpldFields hdr) (18 + rest.length) (s.seq.chunk.toNat - s.seq.cursor.toNat) = .error _ :=
      (if_neg (Nat.not_lt.2 hoff)).trans
        ((if_neg (by simp only [lowTwo, cpldFields, Config.rxMin]; omega)).trans (if_pos hdest))
    rw [exec_cpld_badSpan nt hdr rest hs hstatus hspan]
    exact fail_failsRead _ _ hlen

end Sys2Proof.Machine
end

section
/-! PROOFS. The fragments that are copied (45_completion_reassembly.md R114 steps 8 and 9, R115). -/

namespace Sys2Proof.Machine

/-! ### The copy and the end of a chunk -/

/-- `s` with the bytes `bs` copied into the window at the cursor (R114 step 8). -/
def copied (bs : Bytes) (s : State) : State :=
  { s with
    dst := s.dst.write (s.seq.received.toNat + s.seq.cursor.toNat) bs
    seq.cursor := s.seq.cursor + BitVec.ofNat 13 bs.length }

/-- A fragment inside DST is copied, and the last one (R92) ends its chunk. -/
theorem acceptFragment_eq {f : CplFields} {d : Bytes} {start size : Nat} {s : State}
    (hlen : (slice d start size).length = size)
    (hfit : s.seq.received.toNat + s.seq.cursor.toNat + size ≤ s.dst.size) :
    acceptFragment f d start size s =
      if f.length.toNat = (f.lowaddr.toNat % 4 + f.count.toNat + 3) / 4 then chunkDone (copied (slice d start size) s)
      else .next (copied (slice d start size) s) := by
  rw [acceptFragment, storeDst_holds ((holds_iff ..).2 (.inr (by omega))), andThen_next, copied, hlen]
  simp only [cplIsLast_eq, decide_eq_true_eq]

/-- A chunk's length added to a register. -/
theorem add_chunk_eq_ofNat (x : BitVec 64) (n : BitVec 13) :
    x + n.setWidth 64 = BitVec.ofNat 64 (x.toNat + n.toNat) := by
  have hn := n.isLt
  apply BitVec.eq_of_toNat_eq
  rw [BitVec.toNat_add, BitVec.toNat_setWidth, BitVec.toNat_ofNat, Nat.mod_eq_of_lt (a := n.toNat) (by omega)]

theorem add_chunk_toNat {x : BitVec 64} {n : BitVec 13} (h : x.toNat + n.toNat < 2 ^ 64) :
    (x + n.setWidth 64).toNat = x.toNat + n.toNat := by
  rw [add_chunk_eq_ofNat, BitVec.toNat_ofNat, Nat.mod_eq_of_lt h]

/-- R115 at the end of the last chunk. -/
theorem chunkDone_last {s : State} (h : s.seq.received.toNat + s.seq.chunk.toNat = s.seq.len.toNat) :
    chunkDone s = .next (respond (.ok .done) { advance s with seq.state := .idle }) := by
  have hlt := s.seq.len.isLt
  rw [chunkDone_eq, if_pos]
  apply BitVec.eq_of_toNat_eq
  rw [advance_received, add_chunk_toNat (by omega), h]

/-- R115 at the end of a chunk that is not the last. -/
theorem chunkDone_next {s : State} (h : s.seq.received.toNat + s.seq.chunk.toNat < s.seq.len.toNat) :
    chunkDone s = sendReadRequest (advance s) := by
  have hlt := s.seq.len.isLt
  rw [chunkDone_eq, if_neg]
  intro heq
  have := congrArg BitVec.toNat heq
  rw [advance_received, add_chunk_toNat (by omega)] at this
  omega

/-- R115 where the next address is a 64-bit value. -/
theorem advance_eq {s : State} (h : s.seq.p.toNat + s.seq.chunk.toNat < 2 ^ 64) :
    advance s = { s with
      seq.p := BitVec.ofNat 64 (s.seq.p.toNat + s.seq.chunk.toNat)
      seq.received := BitVec.ofNat 64 (s.seq.received.toNat + s.seq.chunk.toNat) } := by
  rw [← add_chunk_eq_ofNat, ← add_chunk_eq_ofNat]
  exact if_pos h

/-! ### An accepted fragment -/

/-- The bytes of a fragment that count (R114 step 6). -/
def spanBytes (hdr : CplHdr) (rest : Bytes) : Bytes := (rest.drop (hdr.lowaddr.toNat % 4)).take (spanSize hdr)

theorem spanBytes_length {hdr : CplHdr} {rest : Bytes} (h : hdr.lowaddr.toNat % 4 + spanSize hdr ≤ rest.length) :
    (spanBytes hdr rest).length = spanSize hdr := by
  simp only [spanBytes, List.length_take, List.length_drop]
  omega

/-- The span of a completion's datagram is the span of what follows its header. -/
theorem slice_cpld (nt : NettlpHdr) (hdr : CplHdr) (rest : Bytes) :
    slice (encode (.cpld nt hdr rest)) (18 + hdr.lowaddr.toNat % 4) (spanSize hdr) = spanBytes hdr rest := by
  have hlen : (encodeNettlp nt ++ encodeCplHdr 0x4A#8 hdr).length = 18 := rfl
  rw [slice, encode, ← hlen, List.drop_length_add_append, spanBytes]

/-- An accepted fragment passes R93's three checks. -/
theorem cplSpan_of_accepted {hdr : CplHdr} {rest : Bytes} {s : State} (h : Accepted hdr rest s) :
    cplSpan (cpldFields hdr) (18 + rest.length) (s.seq.chunk.toNat - s.seq.cursor.toNat) =
      .ok (18 + hdr.lowaddr.toNat % 4, spanSize hdr) := by
  obtain ⟨-, hoff, hdgram, hdest⟩ := h
  simp only [spanSize] at hdgram hdest
  exact (if_neg (Nat.not_lt.2 hoff)).trans
    ((if_neg (by simp only [lowTwo, cpldFields, Config.rxMin]; omega)).trans (if_neg (Nat.not_lt.2 hdest)))

/-- R114 steps 8 and 9: an accepted fragment is copied, and the last one ends its chunk. -/
theorem exec_cpld_accepted (nt : NettlpHdr) {hdr : CplHdr} {rest : Bytes} {s : State} (hinv : s.Inv)
    (hs : s.seq.state = .rdRecv) (h : Accepted hdr rest s) :
    exec (.cpld nt hdr rest) s =
      if hdr.length.toNat = (hdr.lowaddr.toNat % 4 + hdr.count.toNat + 3) / 4 then
        chunkDone (copied (spanBytes hdr rest) s)
      else .next (copied (spanBytes hdr rest) s) := by
  have hspan := cplSpan_of_accepted h
  obtain ⟨hstatus, -, hdgram, hdest⟩ := h
  obtain ⟨-, hread, hcursor, -⟩ := hinv
  obtain ⟨-, hchunk, -, -, hlen, -⟩ := hread hs
  have hslice := slice_cpld nt hdr rest
  have hlength := spanBytes_length hdgram
  rw [exec_cpld_fragment nt hdr rest hs hstatus hspan,
    acceptFragment_eq (by rw [hslice, hlength]) (by omega), hslice]
  rfl

/-- The copied fragment stands in DST at the cursor of the window. -/
theorem holdsSpan_copied {hdr : CplHdr} (rest : Bytes) (s : State) :
    HoldsSpan hdr rest s (copied (spanBytes hdr rest) s).dst :=
  writesBytes_write ..

theorem copied_cursor {hdr : CplHdr} {rest : Bytes} {s : State} (h : Accepted hdr rest s) :
    (copied (spanBytes hdr rest) s).seq.cursor = BitVec.ofNat 13 (s.seq.cursor.toNat + spanSize hdr) := by
  obtain ⟨-, -, hdgram, -⟩ := h
  rw [copied, spanBytes_length hdgram, BitVec.ofNat_add, BitVec.ofNat_toNat, BitVec.setWidth_eq]

/-! ### The obligations -/

/-- Settles O47: the fragment is copied and nothing else happens (`exec_cpld_accepted`). -/
theorem cpldFragmentCopied : Obligations.CpldFragmentCopied := by
  intro nt hdr rest s hinv hs hacc hlast
  refine ⟨(copied (spanBytes hdr rest) s).dst, ?_, holdsSpan_copied rest s⟩
  rw [exec_cpld_accepted nt hinv hs hacc, if_neg hlast, ← copied_cursor hacc]
  rfl

/-- Settles O48: the copy, and the end of the last chunk (`chunkDone_last`). -/
theorem cpldLastFinishes : Obligations.CpldLastFinishes := by
  intro nt hdr rest s hinv hs hacc hlast hend
  let u := copied (spanBytes hdr rest) s
  have hend' : u.seq.received.toNat + u.seq.chunk.toNat = u.seq.len.toNat := hend
  have hlt := s.seq.len.isLt
  have hreceived : (advance u).seq.received = s.seq.len := by
    apply BitVec.eq_of_toNat_eq
    rw [advance_received, add_chunk_toNat (by omega)]
    exact hend
  obtain ⟨hsess, hdst, hsrc, hports, -, hlen, hchunk, hcursor⟩ := advance_frame u
  refine ⟨respond (.ok .done) { advance u with seq.state := .idle }, ?_, ?_, rfl, hlen, hreceived, hchunk,
    hcursor.trans (copied_cursor hacc), fun hp => ?_, hsess, hsrc, ?_⟩
  · rw [exec_cpld_accepted nt hinv hs hacc, if_pos hlast, chunkDone_last hend']
  · exact hdst ▸ holdsSpan_copied rest s
  · exact (congrArg BitVec.toNat (advance_p (s := u) hp)).trans (add_chunk_toNat hp)
  · show { (advance u).ports with responses := (advance u).ports.responses ++ [Response.ok .done] } = _
    rw [hports]
    rfl

/-- Settles O49: the copy, the step to the next chunk (`advance_eq`) and its request (`sendReadRequest_requested`). -/
theorem cpldLastRequestsNext : Obligations.CpldLastRequestsNext := by
  intro nt hdr rest s hinv hs hacc hlast hmore
  let u := copied (spanBytes hdr rest) s
  have hfit : s.seq.len.toNat ≤ s.dst.size ∧ s.seq.p.toNat + s.seq.chunk.toNat < 2 ^ 64 := by
    obtain ⟨-, hread, -⟩ := hinv
    obtain ⟨-, -, -, -, hlen, htop⟩ := hread hs
    simp only [Config.addressTop] at htop
    exact ⟨hlen, by omega⟩
  obtain ⟨hlen, hp⟩ := hfit
  have hlt := s.seq.len.isLt
  have hmore' : u.seq.received.toNat + u.seq.chunk.toNat < u.seq.len.toNat := hmore
  let v : State := { u with
    seq.p := BitVec.ofNat 64 (s.seq.p.toNat + s.seq.chunk.toNat)
    seq.received := BitVec.ofNat 64 (s.seq.received.toNat + s.seq.chunk.toNat) }
  have hv : exec (.cpld nt hdr rest) s = sendReadRequest v := by
    rw [exec_cpld_accepted nt hinv hs hacc, if_pos hlast, chunkDone_next hmore', advance_eq (s := u) hp]
    rfl
  have hpv : v.seq.p.toNat = s.seq.p.toNat + s.seq.chunk.toNat := by
    rw [BitVec.toNat_ofNat, Nat.mod_eq_of_lt hp]
  have hrv : v.seq.received.toNat = s.seq.received.toNat + s.seq.chunk.toNat := by
    rw [BitVec.toNat_ofNat, Nat.mod_eq_of_lt (by omega)]
  refine ⟨u.dst, holdsSpan_copied rest s, ?_⟩
  dsimp only
  have hreq : requested v =
      { record (.sent (requestDatagram s.sess false (s.seq.p.toNat + s.seq.chunk.toNat) (nextChunk v) []) s.nextAnswer)
          s.answerUsed with
        dst := u.dst
        seq := ⟨.rdRecv, v.seq.p, s.seq.len, v.seq.received, BitVec.ofNat 13 (nextChunk v), 0#13⟩ } := by
    rw [requested, hpv]
    rfl
  rw [nextChunk, hpv, hrv] at hreq
  cases hans : s.nextAnswer with
  | ok =>
    rw [hans] at hreq
    exact hv.trans ((sendReadRequest_ok (s := v) hans).trans (congrArg Host.Outcome.next hreq))
  | ioError =>
    rw [hans] at hreq
    rw [hv, sendReadRequest_ioError (s := v) hans, hreq, hrv]
    exact fail_failsRead _ _ hlen

end Sys2Proof.Machine
end

section
/-! PROOFS. The frame of every instruction and every step: what is left unchanged (10_state.md sections 1 and 7,
60_exceptions.md section 1), which events and acts are consumed (R110, R121), and who may change the session (R27). -/

namespace Sys2Proof.Machine

/-! ### The frame -/

/-- What a part of an instruction that gives no response leaves alone: all but DST's bytes, the sequencer, the draws
and what was asked of the transport, to which it may add. -/
structure Unanswered (s t : State) : Prop where
  sess : t.sess = s.sess
  src : t.src = s.src
  size : t.dst.size = s.dst.size
  host : t.ports.host = s.ports.host
  rx : t.ports.rx = s.ports.rx
  resetPin : t.ports.resetPin = s.ports.resetPin
  responses : t.ports.responses = s.ports.responses
  transport : ∃ acts, t.ports.transport = s.ports.transport ++ acts

/-- The frame of an instruction: that of its parts, with at most one response. -/
structure Framed (s t : State) : Prop where
  sess : t.sess = s.sess
  src : t.src = s.src
  size : t.dst.size = s.dst.size
  host : t.ports.host = s.ports.host
  rx : t.ports.rx = s.ports.rx
  resetPin : t.ports.resetPin = s.ports.resetPin
  responses : t.ports.responses = s.ports.responses ∨ ∃ r, t.ports.responses = s.ports.responses ++ [r]
  transport : ∃ acts, t.ports.transport = s.ports.transport ++ acts

theorem Unanswered.refl (s : State) : Unanswered s s := ⟨rfl, rfl, rfl, rfl, rfl, rfl, rfl, [], by simp⟩

theorem Unanswered.trans {s t u : State} (h : Unanswered s t) (h' : Unanswered t u) : Unanswered s u := by
  obtain ⟨acts, hacts⟩ := h.transport
  obtain ⟨acts', hacts'⟩ := h'.transport
  exact ⟨h'.sess.trans h.sess, h'.src.trans h.src, h'.size.trans h.size, h'.host.trans h.host, h'.rx.trans h.rx,
    h'.resetPin.trans h.resetPin, h'.responses.trans h.responses, acts ++ acts',
    by rw [hacts', hacts, List.append_assoc]⟩

theorem Unanswered.framed {s t : State} (h : Unanswered s t) : Framed s t :=
  ⟨h.sess, h.src, h.size, h.host, h.rx, h.resetPin, .inl h.responses, h.transport⟩

/-- A part and then a response. -/
theorem Unanswered.respond {s t : State} (h : Unanswered s t) (r : Response) : Framed s (respond r t) :=
  ⟨h.sess, h.src, h.size, h.host, h.rx, h.resetPin, .inr ⟨r, congrArg (· ++ [r]) h.responses⟩, h.transport⟩

/-- A part and then the failure of the read. -/
theorem Unanswered.fail {s t u : State} {e : Err} (h : Unanswered s t) (hu : fail e t = .next u) : Framed s u := by
  obtain ⟨-, -, hsess, hsrc, -, hdst, hports⟩ := fail_eq_next hu
  have hframe : Unanswered t { u with ports := t.ports } :=
    ⟨hsess, hsrc, show u.dst.size = _ by rw [hdst, write_size], rfl, rfl, rfl, rfl, [], by simp⟩
  have heq : u = Machine.respond (.error e) { u with ports := t.ports } := by
    rw [Machine.respond, ← hports]
  rw [heq]
  exact (h.trans hframe).respond _

/-! ### The parts of a receive -/

theorem unanswered_sent (d : Bytes) (s : State) : Unanswered s (record (.sent d s.nextAnswer) s.answerUsed) :=
  ⟨rfl, rfl, rfl, rfl, rfl, rfl, rfl, _, rfl⟩

theorem unanswered_requested (s : State) : Unanswered s (requested s) := ⟨rfl, rfl, rfl, rfl, rfl, rfl, rfl, _, rfl⟩

theorem unanswered_advance (s : State) : Unanswered s (advance s) := by
  obtain ⟨hsess, hdst, hsrc, hports, -⟩ := advance_frame s
  exact ⟨hsess, hsrc, by rw [hdst], by rw [hports], by rw [hports], by rw [hports], by rw [hports], [],
    by simp [hports]⟩

theorem sendReadRequest_framed {s t u : State} (h : Unanswered s t) (hu : sendReadRequest t = .next u) :
    Framed s u := by
  have hreq := h.trans (unanswered_requested t)
  cases hans : t.nextAnswer with
  | ok =>
    rw [sendReadRequest_ok hans] at hu
    cases hu
    exact hreq.framed
  | ioError =>
    rw [sendReadRequest_ioError hans] at hu
    exact hreq.fail hu

theorem chunkDone_framed {s t u : State} (h : Unanswered s t) (hu : chunkDone t = .next u) : Framed s u := by
  have hadv := h.trans (unanswered_advance t)
  rw [chunkDone_eq] at hu
  split at hu
  · cases hu
    have hidle : Unanswered (advance t) { advance t with seq.state := .idle } :=
      ⟨rfl, rfl, rfl, rfl, rfl, rfl, rfl, [], by simp⟩
    exact (hadv.trans hidle).respond _
  · exact sendReadRequest_framed hadv hu

/-- Receiving a datagram keeps the frame, in every state. -/
theorem rxDatagram_framed {d : Bytes} {s t : State} (h : rxDatagram d s = .next t) : Framed s t := by
  obtain ⟨-, hr⟩ | ⟨-, f, -, ⟨e, -, hr⟩ | ⟨-, ⟨e, -, hr⟩ | ⟨start, size, -, hr⟩⟩⟩ := rxDatagram_cases d s
  · exact (Unanswered.refl s).fail (hr ▸ h)
  · exact (Unanswered.refl s).fail (hr ▸ h)
  · exact (Unanswered.refl s).fail (hr ▸ h)
  · obtain ⟨-, u, rfl, hlast⟩ := acceptFragment_eq_next (hr ▸ h)
    have hcopy : Unanswered s { s with
        dst := s.dst.write (s.seq.received.toNat + s.seq.cursor.toNat) (slice d start size)
        seq.cursor := s.seq.cursor + BitVec.ofNat 13 size } := ⟨rfl, rfl, rfl, rfl, rfl, rfl, rfl, [], by simp⟩
    rcases hlast with ⟨-, hdone⟩ | ⟨-, rfl⟩
    · exact chunkDone_framed hcopy hdone
    · exact hcopy.framed

/-! ### The write loop -/

/-- The loop of DMA_WRITE keeps the frame, in every state. -/
theorem writeLoop_framed {fuel p sent len : Nat} {s t u : State} (h : Unanswered s t)
    (hu : writeLoop fuel p sent len t = .next u) : Framed s u := by
  induction fuel generalizing p sent t with
  | zero =>
    unfold writeLoop at hu
    split at hu
    · cases hu
      exact h.respond _
    · cases hu
  | succ fuel ih =>
    unfold writeLoop at hu
    split at hu
    · cases hu
      exact h.respond _
    simp only [emit_eq] at hu
    split at hu
    · cases hu
      exact h.respond _
    next d _ =>
      have hsent := h.trans (unanswered_sent d t)
      cases hans : t.nextAnswer with
      | ok =>
        simp only [hans] at hu hsent
        exact ih hsent hu
      | ioError =>
        simp only [hans] at hu hsent
        cases hu
        exact hsent.respond _

/-! ### Instructions -/

/-- The record grows by acts that are no emission. -/
def AsksNoEmission (s t : State) : Prop :=
  ∃ acts, t.ports.transport = s.ports.transport ++ acts ∧ ∀ d a, TransportAct.sent d a ∉ acts

theorem mrrs_of_openOperandError {reqid tag mrrs dir : Nat} (h : openOperandError reqid tag mrrs dir = none) :
    1 ≤ mrrs := by
  unfold openOperandError at h
  grind

/-- OPEN in IDLE: one response; the session is the old one, or none was open and it is a new one with a legal MRRS; the
sequencer and the buffers stay. -/
theorem exec_openSession_outcome (reqid tag mrrs dir : BitVec 64) {s : State} (hs : s.seq.state = .idle) :
    ∃ (q : Session) (u : State) (r : Response), exec (.openSession reqid tag mrrs dir) s = .next (respond r u) ∧
      (q = s.sess ∨ (s.sess.isOpen = false ∧ q.isOpen = true ∧ 1 ≤ q.mrrs.toNat)) ∧
      Unanswered { s with sess := q } u ∧ u.seq = s.seq ∧ u.dst = s.dst ∧ AsksNoEmission s u := by
  have hnone : AsksNoEmission s s := ⟨[], by simp, by simp⟩
  rw [exec_openSession_idle reqid tag mrrs dir hs]
  split
  case isTrue => exact ⟨s.sess, s, _, rfl, .inl rfl, .refl s, rfl, rfl, hnone⟩
  case isFalse hclosed =>
    split
    case h_1 => exact ⟨s.sess, s, _, rfl, .inl rfl, .refl s, rfl, rfl, hnone⟩
    case h_2 hok =>
      have hm := mrrs_of_openOperandError hok
      have hopened (port : Nat) : AsksNoEmission s (record (.opened port s.nextAnswer) s.answerUsed) :=
        ⟨[.opened port s.nextAnswer], rfl, by simp⟩
      rw [openPort_eq]
      cases s.nextAnswer with
      | ok =>
        exact ⟨sessionOf reqid tag mrrs dir, _, _, rfl, .inr ⟨by simpa using hclosed, rfl, hm⟩,
          ⟨rfl, rfl, rfl, rfl, rfl, rfl, rfl, _, rfl⟩, rfl, rfl, [.opened _ .ok], rfl, by simp⟩
      | ioError =>
        exact ⟨s.sess, _, _, rfl, .inl rfl, ⟨rfl, rfl, rfl, rfl, rfl, rfl, rfl, _, rfl⟩, rfl, rfl,
          [.opened _ .ioError], rfl, by simp⟩

/-- CLOSE in IDLE: one response; the session is the old one, or one was open and it is the closed one; the sequencer and
the buffers stay. -/
theorem exec_closeSession_outcome {s : State} (hs : s.seq.state = .idle) :
    ∃ (q : Session) (u : State) (r : Response), exec .closeSession s = .next (respond r u) ∧
      (q = s.sess ∨ (s.sess.isOpen = true ∧ q = Session.reset)) ∧
      Unanswered { s with sess := q } u ∧ u.seq = s.seq ∧ u.dst = s.dst ∧ AsksNoEmission s u := by
  rw [exec_closeSession_idle hs]
  split
  case isTrue hopen =>
    exact ⟨.reset, _, _, rfl, .inr ⟨hopen, rfl⟩, ⟨rfl, rfl, rfl, rfl, rfl, rfl, rfl, _, rfl⟩, rfl, rfl,
      [.closed], rfl, by simp⟩
  case isFalse => exact ⟨s.sess, s, _, rfl, .inl rfl, .refl s, rfl, rfl, [], by simp, by simp⟩

/-- DMA_READ in IDLE: one response and nothing else, or a read that starts (R106). -/
theorem exec_dmaRead_cases (addr len : BitVec 64) {s : State} (hs : s.seq.state = .idle) :
    (∃ r, Answers (exec (.dmaRead addr len) s) s r) ∨
    (s.sess.isOpen = true ∧ len ≠ 0#64 ∧ addr.toNat + len.toNat ≤ 2 ^ 64 ∧ len.toNat ≤ s.dst.size ∧
      exec (.dmaRead addr len) s = sendReadRequest (withRead addr len s)) := by
  rw [exec_dmaRead_idle addr len hs]
  split
  · exact .inl ⟨_, rfl⟩
  split
  · exact .inl ⟨_, rfl⟩
  split
  · exact .inl ⟨_, rfl⟩
  split
  · exact .inl ⟨_, rfl⟩
  next hopen hlen htop hsize => exact .inr ⟨by simpa using hopen, hlen, Nat.not_lt.1 htop, Nat.not_lt.1 hsize, rfl⟩

/-- DMA_WRITE in IDLE: one response and nothing else, or the loop of a write with R108's requirements. -/
theorem exec_dmaWrite_cases (addr len : BitVec 64) {s : State} (hs : s.seq.state = .idle) :
    (∃ r, Answers (exec (.dmaWrite addr len) s) s r) ∨
    (s.sess.isOpen = true ∧ (1 ≤ s.sess.mrrs.toNat → CanWrite addr len s) ∧
      exec (.dmaWrite addr len) s = writeLoop len.toNat addr.toNat 0 len.toNat s) := by
  rw [exec_dmaWrite_idle addr len hs]
  split
  · exact .inl ⟨_, rfl⟩
  split
  · exact .inl ⟨_, rfl⟩
  split
  · exact .inl ⟨_, rfl⟩
  split
  · exact .inl ⟨_, rfl⟩
  split
  · exact .inl ⟨_, rfl⟩
  next hopen halign hmrrs htop hsize =>
    have hopen : s.sess.isOpen = true := by simpa using hopen
    refine .inr ⟨hopen, fun hm => ⟨hopen, hm, ?_, ?_, ?_, Nat.not_lt.1 htop, Nat.not_lt.1 hsize⟩, rfl⟩
    all_goals omega

/-- An answer and nothing else keeps the frame. -/
theorem framed_of_answers {o : Outcome} {s t : State} {r : Response} (h : Answers o s r) (ht : o = .next t) :
    Framed s t := by
  rw [h] at ht
  cases ht
  exact (Unanswered.refl s).respond r

/-- The frame of every instruction, in every state: CLOSE and OPEN may put another session in place first, and only
they. -/
theorem exec_framed {i : Instr} {s t : State} (h : exec i s = .next t) :
    ∃ q : Session, Framed { s with sess := q } t ∧
      (q = s.sess ∨ (s.seq.state = .idle ∧
        ((i = .closeSession ∧ s.sess.isOpen = true ∧ q = Session.reset) ∨
         (s.sess.isOpen = false ∧ q.isOpen = true ∧ ∃ reqid tag mrrs dir, i = .openSession reqid tag mrrs dir)))) := by
  cases hport : i.port with
  | rx =>
    refine ⟨s.sess, ?_, .inl rfl⟩
    rw [exec_wireForm hport] at h
    cases hs : s.seq.state with
    | idle =>
      rw [onReceive_idle hs] at h
      cases h
      exact (Unanswered.refl s).framed
    | rdRecv => exact rxDatagram_framed (onReceive_rdRecv hs _ ▸ h)
  | command =>
    cases hs : s.seq.state with
    | rdRecv =>
      rw [exec_command_rdRecv hport hs] at h
      cases h
      exact ⟨s.sess, (Unanswered.refl s).framed, .inl rfl⟩
    | idle =>
      obtain ⟨r, hpure⟩ | ⟨reqid, tag, mrrs, dir, rfl⟩ | rfl | ⟨addr, len, rfl⟩ | ⟨addr, len, rfl⟩ :=
        command_cases hport
      · exact ⟨s.sess, framed_of_answers (hpure s hs) h, .inl rfl⟩
      · obtain ⟨q, u, r, hexec, hq, hu, -⟩ := exec_openSession_outcome reqid tag mrrs dir hs
        rw [hexec] at h
        cases h
        exact ⟨q, hu.respond r, hq.imp_right fun ⟨hclosed, hopen, _⟩ =>
          ⟨rfl, .inr ⟨hclosed, hopen, reqid, tag, mrrs, dir, rfl⟩⟩⟩
      · obtain ⟨q, u, r, hexec, hq, hu, -⟩ := exec_closeSession_outcome hs
        rw [hexec] at h
        cases h
        exact ⟨q, hu.respond r, hq.imp_right fun ⟨hopen, hreset⟩ => ⟨rfl, .inl ⟨rfl, hopen, hreset⟩⟩⟩
      · refine ⟨s.sess, ?_, .inl rfl⟩
        obtain ⟨r, hans⟩ | ⟨-, -, -, -, hread⟩ := exec_dmaRead_cases addr len hs
        · exact framed_of_answers hans h
        · have hstart : Unanswered s (withRead addr len s) :=
            ⟨rfl, rfl, rfl, rfl, rfl, rfl, rfl, [], by simp [withRead]⟩
          exact sendReadRequest_framed hstart (hread ▸ h)
      · refine ⟨s.sess, ?_, .inl rfl⟩
        obtain ⟨r, hans⟩ | ⟨-, -, hwrite⟩ := exec_dmaWrite_cases addr len hs
        · exact framed_of_answers hans h
        · exact writeLoop_framed (.refl s) (hwrite ▸ h)

/-- Settles O55: the frame of `exec_framed`, whatever becomes of the session. -/
theorem instructionFrame : Obligations.InstructionFrame := by
  intro i s t h
  obtain ⟨q, hframe, -⟩ := exec_framed h
  exact ⟨hframe.src, hframe.size, hframe.host, hframe.rx, hframe.resetPin, hframe.responses, hframe.transport⟩

/-! ### Steps -/

/-- All that acting on what the host presents can do, when it answers a next state. -/
theorem hostStep_eq_next {act : HostAct} {s t : State} (hs : s.seq.state = .idle) (h : hostStep act s = .next t) :
    (∃ i, act = .command (encode i) ∧ i.port = .command ∧ exec i s = .next t) ∨ (∃ op, t = illegalOp op s) ∨
    (∃ a bs, s.dst.holds a bs.length = true ∧ t = { s with dst := s.dst.write a bs }) ∨
    (∃ a bs, s.src.holds a bs.length = true ∧ t = { s with src := s.src.write a bs }) := by
  cases act with
  | command image =>
    cases hd : decodeCommand image with
    | ok i =>
      rw [hostStep_command_ok hd] at h
      obtain ⟨henc, hport, -⟩ := encodeDecode .command image i hd
      exact .inl ⟨i, by rw [henc], hport, h⟩
    | error e =>
      rw [hostStep_command_error hd] at h
      cases e
      case badOpcode op =>
        rw [rejectedCommand, onCommand_idle hs] at h
        cases h
        exact .inr (.inl ⟨op, rfl⟩)
      all_goals cases h
  | writeDst a bs =>
    rw [hostStep, hostWriteDst] at h
    split at h
    case isFalse => cases h
    case isTrue hh =>
      cases h
      exact .inr (.inr (.inl ⟨a, bs, hh, rfl⟩))
  | writeSrc a bs =>
    rw [hostStep, hostWriteSrc] at h
    split at h
    case isFalse => cases h
    case isTrue hh =>
      cases h
      exact .inr (.inr (.inr ⟨a, bs, hh, rfl⟩))

/-- An idle block to which the host has presented nothing stays as it is (log 5). -/
theorem step_of_host_nil {s : State} (hpin : s.ports.resetPin = false) (hs : s.seq.state = .idle)
    (hhost : s.ports.host = []) : step s = .next s := by
  simp [step, fetch, hpin, hs, hhost]

/-- In RD_RECV a step is one receive (R139). -/
theorem step_rdRecv {s : State} (hpin : s.ports.resetPin = false) (hs : s.seq.state = .rdRecv) :
    step s = rxStep (receive s).1 (receive s).2 := by
  simp [step, fetch, hpin, hs]

/-- The meaning of the two events that are no datagram (R116, R117). -/
theorem rxStep_timeout {s : State} (hs : s.seq.state = .rdRecv) :
    rxStep .timeout s = fail (mkErr .timeout .none s.seq.received.toNat s.seq.cursor.toNat) s := by
  rw [rxStep, rxTimeout, onReceive_rdRecv hs]

theorem rxStep_ioError {s : State} (hs : s.seq.state = .rdRecv) :
    rxStep .ioError s = fail (mkErr .io .none 2 s.seq.received.toNat) s := by
  rw [rxStep, rxIoError, onReceive_rdRecv hs]

theorem rxStep_framed {event : RxEvent} {s t : State} (hs : s.seq.state = .rdRecv) (h : rxStep event s = .next t) :
    Framed s t := by
  cases event with
  | datagram d => exact rxDatagram_framed (rxStep_datagram hs d ▸ h)
  | timeout => exact (Unanswered.refl s).fail (rxStep_timeout hs ▸ h)
  | ioError => exact (Unanswered.refl s).fail (rxStep_ioError hs ▸ h)

/-- The frame of a step of a read: what a receive takes, and the frame of the event. -/
theorem step_rdRecv_framed {s t : State} (hpin : s.ports.resetPin = false) (hs : s.seq.state = .rdRecv)
    (h : step s = .next t) : Framed { s with draws := (receive s).2.draws, ports.rx := s.ports.rx.tail } t := by
  obtain ⟨hsess, hseq, hdst, hsrc, hports⟩ := receive_frame s
  have hreceived : (receive s).2 = { s with draws := (receive s).2.draws, ports.rx := s.ports.rx.tail } := by
    rw [← hsess, ← hseq, ← hdst, ← hsrc, ← hports]
  rw [step_rdRecv hpin hs, hreceived] at h
  exact rxStep_framed (s := { s with draws := (receive s).2.draws, ports.rx := s.ports.rx.tail }) hs h

/-- A step of an idle block that has been presented something. -/
theorem step_idle_cases {s t : State} (hpin : s.ports.resetPin = false) (hs : s.seq.state = .idle)
    (h : step s = .next t) :
    t = s ∨ ∃ act rest, s.ports.host = act :: rest ∧ hostStep act { s with ports.host := rest } = .next t := by
  cases hhost : s.ports.host with
  | nil =>
    rw [step_of_host_nil hpin hs hhost] at h
    cases h
    exact .inl rfl
  | cons act rest => exact .inr ⟨act, rest, rfl, step_of_hostAct hpin hs hhost ▸ h⟩

/-- Settles O12: a wire form is not accepted in IDLE, and nothing that a step from IDLE does takes an event. -/
theorem eventsStayWithTransport : Obligations.EventsStayWithTransport := by
  refine ⟨fun i s hport hs => exec_wireForm_idle hport hs, fun s t hs h => ?_⟩
  cases hpin : s.ports.resetPin with
  | true =>
    rw [step_of_resetPin hpin] at h
    cases h
    rfl
  | false =>
    obtain rfl | ⟨act, rest, -, hact⟩ := step_idle_cases hpin hs h
    · rfl
    obtain ⟨i, -, -, hexec⟩ | ⟨op, rfl⟩ | ⟨a, bs, -, rfl⟩ | ⟨a, bs, -, rfl⟩ :=
      hostStep_eq_next (s := { s with ports.host := rest }) hs hact
    · obtain ⟨q, hframe, -⟩ := exec_framed hexec
      exact hframe.rx
    all_goals rfl

/-- Settles O13: a receive takes nothing from the host, and neither does its event (`step_rdRecv_framed`). -/
theorem hostHeldDuringRead : Obligations.HostHeldDuringRead := by
  refine ⟨fun s t hs h => ?_, fun s hpin hs hhost => step_of_host_nil hpin hs hhost⟩
  cases hpin : s.ports.resetPin with
  | true =>
    rw [step_of_resetPin hpin] at h
    cases h
    rfl
  | false => exact (step_rdRecv_framed hpin hs h).host

/-- Settles O56: in RD_RECV no step changes the session, and in IDLE only the commands CLOSE and OPEN do
(`exec_framed`). -/
theorem sessionIsImmutable : Obligations.SessionIsImmutable := by
  intro s t hpin h hne
  cases hs : s.seq.state with
  | rdRecv => exact absurd (step_rdRecv_framed hpin hs h).sess hne
  | idle =>
    refine ⟨rfl, ?_⟩
    obtain rfl | ⟨act, rest, hhost, hact⟩ := step_idle_cases hpin hs h
    · exact absurd rfl hne
    obtain ⟨i, rfl, -, hexec⟩ | ⟨op, rfl⟩ | ⟨a, bs, -, rfl⟩ | ⟨a, bs, -, rfl⟩ :=
      hostStep_eq_next (s := { s with ports.host := rest }) hs hact
    · obtain ⟨q, hframe, rfl | ⟨-, ⟨rfl, hopen, rfl⟩ | ⟨hclosed, hopen, reqid, tag, mrrs, dir, rfl⟩⟩⟩ :=
        exec_framed hexec
      · exact absurd hframe.sess hne
      · exact .inl ⟨hopen, hframe.sess, rest, hhost⟩
      · exact .inr ⟨hclosed, (congrArg Session.isOpen hframe.sess).trans hopen, _, rest, hhost⟩
    all_goals exact absurd rfl hne

end Sys2Proof.Machine
end

section
/-! PROOFS. The invariant (10_state.md sections 2 to 4): every step keeps it, and from a state that has it every
instruction answers. -/

namespace Sys2Proof.Machine

/-! ### The invariant and the parts of a read -/

/-- The invariant is about the registers and the buffers. -/
theorem inv_congr {s t : State} (h : s.Inv) (hsess : t.sess = s.sess) (hseq : t.seq = s.seq) (hdst : t.dst = s.dst)
    (hsrc : t.src = s.src) : t.Inv := by
  obtain ⟨sess, seq, dst, src, draws, ports⟩ := t
  cases hsess
  cases hseq
  cases hdst
  cases hsrc
  exact h

/-- In IDLE the invariant says nothing of a read. -/
theorem inv_idle {s : State} (hs : s.seq.state = .idle) (hsess : SessionInv s.sess)
    (hcursor : s.seq.cursor.toNat ≤ s.seq.chunk.toNat) (hchunk : s.seq.chunk.toNat ≤ 4096) (hdst : s.dst.wf = true)
    (hsrc : s.src.wf = true) : s.Inv :=
  ⟨hsess, fun h => absurd (hs.symm.trans h) (by decide), hcursor, hchunk, hdst, hsrc⟩

/-- The failure of a read answers, and the block is back in IDLE with the invariant. -/
theorem fail_keeps_inv (e : Err) {s : State} (h : s.Inv) (hs : s.seq.state = .rdRecv) :
    ∃ t, fail e s = .next t ∧ t.Inv := by
  have hlen := inv_len_le_dst h hs
  have hholds : s.dst.holds 0 s.seq.len.toNat = true := (holds_iff ..).2 (.inr (by omega))
  obtain ⟨hsess, -, hcursor, hchunk, hdst, hsrc⟩ := h
  refine ⟨_, fail_holds e s hholds, inv_idle rfl hsess hcursor hchunk ?_ hsrc⟩
  exact buffer_write_keeps_wf _ _ _ hdst (by simpa using hholds)

/-- A read that goes on has a request to send: a session is open, bytes remain, and they lie inside DST and the address
space. -/
def CanRequest (s : State) : Prop :=
  SessionInv s.sess ∧ s.sess.isOpen = true ∧ s.seq.received.toNat < s.seq.len.toNat ∧ s.seq.len.toNat ≤ s.dst.size ∧
    s.seq.p.toNat + (s.seq.len.toNat - s.seq.received.toNat) ≤ 2 ^ 64 ∧ s.dst.wf = true ∧ s.src.wf = true

theorem requested_chunk (s : State) : (requested s).seq.chunk.toNat = nextChunk s := chunkLength_ofNat_toNat ..

/-- With its request sent, the read is one the invariant describes. -/
theorem requested_inv {s : State} (h : CanRequest s) : (requested s).Inv := by
  obtain ⟨hsess, hopen, hmore, hlen, htop, hdst, hsrc⟩ := h
  have hchunk := requested_chunk s
  have hle := chunkLength_le_remaining s.seq.p.toNat (s.seq.len.toNat - s.seq.received.toNat) s.sess.mrrs.toNat
  have hpage := chunkLength_le_pageRest s.seq.p.toNat (s.seq.len.toNat - s.seq.received.toNat) s.sess.mrrs.toNat
  have hpos := chunkLength_pos (addr := s.seq.p.toNat) (remaining := s.seq.len.toNat - s.seq.received.toNat) (by omega)
    (hsess.2 hopen)
  rw [nextChunk] at hchunk
  refine ⟨hsess, fun _ => ⟨hopen, ?_, ?_, hchunk, hlen, htop⟩, Nat.zero_le _, ?_, hdst, hsrc⟩
  · rw [hchunk]
    show s.seq.received.toNat + _ ≤ s.seq.len.toNat
    omega
  · omega
  · omega

/-- `send_read_request()` answers, whatever the transport does. -/
theorem sendReadRequest_inv {s : State} (h : CanRequest s) : ∃ t, sendReadRequest s = .next t ∧ t.Inv := by
  cases hans : s.nextAnswer with
  | ok => exact ⟨_, sendReadRequest_ok hans, requested_inv h⟩
  | ioError =>
    rw [sendReadRequest_ioError hans]
    exact fail_keeps_inv _ (requested_inv h) rfl

/-- The outstanding chunk, with the bounds that the invariant gives. -/
theorem inv_read {s : State} (h : s.Inv) (hs : s.seq.state = .rdRecv) :
    s.seq.received.toNat + s.seq.chunk.toNat ≤ s.seq.len.toNat ∧ 1 ≤ s.seq.chunk.toNat ∧
      s.seq.cursor.toNat ≤ s.seq.chunk.toNat ∧ s.seq.chunk.toNat ≤ 4096 ∧ s.seq.len.toNat ≤ s.dst.size ∧
      s.seq.p.toNat + (s.seq.len.toNat - s.seq.received.toNat) ≤ 2 ^ 64 := by
  obtain ⟨-, hread, hcursor, hchunk, -⟩ := h
  obtain ⟨-, hfit, hpos, -, hlen, htop⟩ := hread hs
  exact ⟨hfit, hpos, hcursor, hchunk, hlen, htop⟩

theorem copied_cursor_toNat {bs : Bytes} {s : State} (h : s.Inv)
    (hbs : bs.length ≤ s.seq.chunk.toNat - s.seq.cursor.toNat) :
    (copied bs s).seq.cursor.toNat = s.seq.cursor.toNat + bs.length := by
  obtain ⟨-, -, hcursor, hchunk, -⟩ := h
  rw [copied, BitVec.toNat_add, BitVec.toNat_ofNat]
  omega

/-- A copy inside the window keeps the invariant. -/
theorem copied_inv {bs : Bytes} {s : State} (h : s.Inv) (hs : s.seq.state = .rdRecv)
    (hbs : bs.length ≤ s.seq.chunk.toNat - s.seq.cursor.toNat) : (copied bs s).Inv := by
  obtain ⟨hfit, -, hle, -, hlen, -⟩ := inv_read h hs
  have hcursor := copied_cursor_toNat h hbs
  obtain ⟨hsess, hread, -, hchunk, hdst, hsrc⟩ := h
  refine ⟨hsess, hread, ?_, hchunk, ?_, hsrc⟩
  · rw [hcursor]
    show _ ≤ s.seq.chunk.toNat
    omega
  · exact buffer_write_keeps_wf _ _ _ hdst ((holds_iff ..).2 (.inr (by omega)))

/-- Past a chunk that is not the last there is a request to send. -/
theorem advance_canRequest {s : State} (h : s.Inv) (hs : s.seq.state = .rdRecv)
    (hmore : s.seq.received.toNat + s.seq.chunk.toNat < s.seq.len.toNat) : CanRequest (advance s) := by
  obtain ⟨-, -, -, -, hlen, htop⟩ := inv_read h hs
  have hlt := s.seq.len.isLt
  obtain ⟨hsess, hread, -, -, hdst, hsrc⟩ := h
  obtain ⟨hopen, -⟩ := hread hs
  rw [advance_eq (by omega)]
  refine ⟨hsess, hopen, ?_, hlen, ?_, hdst, hsrc⟩
  all_goals
    simp only [BitVec.toNat_ofNat]
    omega

/-- The end of a chunk: the read is done, or there is another request to send (R115). -/
theorem chunkDone_cases {s : State} (h : s.Inv) (hs : s.seq.state = .rdRecv) :
    chunkDone s = .next (respond (.ok .done) { advance s with seq.state := .idle }) ∨
    (chunkDone s = sendReadRequest (advance s) ∧ CanRequest (advance s)) := by
  obtain ⟨hfit, -⟩ := inv_read h hs
  rcases Nat.eq_or_lt_of_le hfit with hlast | hmore
  · exact .inl (chunkDone_last hlast)
  · exact .inr ⟨chunkDone_next hmore, advance_canRequest h hs hmore⟩

theorem chunkDone_inv {s : State} (h : s.Inv) (hs : s.seq.state = .rdRecv) : ∃ t, chunkDone s = .next t ∧ t.Inv := by
  obtain hdone | ⟨hnext, hcan⟩ := chunkDone_cases h hs
  · obtain ⟨hsess, hdst, hsrc, -, -, -, hchunk, hcursor⟩ := advance_frame s
    obtain ⟨hsess', -, hcursor', hchunk', hdst', hsrc'⟩ := h
    refine ⟨_, hdone, inv_idle rfl ?_ ?_ ?_ ?_ ?_⟩
    · exact hsess.symm ▸ hsess'
    · exact hchunk.symm ▸ hcursor.symm ▸ hcursor'
    · exact hchunk.symm ▸ hchunk'
    · exact hdst.symm ▸ hdst'
    · exact hsrc.symm ▸ hsrc'
  · rw [hnext]
    exact sendReadRequest_inv hcan

/-- R114 in a state with the invariant: the read fails, or bytes are copied into the window, and then the chunk may be
done. -/
theorem rxDatagram_read_cases (d : Bytes) {s : State} (h : s.Inv) (hs : s.seq.state = .rdRecv) :
    (∃ e, rxDatagram d s = fail e s) ∨
    (∃ bs, bs.length ≤ s.seq.chunk.toNat - s.seq.cursor.toNat ∧
      (rxDatagram d s = .next (copied bs s) ∨ rxDatagram d s = chunkDone (copied bs s))) := by
  obtain ⟨hfit, -, hle, -, hlen, -⟩ := inv_read h hs
  obtain ⟨-, hr⟩ | ⟨-, f, -, ⟨e, -, hr⟩ | ⟨-, ⟨e, -, hr⟩ | ⟨start, size, hspan, hr⟩⟩⟩ := rxDatagram_cases d s
  · exact .inl ⟨_, hr⟩
  · exact .inl ⟨e, hr⟩
  · exact .inl ⟨e, hr⟩
  · obtain ⟨-, -, -, hdgram, hdest⟩ := cplSpan_ok hspan
    have hslice : (slice d start size).length = size := by
      simp only [slice, List.length_take, List.length_drop]
      omega
    refine .inr ⟨slice d start size, by omega, ?_⟩
    rw [hr, acceptFragment_eq hslice (by omega)]
    split
    · exact .inr rfl
    · exact .inl rfl

theorem rxDatagram_inv (d : Bytes) {s : State} (h : s.Inv) (hs : s.seq.state = .rdRecv) :
    ∃ t, rxDatagram d s = .next t ∧ t.Inv := by
  obtain ⟨e, hr⟩ | ⟨bs, hbs, hr | hr⟩ := rxDatagram_read_cases d h hs
  · rw [hr]
    exact fail_keeps_inv e h hs
  · exact ⟨_, hr, copied_inv h hs hbs⟩
  · rw [hr]
    exact chunkDone_inv (copied_inv h hs hbs) hs

theorem rxStep_inv (event : RxEvent) {s : State} (h : s.Inv) (hs : s.seq.state = .rdRecv) :
    ∃ t, rxStep event s = .next t ∧ t.Inv := by
  cases event with
  | datagram d =>
    rw [rxStep_datagram hs]
    exact rxDatagram_inv d h hs
  | timeout =>
    rw [rxStep_timeout hs]
    exact fail_keeps_inv _ h hs
  | ioError =>
    rw [rxStep_ioError hs]
    exact fail_keeps_inv _ h hs

/-! ### Commands -/

/-- A command of the session in IDLE keeps the invariant when it leaves a legal session. -/
theorem inv_of_unanswered {q : Session} {s u : State} (r : Response) (h : s.Inv) (hs : s.seq.state = .idle)
    (hq : SessionInv q) (hu : Unanswered { s with sess := q } u) (hseq : u.seq = s.seq) (hdst : u.dst = s.dst) :
    (respond r u).Inv := by
  obtain ⟨-, -, hcursor, hchunk, hwf, hwf'⟩ := h
  exact inv_congr (s := { s with sess := q }) (inv_idle hs hq hcursor hchunk hwf hwf') hu.sess hseq hdst hu.src

/-- A read that starts has a request to send (R106). -/
theorem withRead_canRequest {addr len : BitVec 64} {s : State} (h : s.Inv) (hopen : s.sess.isOpen = true)
    (hlen : len ≠ 0#64) (htop : addr.toNat + len.toNat ≤ 2 ^ 64) (hsize : len.toNat ≤ s.dst.size) :
    CanRequest (withRead addr len s) := by
  obtain ⟨hsess, -, -, -, hdst, hsrc⟩ := h
  have hpos : 0 < len.toNat := Nat.pos_of_ne_zero fun h0 => hlen (BitVec.eq_of_toNat_eq h0)
  exact ⟨hsess, hopen, hpos, hsize, htop, hdst, hsrc⟩

/-- From a state with the invariant every instruction answers a next state with the invariant. -/
theorem exec_inv (i : Instr) {s : State} (h : s.Inv) : ∃ t, exec i s = .next t ∧ t.Inv := by
  have hsess := h.1
  cases hport : i.port with
  | rx =>
    rw [exec_wireForm hport]
    cases hs : s.seq.state with
    | idle => exact ⟨s, onReceive_idle hs _, h⟩
    | rdRecv =>
      rw [onReceive_rdRecv hs]
      exact rxDatagram_inv _ h hs
  | command =>
    cases hs : s.seq.state with
    | rdRecv => exact ⟨s, exec_command_rdRecv hport hs, h⟩
    | idle =>
      obtain ⟨r, hpure⟩ | ⟨reqid, tag, mrrs, dir, rfl⟩ | rfl | ⟨addr, len, rfl⟩ | ⟨addr, len, rfl⟩ :=
        command_cases hport
      · exact ⟨_, hpure s hs, inv_congr h rfl rfl rfl rfl⟩
      · obtain ⟨q, u, r, hexec, hq, hu, hseq, hdst, -⟩ := exec_openSession_outcome reqid tag mrrs dir hs
        have hq : SessionInv q := by
          obtain rfl | ⟨-, hopen, hm⟩ := hq
          · exact hsess
          · exact ⟨fun hclosed => by simp [hclosed] at hopen, fun _ => hm⟩
        exact ⟨_, hexec, inv_of_unanswered r h hs hq hu hseq hdst⟩
      · obtain ⟨q, u, r, hexec, hq, hu, hseq, hdst, -⟩ := exec_closeSession_outcome hs
        have hq : SessionInv q := by
          obtain rfl | ⟨-, rfl⟩ := hq
          · exact hsess
          · exact sessionInv_reset
        exact ⟨_, hexec, inv_of_unanswered r h hs hq hu hseq hdst⟩
      · obtain ⟨r, hans⟩ | ⟨hopen, hlen, htop, hsize, hread⟩ := exec_dmaRead_cases addr len hs
        · exact ⟨_, hans, inv_congr h rfl rfl rfl rfl⟩
        · rw [hread]
          exact sendReadRequest_inv (withRead_canRequest h hopen hlen htop hsize)
      · obtain ⟨r, hans⟩ | ⟨hopen, hcan, -⟩ := exec_dmaWrite_cases addr len hs
        · exact ⟨_, hans, inv_congr h rfl rfl rfl rfl⟩
        · obtain ⟨t, r, hexec, hsess, hseq, hdst, hsrc, -⟩ := dmaWriteAnswers addr len s hs (hcan (hsess.2 hopen))
          exact ⟨t, hexec, inv_congr h hsess hseq hdst hsrc⟩

/-! ### Steps -/

/-- A step of a read answers, and keeps the invariant. -/
theorem step_rdRecv_inv {s : State} (h : s.Inv) (hpin : s.ports.resetPin = false) (hs : s.seq.state = .rdRecv) :
    ∃ t, step s = .next t ∧ t.Inv := by
  obtain ⟨hsess, hseq, hdst, hsrc, -⟩ := receive_frame s
  rw [step_rdRecv hpin hs]
  exact rxStep_inv _ (inv_congr h hsess hseq hdst hsrc) (hseq.symm ▸ hs)

/-- Settles O53, by what the step takes: the reset input, what the host presents, or an event. -/
theorem stepKeepsInvariant : Obligations.StepKeepsInvariant := by
  intro s t h hstep
  cases hpin : s.ports.resetPin with
  | true =>
    rw [step_of_resetPin hpin] at hstep
    cases hstep
    exact inv_idle rfl sessionInv_reset (Nat.le_refl 0) (Nat.zero_le _) (buffer_empty_wf ..) (buffer_empty_wf ..)
  | false =>
    cases hs : s.seq.state with
    | rdRecv =>
      obtain ⟨u, hu, hinv⟩ := step_rdRecv_inv h hpin hs
      cases hstep.symm.trans hu
      exact hinv
    | idle =>
      obtain rfl | ⟨act, rest, -, hact⟩ := step_idle_cases hpin hs hstep
      · exact h
      have h' : State.Inv { s with ports.host := rest } := h
      obtain ⟨hsess, -, hcursor, hchunk, hdst, hsrc⟩ := h
      obtain ⟨i, -, -, hexec⟩ | ⟨op, rfl⟩ | ⟨a, bs, hh, rfl⟩ | ⟨a, bs, hh, rfl⟩ :=
        hostStep_eq_next (s := { s with ports.host := rest }) hs hact
      · obtain ⟨u, hu, hinv⟩ := exec_inv i h'
        cases hexec.symm.trans hu
        exact hinv
      · exact inv_congr h' rfl rfl rfl rfl
      · exact inv_idle hs hsess hcursor hchunk (buffer_write_keeps_wf _ a bs hdst hh) hsrc
      · exact inv_idle hs hsess hcursor hchunk hdst (buffer_write_keeps_wf _ a bs hsrc hh)

/-- Acting on what the host presents answers, or stops for a reason that lies with the host. -/
theorem hostStep_total (act : HostAct) {s : State} (h : s.Inv) (hs : s.seq.state = .idle) :
    (∃ t, hostStep act s = .next t) ∨ hostStep act s = .fault .hostOutsideBuffer ∨
      hostStep act s = .refused .notACommand := by
  cases act with
  | command image =>
    cases hd : decodeCommand image with
    | ok i =>
      obtain ⟨t, ht, -⟩ := exec_inv i h
      exact .inl ⟨t, (hostStep_command_ok hd s).trans ht⟩
    | error e =>
      rw [hostStep_command_error hd]
      cases e
      case badOpcode op => exact .inl ⟨_, onCommand_idle hs _⟩
      all_goals exact .inr (.inr rfl)
  | writeDst a bs =>
    rw [hostStep, hostWriteDst]
    split
    · exact .inl ⟨_, rfl⟩
    · exact .inr (.inl rfl)
  | writeSrc a bs =>
    rw [hostStep, hostWriteSrc]
    split
    · exact .inl ⟨_, rfl⟩
    · exact .inr (.inl rfl)

/-- Settles O54: a reset and a receive always answer, and what the host presents is `hostStep_total`. -/
theorem onlyTheHostCanStopTheBlock : Obligations.OnlyTheHostCanStopTheBlock := by
  intro s h
  cases hpin : s.ports.resetPin with
  | true => exact .inl ⟨_, step_of_resetPin hpin⟩
  | false =>
    cases hs : s.seq.state with
    | rdRecv =>
      obtain ⟨t, ht, -⟩ := step_rdRecv_inv h hpin hs
      exact .inl ⟨t, ht⟩
    | idle =>
      cases hhost : s.ports.host with
      | nil => exact .inl ⟨s, step_of_host_nil hpin hs hhost⟩
      | cons act rest =>
        rw [step_of_hostAct hpin hs hhost]
        exact hostStep_total act (s := { s with ports.host := rest }) h hs

/-- Settles O60: the event is the one `receive` answers, and the step is its meaning. -/
theorem everyReceiveIsAnswered : Obligations.EveryReceiveIsAnswered := by
  intro s hpin hs
  obtain ⟨-, hseq, -⟩ := receive_frame s
  have hs' : (receive s).2.seq.state = .rdRecv := hseq.symm ▸ hs
  refine ⟨(receive s).1, (receive s).2, ?_, ?_, fun h => ?_⟩
  · obtain ⟨event, rest, hrx, hr⟩ | ⟨hrx, hr⟩ := receive_cases s
    · exact .inl ⟨rest, by rw [hrx, hr], by rw [hr]⟩
    · exact .inr ⟨hrx, by rw [hr], by rw [hr]⟩
  · rw [step_rdRecv hpin hs]
    cases (receive s).1 with
    | datagram d => exact rxStep_datagram hs' d
    | timeout => exact hseq ▸ rxStep_timeout hs'
    | ioError => exact hseq ▸ rxStep_ioError hs'
  · obtain ⟨t, ht, -⟩ := step_rdRecv_inv h hpin hs
    exact ⟨t, ht⟩

end Sys2Proof.Machine
end

section
/-! PROOFS. What a step may write of DST (70_reset_and_hazards.md R150) and what it may emit (20_memory.md R38). -/

namespace Sys2Proof.Machine

/-! ### The window (R150, R120) -/

/-- Byte `a` of DST is as it was, unless the read that holds it has ended in an error. -/
def KeepsByte (s t : State) (a : Nat) : Prop :=
  t.dst.byte a = s.dst.byte a ∨
    (a < s.seq.len.toNat ∧ ∃ e, t.ports.responses = s.ports.responses ++ [.error e])

/-- The failure of a read draws the bytes of the read and no others. -/
theorem fail_keepsByte {e : Err} {s t : State} (h : fail e s = .next t) (a : Nat) : KeepsByte s t a := by
  obtain ⟨-, -, -, -, -, hdst, hports⟩ := fail_eq_next h
  by_cases ha : a < s.seq.len.toNat
  · exact .inr ⟨ha, e, by rw [hports]⟩
  · refine .inl ?_
    rw [hdst]
    exact byte_write_outside _ _ _ _ (.inr (by simpa using ha))

theorem sendReadRequest_keepsByte {s t : State} (h : sendReadRequest s = .next t) (a : Nat) : KeepsByte s t a := by
  cases hans : s.nextAnswer with
  | ok =>
    rw [sendReadRequest_ok hans] at h
    cases h
    exact .inl rfl
  | ioError =>
    rw [sendReadRequest_ioError hans] at h
    exact fail_keepsByte (s := requested s) h a

theorem chunkDone_keepsByte {s t : State} (h : chunkDone s = .next t) (a : Nat) : KeepsByte s t a := by
  obtain ⟨-, hdst, -, hports, -, hlen, -⟩ := advance_frame s
  rw [chunkDone_eq] at h
  split at h
  · cases h
    exact .inl (congrArg (fun b : Buffer => b.byte a) hdst)
  · have hkeep := sendReadRequest_keepsByte h a
    rwa [KeepsByte, hdst, hports, hlen] at hkeep

/-- A copy writes inside the window of the outstanding chunk. -/
theorem copied_byte_outside {bs : Bytes} {s : State} {a : Nat} (hcursor : s.seq.cursor.toNat ≤ s.seq.chunk.toNat)
    (hbs : bs.length ≤ s.seq.chunk.toNat - s.seq.cursor.toNat)
    (ha : a < s.seq.received.toNat ∨ s.seq.received.toNat + s.seq.chunk.toNat ≤ a) :
    (copied bs s).dst.byte a = s.dst.byte a :=
  byte_write_outside _ _ _ _ (by omega)

theorem rxDatagram_keepsByte {d : Bytes} {s t : State} (hinv : s.Inv) (hs : s.seq.state = .rdRecv)
    (h : rxDatagram d s = .next t) {a : Nat}
    (ha : a < s.seq.received.toNat ∨ s.seq.received.toNat + s.seq.chunk.toNat ≤ a) : KeepsByte s t a := by
  obtain ⟨-, -, hcursor, -⟩ := inv_read hinv hs
  obtain ⟨e, hr⟩ | ⟨bs, hbs, hr | hr⟩ := rxDatagram_read_cases d hinv hs
  · exact fail_keepsByte (hr ▸ h) a
  · cases hr.symm.trans h
    exact .inl (copied_byte_outside hcursor hbs ha)
  · have hkeep := chunkDone_keepsByte (hr ▸ h) a
    rwa [KeepsByte, copied_byte_outside hcursor hbs ha] at hkeep

/-- Settles O57, by the three events. -/
theorem writesStayInWindow : Obligations.WritesStayInWindow := by
  intro s t h hpin hs hstep a ha
  obtain ⟨hsess, hseq, hdst, hsrc, hports⟩ := receive_frame s
  have hinv := inv_congr h hsess hseq hdst hsrc
  rw [step_rdRecv hpin hs] at hstep
  generalize (receive s).2 = u at *
  rw [← hseq] at hs ha
  have hkeep : KeepsByte u t a := by
    cases hevent : (receive s).1 with
    | datagram d => exact rxDatagram_keepsByte hinv hs (by rw [← rxStep_datagram hs, ← hevent, hstep]) ha
    | timeout => exact fail_keepsByte (by rw [← rxStep_timeout hs, ← hevent, hstep]) a
    | ioError => exact fail_keepsByte (by rw [← rxStep_ioError hs, ← hevent, hstep]) a
  rwa [KeepsByte, hdst, hseq, hports] at hkeep

/-! ### The emissions (R38, R86) -/

/-- The step from `s` to `t` emits legal requests of the session of `s` and nothing else. -/
def EmitsLegal (s t : State) : Prop :=
  ∃ acts, t.ports.transport = s.ports.transport ++ acts ∧
    ∀ d answer, TransportAct.sent d answer ∈ acts →
      s.sess.isOpen = true ∧
      ∃ (write : Bool) (p n : Nat) (payload : Bytes),
        d = requestDatagram s.sess write p n payload ∧ LegalRequest s.sess.mrrs.toNat p n ∧
        (write = true → p % 4 = 0 ∧ n % 4 = 0 ∧ payload.length = n) ∧ (write = false → payload = [])

theorem emitsLegal_of_eq {s t : State} (h : t.ports.transport = s.ports.transport) : EmitsLegal s t :=
  ⟨[], by simp [h], by simp⟩

theorem emitsLegal_of_asksNoEmission {s t : State} (h : AsksNoEmission s t) : EmitsLegal s t := by
  obtain ⟨acts, hacts, hnone⟩ := h
  exact ⟨acts, hacts, fun d a hd => absurd hd (hnone d a)⟩

theorem emitsLegal_of_answers {o : Outcome} {s t : State} {r : Response} (h : Answers o s r) (ht : o = .next t) :
    EmitsLegal s t := by
  rw [h] at ht
  cases ht
  exact emitsLegal_of_eq rfl

theorem fail_transport {e : Err} {s t : State} (h : fail e s = .next t) : t.ports.transport = s.ports.transport := by
  obtain ⟨-, -, -, -, -, -, hports⟩ := fail_eq_next h
  rw [hports]

/-- The read request for the next chunk is legal. -/
theorem requested_emitsLegal {s : State} (h : CanRequest s) : EmitsLegal s (requested s) := by
  obtain ⟨hsess, hopen, hmore, -⟩ := h
  refine ⟨[.sent _ _], rfl, fun d a hd => ?_⟩
  cases List.mem_singleton.1 hd
  exact ⟨hopen, false, _, _, [], rfl, chunkLength_legal (by omega) (hsess.2 hopen) s.seq.p.isLt, by simp, fun _ => rfl⟩

theorem sendReadRequest_emitsLegal {s t : State} (h : CanRequest s) (ht : sendReadRequest s = .next t) :
    EmitsLegal s t := by
  cases hans : s.nextAnswer with
  | ok =>
    rw [sendReadRequest_ok hans] at ht
    cases ht
    exact requested_emitsLegal h
  | ioError =>
    rw [sendReadRequest_ioError hans] at ht
    have hlegal := requested_emitsLegal h
    rwa [EmitsLegal, ← fail_transport ht] at hlegal

theorem chunkDone_emitsLegal {s t : State} (h : s.Inv) (hs : s.seq.state = .rdRecv) (ht : chunkDone s = .next t) :
    EmitsLegal s t := by
  obtain ⟨hsess, -, -, hports, -⟩ := advance_frame s
  obtain hdone | ⟨hnext, hcan⟩ := chunkDone_cases h hs
  · cases hdone.symm.trans ht
    exact emitsLegal_of_eq (show (advance s).ports.transport = _ by rw [hports])
  · have hlegal := sendReadRequest_emitsLegal hcan (hnext ▸ ht)
    rwa [EmitsLegal, hsess, hports] at hlegal

theorem rxDatagram_emitsLegal {d : Bytes} {s t : State} (h : s.Inv) (hs : s.seq.state = .rdRecv)
    (ht : rxDatagram d s = .next t) : EmitsLegal s t := by
  obtain ⟨e, hr⟩ | ⟨bs, hbs, hr | hr⟩ := rxDatagram_read_cases d h hs
  · exact emitsLegal_of_eq (fail_transport (hr ▸ ht))
  · cases hr.symm.trans ht
    exact emitsLegal_of_eq rfl
  · exact chunkDone_emitsLegal (s := copied bs s) (copied_inv h hs hbs) hs (hr ▸ ht)

/-- The requests of a write that is allowed are legal: a chunk is a legal request, and of whole DWs. -/
theorem dmaWrite_emitsLegal {addr len : BitVec 64} {s t : State} (hs : s.seq.state = .idle) (hcan : CanWrite addr len s)
    (ht : exec (.dmaWrite addr len) s = .next t) : EmitsLegal s t := by
  rw [exec_dmaWrite_of_canWrite hs hcan] at ht
  obtain ⟨hopen, hm, haddr, hlen, hm4, htop, -⟩ := hcan
  simp only [Config.addressTop] at htop
  obtain ⟨refused, u, heq, -, -, -, -, -, -, acts, hacts, hsent⟩ :=
    sendChunks_frame (writeDatagram s addr.toNat) (chunks addr.toNat len.toNat s.sess.mrrs.toNat) s
  rw [heq] at ht
  cases ht
  refine ⟨acts, hacts, fun d a hd => ?_⟩
  obtain ⟨c, hc, rfl⟩ := hsent d a hd
  obtain ⟨hlow, hhigh, hn⟩ := chunk_of_mem hm hc
  obtain ⟨hp4, hn4⟩ := chunks_mod4 hm haddr hlen hm4 c hc
  refine ⟨hopen, true, c.1, c.2, _, rfl, ?_, fun _ => ⟨hp4, hn4, by simp⟩, by simp⟩
  rw [hn]
  exact chunkLength_legal (by omega) hm (by omega)

theorem exec_emitsLegal {i : Instr} {s t : State} (h : s.Inv) (ht : exec i s = .next t) : EmitsLegal s t := by
  have hsess := h.1
  cases hport : i.port with
  | rx =>
    rw [exec_wireForm hport] at ht
    cases hs : s.seq.state with
    | idle =>
      rw [onReceive_idle hs] at ht
      cases ht
      exact emitsLegal_of_eq rfl
    | rdRecv => exact rxDatagram_emitsLegal h hs (onReceive_rdRecv hs _ ▸ ht)
  | command =>
    cases hs : s.seq.state with
    | rdRecv =>
      rw [exec_command_rdRecv hport hs] at ht
      cases ht
      exact emitsLegal_of_eq rfl
    | idle =>
      obtain ⟨r, hpure⟩ | ⟨reqid, tag, mrrs, dir, rfl⟩ | rfl | ⟨addr, len, rfl⟩ | ⟨addr, len, rfl⟩ :=
        command_cases hport
      · exact emitsLegal_of_answers (hpure s hs) ht
      · obtain ⟨q, u, r, hexec, -, -, -, -, hnone⟩ := exec_openSession_outcome reqid tag mrrs dir hs
        cases hexec.symm.trans ht
        exact emitsLegal_of_asksNoEmission hnone
      · obtain ⟨q, u, r, hexec, -, -, -, -, hnone⟩ := exec_closeSession_outcome hs
        cases hexec.symm.trans ht
        exact emitsLegal_of_asksNoEmission hnone
      · obtain ⟨r, hans⟩ | ⟨hopen, hlen, htop, hsize, hread⟩ := exec_dmaRead_cases addr len hs
        · exact emitsLegal_of_answers hans ht
        · exact sendReadRequest_emitsLegal (s := withRead addr len s)
            (withRead_canRequest h hopen hlen htop hsize) (hread ▸ ht)
      · obtain ⟨r, hans⟩ | ⟨hopen, hcan, -⟩ := exec_dmaWrite_cases addr len hs
        · exact emitsLegal_of_answers hans ht
        · exact dmaWrite_emitsLegal hs (hcan (hsess.2 hopen)) ht

/-- Settles O58: only the commands of a transfer and the end of a chunk emit, and they emit chunks
(`chunkLength_legal`). -/
theorem emittedRequestsAreLegal : Obligations.EmittedRequestsAreLegal := by
  intro s t h hstep
  show EmitsLegal s t
  cases hpin : s.ports.resetPin with
  | true =>
    rw [step_of_resetPin hpin] at hstep
    cases hstep
    exact emitsLegal_of_eq rfl
  | false =>
    cases hs : s.seq.state with
    | rdRecv =>
      obtain ⟨hsess, hseq, hdst, hsrc, hports⟩ := receive_frame s
      have hinv := inv_congr h hsess hseq hdst hsrc
      have hs' := hseq.symm ▸ hs
      rw [step_rdRecv hpin hs] at hstep
      have hlegal : EmitsLegal (receive s).2 t := by
        cases hevent : (receive s).1 with
        | datagram d => exact rxDatagram_emitsLegal hinv hs' (by rw [← rxStep_datagram hs', ← hevent, hstep])
        | timeout => exact emitsLegal_of_eq (fail_transport (by rw [← rxStep_timeout hs', ← hevent, hstep]))
        | ioError => exact emitsLegal_of_eq (fail_transport (by rw [← rxStep_ioError hs', ← hevent, hstep]))
      rwa [EmitsLegal, hsess, hports] at hlegal
    | idle =>
      obtain rfl | ⟨act, rest, -, hact⟩ := step_idle_cases hpin hs hstep
      · exact emitsLegal_of_eq rfl
      obtain ⟨i, -, -, hexec⟩ | ⟨op, rfl⟩ | ⟨a, bs, -, rfl⟩ | ⟨a, bs, -, rfl⟩ :=
        hostStep_eq_next (s := { s with ports.host := rest }) hs hact
      · exact exec_emitsLegal (s := { s with ports.host := rest }) h hexec
      all_goals exact emitsLegal_of_eq rfl

end Sys2Proof.Machine
end

section
/-! PROOFS. A read answered by a well-behaved completer (44_dma_session.md R111, 45_completion_reassembly.md R122):
the run of the whole read, by induction on the fragments. -/

namespace Sys2Proof.Machine

/-! ### One fragment of a well-behaved completer -/

/-- What R122 gives for the checks of R114: the fragment for `[q, q')` has a span of those bytes inside the datagram,
and it is the last one exactly when it reaches the end of the request. -/
theorem conformingFragment_span {remote : Nat → Byte} {e q q' : Nat} {d : Bytes}
    (h : ConformingFragment remote e q q' d) :
    ∃ nt hdr rest, d = encode (.cpld nt hdr rest) ∧ hdr.status = 0#3 ∧
      hdr.lowaddr.toNat % 4 ≤ hdr.length.toNat * 4 ∧ hdr.lowaddr.toNat % 4 + spanSize hdr ≤ rest.length ∧
      spanBytes hdr rest = (List.range (q' - q)).map (fun i => remote (q + i)) ∧
      (hdr.length.toNat = (hdr.lowaddr.toNat % 4 + hdr.count.toNat + 3) / 4 ↔ q' = e) := by
  obtain ⟨hlt, hle, halign, nt, hdr, rest, hd, hstatus, hlow, hcount, hlength, hrest, hbytes⟩ := h
  have hoff : hdr.lowaddr.toNat % 4 = q % 4 := by omega
  have hsize : spanSize hdr = q' - q := by
    rw [spanSize, hoff, hcount, hlength]
    omega
  have hfit : hdr.lowaddr.toNat % 4 + spanSize hdr ≤ rest.length := by omega
  refine ⟨nt, hdr, rest, hd, hstatus, by omega, hfit, ?_, by omega⟩
  apply List.ext_getElem
  · rw [spanBytes_length hfit, hsize]
    simp
  · intro i hi _
    rw [spanBytes_length hfit, hsize] at hi
    have hbyte := hbytes i hi
    rw [List.getD_eq_getElem _ _ (by omega)] at hbyte
    simp only [spanBytes, List.getElem_take, List.getElem_drop, List.getElem_map, List.getElem_range, hoff]
    exact hbyte

/-- No fragment follows the one that reaches the end. -/
theorem conformingAnswer_end {remote : Nat → Byte} {e : Nat} {ds : List Bytes} (h : ConformingAnswer remote e e ds) :
    ds = [] := by
  cases ds with
  | nil => rfl
  | cons d ds =>
    obtain ⟨q', ⟨hlt, hle, -⟩, -⟩ := h
    omega

/-! ### A read in progress -/

/-- A read from `addr` is in progress: the bytes received so far are the remote's, and past the read DST is `old`. -/
structure Reading (remote : Nat → Byte) (addr : Nat) (old : Buffer) (u : State) : Prop where
  inv : u.Inv
  resetPin : u.ports.resetPin = false
  state : u.seq.state = .rdRecv
  start : u.seq.p.toNat = addr + u.seq.received.toNat
  bytes : ∀ i, i < u.seq.received.toNat + u.seq.cursor.toNat → u.dst.byte i = remote (addr + i)
  beyond : ∀ i, u.seq.len.toNat ≤ i → u.dst.byte i = old.byte i

/-- The read is done: `t` is IDLE and has answered OK once, DST holds the remote's bytes and past them `old`, and the
requests of `cs` have been handed over. -/
def Delivers (remote : Nat → Byte) (addr : Nat) (old : Buffer) (rxRest : List RxEvent) (answers : List TxAnswer)
    (cs : List (Nat × Nat)) (u t : State) : Prop :=
  t.seq.state = .idle ∧ t.sess = u.sess ∧ t.src = u.src ∧ t.dst.size = u.dst.size ∧
    (∀ i, i < u.seq.len.toNat → t.dst.byte i = remote (addr + i)) ∧
    (∀ i, u.seq.len.toNat ≤ i → t.dst.byte i = old.byte i) ∧
    t.ports =
      { u.ports with
        rx := rxRest
        txAnswers := answers
        responses := u.ports.responses ++ [.ok .done]
        transport := u.ports.transport ++ cs.map fun c => .sent (requestDatagram u.sess false c.1 c.2 []) .ok }

/-- The chunks still to be requested behind the outstanding one. -/
def laterChunks (u : State) : List (Nat × Nat) :=
  chunks (u.seq.p.toNat + u.seq.chunk.toNat) (u.seq.len.toNat - (u.seq.received.toNat + u.seq.chunk.toNat))
    u.sess.mrrs.toNat

/-- The inputs that `ds` will be: the fragments that are still due for the outstanding chunk, which is not complete, and
for the later ones, and a transport that takes the later requests. -/
structure Awaiting (remote : Nat → Byte) (rxRest : List RxEvent) (answers : List TxAnswer) (ds : List Bytes)
    (u : State) : Prop where
  rx : u.ports.rx = ds.map .datagram ++ rxRest
  txAnswers : u.ports.txAnswers = List.replicate (laterChunks u).length .ok ++ answers
  incomplete : u.seq.cursor.toNat < u.seq.chunk.toNat
  fragments : ∃ xs ys, ds = xs ++ ys ∧
    ConformingAnswer remote (u.seq.p.toNat + u.seq.chunk.toNat) (u.seq.p.toNat + u.seq.cursor.toNat) xs ∧
    ConformingAnswers remote (laterChunks u) ys

section
variable {remote : Nat → Byte} {addr : Nat} {old : Buffer} {rxRest : List RxEvent} {answers : List TxAnswer}

/-- The remote's next bytes, copied into the window. -/
theorem reading_copied {u : State} {n : Nat} (h : Reading remote addr old u)
    (hn : n ≤ u.seq.chunk.toNat - u.seq.cursor.toNat) :
    let bs := (List.range n).map fun i => remote (u.seq.p.toNat + u.seq.cursor.toNat + i)
    Reading remote addr old (copied bs u) ∧ (copied bs u).seq.cursor.toNat = u.seq.cursor.toNat + n := by
  intro bs
  have hlen : bs.length = n := by simp [bs]
  obtain ⟨hfit, -, hle, -⟩ := inv_read h.inv h.state
  have hcursor : (copied bs u).seq.cursor.toNat = u.seq.cursor.toNat + n :=
    (copied_cursor_toNat h.inv (by omega)).trans (by rw [hlen])
  refine ⟨⟨copied_inv h.inv h.state (by omega), h.resetPin, h.state, h.start, fun i hi => ?_, fun i hi => ?_⟩, hcursor⟩
  · rw [hcursor] at hi
    change i < u.seq.received.toNat + _ at hi
    rcases Nat.lt_or_ge i (u.seq.received.toNat + u.seq.cursor.toNat) with hold | hnew
    · exact (byte_write_outside _ _ _ _ (.inl hold)).trans (h.bytes i hold)
    · obtain ⟨j, rfl⟩ := Nat.exists_eq_add_of_le hnew
      have hj : j < bs.length := by omega
      refine (byte_write_inside _ _ j bs hj).trans ?_
      have hstart := h.start
      rw [List.getD_eq_getElem _ _ hj, List.getElem_map, List.getElem_range]
      congr 1
      omega
  · change u.seq.len.toNat ≤ i at hi
    exact (byte_write_outside _ _ _ _ (.inr (by omega))).trans (h.beyond i hi)

/-- A fragment received is copied, with the remote's bytes, up to where it reaches; the last one ends its chunk. -/
theorem rxDatagram_conformingFragment {u : State} {d : Bytes} {q' : Nat} (h : Reading remote addr old u)
    (hfrag : ConformingFragment remote (u.seq.p.toNat + u.seq.chunk.toNat) (u.seq.p.toNat + u.seq.cursor.toNat) q' d) :
    ∃ bs, Reading remote addr old (copied bs u) ∧ u.seq.p.toNat + (copied bs u).seq.cursor.toNat = q' ∧
      rxDatagram d u =
        if q' = u.seq.p.toNat + u.seq.chunk.toNat then chunkDone (copied bs u) else .next (copied bs u) := by
  obtain ⟨nt, hdr, rest, rfl, hstatus, hunder, hdgram, hbytes, hlast⟩ := conformingFragment_span hfrag
  obtain ⟨hreach, hend, -⟩ := hfrag
  have hlen := congrArg List.length hbytes
  rw [spanBytes_length hdgram, List.length_map, List.length_range] at hlen
  obtain ⟨hreading, hcursor⟩ := reading_copied (n := q' - (u.seq.p.toNat + u.seq.cursor.toNat)) h (by omega)
  rw [← hbytes] at hreading hcursor
  refine ⟨spanBytes hdr rest, hreading, by omega, ?_⟩
  rw [← exec_wireForm_rdRecv (i := .cpld nt hdr rest) rfl h.state,
    exec_cpld_accepted nt h.inv h.state ⟨hstatus, hunder, hdgram, by omega⟩]
  exact if_congr hlast rfl rfl

/-! ### The next request -/

/-- A read whose next request is sent is in progress, with nothing of the new chunk received. -/
theorem reading_requested {v : State} (hcan : CanRequest v) (hpin : v.ports.resetPin = false)
    (hstart : v.seq.p.toNat = addr + v.seq.received.toNat)
    (hbytes : ∀ i, i < v.seq.received.toNat → v.dst.byte i = remote (addr + i))
    (hbeyond : ∀ i, v.seq.len.toNat ≤ i → v.dst.byte i = old.byte i) : Reading remote addr old (requested v) :=
  ⟨requested_inv hcan, hpin, rfl, hstart, hbytes, hbeyond⟩

/-- The next request takes the first of the chunks that remain. -/
theorem chunks_requested {v : State} (hcan : CanRequest v) :
    chunks v.seq.p.toNat (v.seq.len.toNat - v.seq.received.toNat) v.sess.mrrs.toNat =
      (v.seq.p.toNat, nextChunk v) :: laterChunks (requested v) := by
  have hchunk := requested_chunk v
  obtain ⟨hsess, hopen, hmore, -⟩ := hcan
  rw [chunks_cons _ (by omega) (hsess.2 hopen), laterChunks, hchunk, Nat.sub_sub]
  rfl

/-- The transport takes the next request, and the fragments for the chunks that remain are due. -/
theorem awaiting_requested {v : State} {ds : List Bytes} (hcan : CanRequest v)
    (hrx : v.ports.rx = ds.map .datagram ++ rxRest)
    (hans : v.ports.txAnswers = List.replicate
      (chunks v.seq.p.toNat (v.seq.len.toNat - v.seq.received.toNat) v.sess.mrrs.toNat).length .ok ++ answers)
    (hds : ConformingAnswers remote
      (chunks v.seq.p.toNat (v.seq.len.toNat - v.seq.received.toNat) v.sess.mrrs.toNat) ds) :
    sendReadRequest v = .next (requested v) ∧ Awaiting remote rxRest answers ds (requested v) ∧
      ∀ t, Delivers remote addr old rxRest answers (laterChunks (requested v)) (requested v) t →
        Delivers remote addr old rxRest answers
          (chunks v.seq.p.toNat (v.seq.len.toNat - v.seq.received.toNat) v.sess.mrrs.toNat) v t := by
  rw [chunks_requested hcan] at hans hds ⊢
  obtain ⟨hok, hused⟩ := nextAnswer_of_cons
    (rest := List.replicate (laterChunks (requested v)).length .ok ++ answers) hans
  have hports : (requested v).ports = { v.ports with
      txAnswers := List.replicate (laterChunks (requested v)).length .ok ++ answers
      transport :=
        v.ports.transport ++ [.sent (requestDatagram v.sess false v.seq.p.toNat (nextChunk v) []) .ok] } := by
    rw [requested, hok, hused]
    rfl
  have hchunk := requested_chunk v
  obtain ⟨-, hpos, -⟩ := inv_read (requested_inv hcan) rfl
  refine ⟨sendReadRequest_ok hok, ⟨?_, ?_, ?_, ?_⟩, ?_⟩
  · rw [hports]
    exact hrx
  · rw [hports]
  · exact hpos
  · obtain ⟨xs, ys, rfl, hxs, hys⟩ := hds
    refine ⟨xs, ys, rfl, ?_, hys⟩
    rw [hchunk]
    exact hxs
  · rintro t ⟨hstate, hsess, hsrc, hsize, hbytes, hbeyond, htports⟩
    refine ⟨hstate, hsess, hsrc, hsize, hbytes, hbeyond, ?_⟩
    rw [htports, hports]
    dsimp only
    rw [List.append_assoc]
    rfl

/-! ### The run -/

/-- The end of the last chunk ends the read: everything has been received. -/
theorem chunkDone_delivers {u : State} (h : Reading remote addr old u) (hrx : u.ports.rx = rxRest)
    (hans : u.ports.txAnswers = answers) (hfull : u.seq.cursor = u.seq.chunk)
    (hlast : u.seq.received.toNat + u.seq.chunk.toNat = u.seq.len.toNat) :
    ∃ t, chunkDone u = .next t ∧ Delivers remote addr old rxRest answers [] u t := by
  obtain ⟨hsess, hdst, hsrc, hports, -⟩ := advance_frame u
  have hbytes := h.bytes
  rw [hfull, hlast, ← hdst] at hbytes
  have hbeyond := h.beyond
  rw [← hdst] at hbeyond
  refine ⟨_, chunkDone_last hlast, rfl, hsess, hsrc, congrArg Buffer.size hdst, hbytes, hbeyond, ?_⟩
  show { (advance u).ports with responses := (advance u).ports.responses ++ [Response.ok .done] } = _
  rw [hports, ← hrx, ← hans, List.map_nil, List.append_nil]

/-- Past a chunk that is not the last the read goes on, with its bytes as they are. -/
theorem reading_advance {u : State} (h : Reading remote addr old u) (hfull : u.seq.cursor = u.seq.chunk)
    (hmore : u.seq.received.toNat + u.seq.chunk.toNat < u.seq.len.toNat) :
    Reading remote addr old (requested (advance u)) := by
  have hcan := advance_canRequest h.inv h.state hmore
  obtain ⟨-, -, -, -, -, htop⟩ := inv_read h.inv h.state
  have hlt := u.seq.len.isLt
  have hbytes := h.bytes
  have hstart := h.start
  rw [hfull] at hbytes
  rw [advance_eq (by omega)] at hcan ⊢
  refine reading_requested hcan h.resetPin ?_ ?_ h.beyond
  · simp only [BitVec.toNat_ofNat]
    omega
  · intro i hi
    refine hbytes i ?_
    simp only [BitVec.toNat_ofNat] at hi
    omega

/-- Past a chunk that is not the last the chunks that remain are the later ones. -/
theorem chunks_advance {u : State} (h : u.Inv) (hs : u.seq.state = .rdRecv)
    (hmore : u.seq.received.toNat + u.seq.chunk.toNat < u.seq.len.toNat) :
    chunks (advance u).seq.p.toNat ((advance u).seq.len.toNat - (advance u).seq.received.toNat)
      (advance u).sess.mrrs.toNat = laterChunks u := by
  obtain ⟨-, -, -, -, -, htop⟩ := inv_read h hs
  have hlt := u.seq.len.isLt
  rw [advance_eq (by omega)]
  simp only [BitVec.toNat_ofNat]
  rw [Nat.mod_eq_of_lt (by omega), Nat.mod_eq_of_lt (by omega), laterChunks]

/-- The end of a chunk with its bytes received goes on with the chunks that remain. -/
theorem chunkDone_awaiting {u : State} {ds : List Bytes} (h : Reading remote addr old u)
    (hrx : u.ports.rx = ds.map .datagram ++ rxRest)
    (hans : u.ports.txAnswers = List.replicate (laterChunks u).length .ok ++ answers)
    (hds : ConformingAnswers remote (laterChunks u) ds) (hfull : u.seq.cursor = u.seq.chunk)
    (hmore : u.seq.received.toNat + u.seq.chunk.toNat < u.seq.len.toNat) :
    ∃ w, chunkDone u = .next w ∧ Reading remote addr old w ∧ Awaiting remote rxRest answers ds w ∧
      ∀ t, Delivers remote addr old rxRest answers (laterChunks w) w t →
        Delivers remote addr old rxRest answers (laterChunks u) u t := by
  have hcan := advance_canRequest h.inv h.state hmore
  have hchunks := chunks_advance h.inv h.state hmore
  obtain ⟨hsess, hdst, hsrc, hports, -, hlen, -⟩ := advance_frame u
  rw [← hports] at hrx hans
  rw [← hchunks] at hans hds
  obtain ⟨hsend, hdue, hdelivers⟩ := awaiting_requested (addr := addr) (old := old) hcan hrx hans hds
  refine ⟨_, (chunkDone_next hmore).trans hsend, reading_advance h hfull hmore, hdue, fun t ht => ?_⟩
  have hdone := hdelivers t ht
  rwa [hchunks, Delivers, hsess, hdst, hsrc, hports, hlen] at hdone

/-- R111: from a read in progress, one step for each fragment that is due ends the read with the remote's bytes. -/
theorem run_delivers {ds : List Bytes} {u : State} (h : Reading remote addr old u)
    (hdue : Awaiting remote rxRest answers ds u) :
    ∃ t, Host.Core.run Sys2Proof.core ds.length u = .next t ∧
      Delivers remote addr old rxRest answers (laterChunks u) u t := by
  induction ds generalizing u with
  | nil =>
    obtain ⟨xs, ys, hsplit, hxs, -⟩ := hdue.fragments
    obtain ⟨rfl, -⟩ := List.append_eq_nil_iff.1 hsplit.symm
    have hincomplete := hdue.incomplete
    replace hxs : u.seq.p.toNat + u.seq.cursor.toNat = u.seq.p.toNat + u.seq.chunk.toNat := hxs
    omega
  | cons d ds ih =>
    have hincomplete := hdue.incomplete
    obtain ⟨xs, ys, hsplit, hxs, hys⟩ := hdue.fragments
    cases xs with
    | nil =>
      replace hxs : u.seq.p.toNat + u.seq.cursor.toNat = u.seq.p.toNat + u.seq.chunk.toNat := hxs
      omega
    | cons x xs =>
      obtain ⟨rfl, rfl⟩ := List.cons.inj hsplit
      obtain ⟨q', hfrag, hxs⟩ := hxs
      let u₀ : State := { u with ports.rx := (xs ++ ys).map .datagram ++ rxRest }
      have h₀ : Reading remote addr old u₀ := ⟨h.inv, h.resetPin, h.state, h.start, h.bytes, h.beyond⟩
      obtain ⟨bs, hreading, hreach, hr⟩ := rxDatagram_conformingFragment h₀ hfrag
      replace hr := (stepOnDatagramIsReassembly u d _ h.resetPin h.state hdue.rx).trans hr
      by_cases hend : q' = u.seq.p.toNat + u.seq.chunk.toNat
      · rw [if_pos hend] at hr
        rw [hend] at hxs hreach
        obtain rfl := conformingAnswer_end hxs
        have hfull : (copied bs u₀).seq.cursor = (copied bs u₀).seq.chunk :=
          BitVec.eq_of_toNat_eq (Nat.add_left_cancel hreach)
        obtain ⟨hfit, -⟩ := inv_read h.inv h.state
        rcases Nat.eq_or_lt_of_le hfit with hlast | hmore
        · have hnone : laterChunks u = [] := by
            rw [laterChunks, hlast, Nat.sub_self, chunks_zero]
          rw [hnone] at hys ⊢
          obtain rfl : ys = [] := hys
          obtain ⟨t, hdone, ht⟩ := chunkDone_delivers hreading (rxRest := rxRest) (answers := answers) rfl
            (by rw [show (copied bs u₀).ports.txAnswers = _ from hdue.txAnswers, hnone]; rfl) hfull hlast
          exact ⟨t, run_succ (hr.trans hdone) 0, ht⟩
        · obtain ⟨w, hnext, hw, hwdue, hdelivers⟩ :=
            chunkDone_awaiting hreading rfl hdue.txAnswers hys hfull hmore
          obtain ⟨t, hrun, ht⟩ := ih hw hwdue
          exact ⟨t, (run_succ (hr.trans hnext) _).trans hrun, hdelivers t ht⟩
      · rw [if_neg hend] at hr
        obtain ⟨-, hle, -⟩ := hfrag
        have hopen : (copied bs u₀).seq.cursor.toNat < u.seq.chunk.toNat := by
          change u.seq.p.toNat + _ = q' at hreach
          omega
        have hxs' : ConformingAnswer remote (u₀.seq.p.toNat + u₀.seq.chunk.toNat)
            (u₀.seq.p.toNat + (copied bs u₀).seq.cursor.toNat) xs := hreach.symm ▸ hxs
        obtain ⟨t, hrun, ht⟩ := ih hreading ⟨rfl, hdue.txAnswers, hopen, xs, ys, rfl, hxs', hys⟩
        exact ⟨t, (run_succ hr _).trans hrun, ht⟩

end

/-- Settles O59: the command sends the request for the first chunk (`awaiting_requested`), and from there the fragments
end the read (`run_delivers`). -/
theorem conformingReadDelivers : Obligations.ConformingReadDelivers := by
  intro remote addr len s fragments hostRest rxRest answers h hpin hs hopen hlen htop hsize hhost hrx hans hfrag
  let s₀ : State := { s with ports.host := hostRest }
  let v := withRead addr len s₀
  have hcan : CanRequest v := withRead_canRequest (s := s₀) h hopen hlen htop hsize
  have hreading : Reading remote addr.toNat s.dst (requested v) :=
    reading_requested hcan hpin rfl (fun _ hi => absurd hi (Nat.not_lt_zero _)) (fun _ _ => rfl)
  obtain ⟨hsend, hdue, hdelivers⟩ := awaiting_requested (addr := addr.toNat) (old := s.dst) hcan hrx hans hfrag
  obtain ⟨t, hrun, ht⟩ := run_delivers hreading hdue
  have hexec : exec (.dmaRead addr len) s₀ = sendReadRequest v := by
    rw [exec_dmaRead_idle addr len (s := s₀) hs, if_neg (by simp [s₀, hopen]), if_neg hlen, if_neg (Nat.not_lt.2 htop),
      if_neg (Nat.not_lt.2 hsize)]
  have hstep : step s = .next (requested v) := (step_of_command hpin hs rfl hhost).trans (hexec.trans hsend)
  rw [Nat.add_comm]
  exact ⟨t, (run_succ hstep _).trans hrun, hdelivers t ht⟩

end Sys2Proof.Machine
end
